-- ==== Sys2Proof/Word.lean ====
section
/-! DEFINITION. The byte and the pixel (00_scope.md R8, R10): the two types every other file is written over. -/

namespace Sys2Proof

/-- An unsigned 8-bit value; bit 7 is the most significant (R8). -/
abbrev Byte := BitVec 8

/-- A pixel: four bytes `(r, g, b, a)` (R10). Two pixels are equal when all four channels are. -/
@[ext] structure Pixel where
  r : Byte
  g : Byte
  b : Byte
  a : Byte
deriving DecidableEq, Repr, Inhabited

end Sys2Proof
end

