-- ==== Sys2Proof/Config.lean ====
section
/-! DEFINITION. The fixed constants (00_scope.md R5), the three parameters of the step relation
(00_scope.md R6, 10_state.md R37) and the free values for what the spec calls unspecified. -/

namespace Sys2Proof

/-- The parameters of one instance of the block. `MAGIC` and `MAX_OUT_BYTES` are open, `END_MARKER_DETECT`
is the spec's choice (R6). They are fixed when the block is built, never run-time registers (90_conflicts.md C6):
`State` carries them in a field that no step changes (log 3), so a statement about every state is a statement
about every setting. -/
structure Config where
  /-- `MAGIC[0..3]`, the first four bytes of every encoded stream. -/
  magic : Vector Byte 4
  /-- `MAX_OUT_BYTES`, the decoder's configured maximum output size in bytes. -/
  maxOutBytes : Nat
  /-- `END_MARKER_DETECT`: an end marker met while pixels are owed is a truncated stream. -/
  endMarkerDetect : Bool
deriving DecidableEq, Repr

/-- The setting `State.reset` holds. DESIGN CHOICE (log 3): the spec's default `MAGIC`, no particular
`MAX_OUT_BYTES` (2^66 is above every product of a 32-bit width, a 32-bit height and 4), the spec's
`END_MARKER_DETECT`. -/
def Config.default : Config where
  magic := #v[0x71#8, 0x6F#8, 0x69#8, 0x66#8]
  maxOutBytes := 2 ^ 66
  endMarkerDetect := true

/-- `PREV_INIT` (R5). -/
def Config.prevInit : Pixel := ⟨0#8, 0#8, 0#8, 255#8⟩

/-- `CACHE_INIT`: one slot (R5). -/
def Config.slotInit : Pixel := ⟨0#8, 0#8, 0#8, 0#8⟩

/-- `RUN_MAX` (R5). -/
def Config.runMax : Nat := 62

/-- `HDR_LEN` (R5). -/
def Config.hdrLen : Nat := 14

/-- `END_LEN` (R5). -/
def Config.endLen : Nat := 8

/-- `END_MARKER` (R5, 30_encoding.md R93). -/
def Config.endMarker : List Byte := [0#8, 0#8, 0#8, 0#8, 0#8, 0#8, 0#8, 1#8]

/-! Free values: what the registers hold where the spec says "unspecified" after an error, an ABORT or the START of
a DECODE (60_exceptions.md R232, 44_control.md R206, 10_state.md R36, U2). Each is applied to `State.freeCount`.
They have no body that a proof could see (log 4). -/

/-- Free `prev`. -/
opaque Config.freePrev : Nat → Pixel
/-- Free `run`, within the register's 0..62 (10_state.md R21). -/
opaque Config.freeRun : Nat → Fin 63
/-- Free index cache. -/
opaque Config.freeCache : Nat → Vector Pixel 64
/-- Free `px_pos`. -/
opaque Config.freePxPos : Nat → Nat
/-- Free `ip`. -/
opaque Config.freeIp : Nat → Nat
/-- Free `op`. -/
opaque Config.freeOp : Nat → Nat
/-- Free `WIDTH`. -/
opaque Config.freeWidth : Nat → BitVec 32
/-- Free `HEIGHT`. -/
opaque Config.freeHeight : Nat → BitVec 32
/-- Free `CHANNELS`. -/
opaque Config.freeChannels : Nat → BitVec 8
/-- Free `COLORSPACE`. -/
opaque Config.freeColorspace : Nat → BitVec 8

end Sys2Proof
end

