-- ==== Sys2Proof/Syntax.lean ====
section
/-! DEFINITION. The syntax: the six chunk kinds (30_encoding.md R80) and the pseudo-item END (R101), one constructor
per row of the opcode table. Operands are the logical values of 00_scope.md R14 (true deltas, true count), never the
biased wire fields. -/

namespace Sys2Proof

/-- A chunk, in the document's notation (30_encoding.md R100). -/
inductive Instr where
  /-- `RGB{r,g,b}` (R86). -/
  | rgb (r g b : Byte)
  /-- `RGBA{r,g,b,a}` (R87). -/
  | rgba (r g b a : Byte)
  /-- `INDEX{slot}` (R82). -/
  | index (slot : Fin 64)
  /-- `DIFF{dr,dg,db}` (R83). -/
  | diff (dr dg db : Int)
  /-- `LUMA{dg,dr_dg,db_dg}` (R84). -/
  | luma (dg drDg dbDg : Int)
  /-- `RUN{count}` (R85). -/
  | run (count : Nat)
  /-- `endMarker(8B)`, the row END (R93, R101). -/
  | endMarker
deriving DecidableEq, Repr

end Sys2Proof
end

