-- ==== Sys2Proof/WellFormed.lean ====
section
/-! DEFINITION. Which chunks have an encoding: the operand ranges of 30_encoding.md R88. RGB, RGBA, INDEX and END have
none to check, since their operand types already are the ranges (0..255, 0..63). -/

namespace Sys2Proof

/-- `lo ≤ v ≤ hi`. -/
def inRange (lo hi v : Int) : Bool := decide (lo ≤ v) && decide (v ≤ hi)

/-- The operands lie in the ranges of R88. -/
def Instr.wellFormed : Instr → Bool
  | .rgb _ _ _ => true
  | .rgba _ _ _ _ => true
  | .index _ => true
  | .diff dr dg db => inRange (-2) 1 dr && inRange (-2) 1 dg && inRange (-2) 1 db
  | .luma dg drDg dbDg => inRange (-32) 31 dg && inRange (-8) 7 drDg && inRange (-8) 7 dbDg
  | .run count => decide (1 ≤ count) && decide (count ≤ 62)
  | .endMarker => true

/-- `i` is a chunk of R88's ranges. -/
abbrev Instr.WellFormed (i : Instr) : Prop := i.wellFormed = true

end Sys2Proof
end

