-- ==== Sys2Proof/Decode.lean ====
section
/-! DEFINITION. The tag parser (30_encoding.md R81, R89, 43_decoder.md R172, R173, R183) as a total function on bytes, and the
chunk serialiser written from the same tables (30_encoding.md R82 to R87, R93). -/

namespace Sys2Proof

/-- Why the tag parser yields no chunk. There is no illegal byte (R90): it only runs out of bytes. Each is the
TruncatedStream of 43_decoder.md R185. -/
inductive DecodeError where
  /-- No byte is left for a tag (R172). -/
  | noTag
  /-- The payload is cut short (R173). -/
  | shortPayload
deriving DecidableEq, Repr

/-- `v[hi:lo]` of a byte, with `len = hi - lo + 1`, as a natural number (R8). -/
def bits (b : Byte) (lo len : Nat) : Nat := b.toNat / 2 ^ lo % 2 ^ len

/-- `plen`, the number of payload bytes the first byte `b0` fixes (43_decoder.md R172). -/
def payloadLen (b0 : Byte) : Nat :=
  if b0 = 0xFE#8 then 3 else if b0 = 0xFF#8 then 4 else if bits b0 6 2 = 2 then 1 else 0

/-- INDEX, format T6 (R82): the slot is bits 5:0. -/
def decodeIndex (b0 : Byte) : Instr := .index ⟨bits b0 0 6, Nat.mod_lt _ (by decide)⟩

/-- DIFF, format T222 (R83): `field - 2`. -/
def decodeDiff (b0 : Byte) : Instr :=
  .diff ((bits b0 4 2 : Int) - 2) ((bits b0 2 2 : Int) - 2) ((bits b0 0 2 : Int) - 2)

/-- LUMA, format T6N44 (R84): `dg` is `field - 32`, the two differences are `field - 8`. -/
def decodeLuma (b0 b1 : Byte) : Instr :=
  .luma ((bits b0 0 6 : Int) - 32) ((bits b1 4 4 : Int) - 8) ((bits b1 0 4 : Int) - 8)

/-- RUN, format T6 (R85): `field + 1`. -/
def decodeRun (b0 : Byte) : Instr := .run (bits b0 0 6 + 1)

/-- One chunk from the front of a byte list, with the bytes after it (R81, R172, R173): the two 8-bit tags first,
then bits 7:6. -/
def decodeChunk : List Byte → Except DecodeError (Instr × List Byte)
  | [] => .error .noTag
  | b0 :: rest =>
    if b0 = 0xFE#8 then
      match rest with
      | r :: g :: b :: tail => .ok (.rgb r g b, tail)
      | _ => .error .shortPayload
    else if b0 = 0xFF#8 then
      match rest with
      | r :: g :: b :: a :: tail => .ok (.rgba r g b a, tail)
      | _ => .error .shortPayload
    else if bits b0 6 2 = 0 then .ok (decodeIndex b0, rest)
    else if bits b0 6 2 = 1 then .ok (decodeDiff b0, rest)
    else if bits b0 6 2 = 2 then
      match rest with
      | b1 :: tail => .ok (decodeLuma b0 b1, tail)
      | _ => .error .shortPayload
    else .ok (decodeRun b0, rest)

/-- What stands at a chunk boundary: with `detect` (`END_MARKER_DETECT`) the whole 8-byte end marker is looked for
before the tag parser (43_decoder.md R183). -/
def decode (detect : Bool) (bytes : List Byte) : Except DecodeError (Instr × List Byte) :=
  if detect = true ∧ bytes.take Config.endLen = Config.endMarker then .ok (.endMarker, bytes.drop Config.endLen)
  else decodeChunk bytes

/-- The bytes of a chunk, lowest address first (R82 to R87, R93): a 2-bit tag in bits 7:6 and the biased fields. -/
def encode : Instr → List Byte
  | .rgb r g b => [0xFE#8, r, g, b]
  | .rgba r g b a => [0xFF#8, r, g, b, a]
  | .index slot => [BitVec.ofNat 8 slot.val]
  | .diff dr dg db => [BitVec.ofInt 8 (0x40 + (dr + 2) * 16 + (dg + 2) * 4 + (db + 2))]
  | .luma dg drDg dbDg => [BitVec.ofInt 8 (0x80 + (dg + 32)), BitVec.ofInt 8 ((drDg + 8) * 16 + (dbDg + 8))]
  | .run count => [BitVec.ofNat 8 (0xC0 + (count - 1))]
  | .endMarker => Config.endMarker

/-- The total bytes of a chunk (R80); END is 8 (R93). -/
def chunkLength : Instr → Nat
  | .rgb _ _ _ => 4
  | .rgba _ _ _ _ => 5
  | .index _ => 1
  | .diff _ _ _ => 1
  | .luma _ _ _ => 2
  | .run _ => 1
  | .endMarker => 8

/-- The `len` bytes of a table word, the first byte in bits 7..0, the second in bits 15..8, and so on. -/
def wordBytes : Nat → Nat → List Byte
  | 0, _ => []
  | len + 1, w => BitVec.ofNat 8 w :: wordBytes len (w / 256)

/-- The 8 bytes (the longest item, END) of a table row's word of `nbits` bits, zeros above it. -/
def tableBytes (nbits w : Nat) : List Byte := wordBytes 8 (w % 2 ^ nbits)

/-- The item the decoder reads from a table row's word, with the end marker looked for. -/
def decodeTableWord (nbits w : Nat) : Option Instr :=
  match decode true (tableBytes nbits w) with
  | .ok (i, _) => some i
  | .error _ => none

end Sys2Proof
end

