-- ==== Sys2Proof/Machine/State.lean ====
section
/-! DEFINITION. Everything the spec gives the machine (10_state.md), the host's moves, the reasons a step can stop, and
the state after power-on (70_reset_and_hazards.md R250). -/

namespace Sys2Proof.Machine

/-- `CTRL.MODE` (10_state.md R31): 0 selects ENCODE, 1 selects DECODE. -/
inductive Mode where
  | encode
  | decode
deriving DecidableEq, Repr

/-- `STATUS.STATE` (10_state.md R32), in the order of its codes 0 to 3. -/
inductive CallState where
  /-- No call since power-on or since ABORT. -/
  | idle
  /-- A call is running. -/
  | busy
  /-- The last call succeeded. -/
  | done
  /-- The last call failed; `ERR` holds why. -/
  | error
deriving DecidableEq, Repr

/-- `ERR` (10_state.md R33, 60_exceptions.md R220), in the order of its codes 0 to 6; 7 is never written. -/
inductive ErrCode where
  | none
  | invalidDescriptor
  | dataLengthMismatch
  | malformedHeader
  | unsupportedChannelCount
  | unsupportedColorspace
  | truncatedStream
deriving DecidableEq, Repr

/-- Which step of the running call comes next (44_control.md R209, D21; the model's own sequencing field, log 11).
ENCODE goes check, header, loop; DECODE goes header, check, loop. -/
inductive Phase where
  /-- ENCODE: the 14 header bytes (R112). DECODE: `decodeHeader` (R113, R114). -/
  | header
  /-- ENCODE: the precondition check (R111). DECODE: the output-size check (R115). -/
  | check
  /-- The pixel loop or the chunk loop, and the closing work once `px_pos` has reached `N`. -/
  | loop
deriving DecidableEq, Repr

/-- A register the host can read (10_state.md R30). `ABORT` is write-only and is not among them. -/
inductive ReadReg where
  | width
  | height
  | channels
  | colorspace
  | inLen
  | outLen
  | ctrl
  | status
  | err
deriving DecidableEq, Repr

/-- One move of the host at the edge of the engine's steps (44_control.md R200 to R206, 70_reset_and_hazards.md R252;
log 6). DESIGN CHOICE (log 24, unsafe): there is no move that writes `OUT`. 20_memory.md R64 lets the host "read and write
all host-accessible state" while not BUSY and does not say whether `OUT` is among what it may write; 00_scope.md R16 names
only its reads of `OUT`. -/
inductive HostMove where
  /-- The host does nothing while the engine takes one step. -/
  | letRun
  /-- The host polls `STATUS.STATE` until it is not BUSY (60_exceptions.md R240). -/
  | await
  | writeWidth (v : BitVec 32)
  | writeHeight (v : BitVec 32)
  | writeChannels (v : BitVec 8)
  | writeColorspace (v : BitVec 8)
  | writeInLen (v : BitVec 64)
  /-- Bit 0 `MODE`, bit 1 `START`. -/
  | writeCtrl (v : BitVec 2)
  | writeAbort (v : BitVec 1)
  /-- Fill one byte of `IN`. -/
  | writeIn (addr : Nat) (b : Byte)
  /-- The platform places `IN` and `OUT`; `overlap` says whether they share a byte (20_memory.md R63). -/
  | place (overlap : Bool)
  | readReg (r : ReadReg)
  | readIn (addr : Nat)
  | readOut (addr : Nat)
deriving DecidableEq, Repr

/-- A byte buffer: (address, byte) pairs, addresses strictly rising (`Memory.wf`). An address that is not listed holds no
value: the spec leaves its content unspecified and has its reading modelled as a fault (10_state.md R36; log 2). -/
abbrev Memory := List Host.Cell

/-- Why a step stops. Both are raised on reading a buffer byte that nothing has written (10_state.md R36 "reading it before
it is written is modelled as a fault"). Both are safe: hardware would go on with some byte. -/
inductive Fault where
  /-- The engine or the host reads a byte of `IN` below `IN_LEN` that the host never filled (70_reset_and_hazards.md
  R252, U6). Raised by the pixel fetch, the header read, the chunk fetch, the trailer check and the host's read of IN.
  Safe. -/
  | unwrittenInput
  /-- The host reads a byte of `OUT` that the last call did not write, or whose call failed or was abandoned (U2, U4).
  Raised by the host's read of OUT. Safe. -/
  | unwrittenOutput
deriving DecidableEq, Repr

/-- Why a step is refused: host moves the spec says the model must not admit (20_memory.md R63, R64, U6). -/
inductive Refusal where
  /-- An instruction without a meaning. Raised by no arm of this model. Safe. -/
  | notModelled (mnemonic : String)
  /-- The host writes `IN`, `IN_LEN`, CR0 to CR3, the placement, or `CTRL` without `START`, while BUSY (R64). Raised by the
  host's writes. Safe. -/
  | hostWriteWhileBusy
  /-- The host reads anything but `STATUS` while BUSY (R64, 92_eei_decisions.md D19, log 7). Raised by the host's reads.
  Safe. -/
  | hostReadWhileBusy
  /-- A call is started while `IN` and `OUT` overlap (R63: "a model must refuse such a launch"). Raised by START. Safe. -/
  | overlappingBuffers
  /-- A call is started whose inputs were never written: `IN_LEN`, a byte of `IN` below it or, in an ENCODE, one of CR0 to
  CR3 (70_reset_and_hazards.md R252, U6; log 23). Raised by START. Safe. -/
  | inputsNeverWritten
deriving DecidableEq, Repr

/-- Which of the registers that hold a call's inputs have been written (70_reset_and_hazards.md R252, U6; log 23). -/
structure Written where
  width : Bool
  height : Bool
  channels : Bool
  colorspace : Bool
  inLen : Bool
deriving DecidableEq, Repr

/-- The machine. -/
structure State where
  /-- `MAGIC`, `MAX_OUT_BYTES`, `END_MARKER_DETECT` (R6); no step changes them (log 3). -/
  config : Config
  /-- `prev` (R20). -/
  prev : Pixel
  /-- `run` (R21). -/
  run : Nat
  /-- `cache[0..63]` (R25). -/
  cache : Vector Pixel 64
  /-- `px_pos` (R22). -/
  pxPos : Nat
  /-- `ip` (R23). -/
  ip : Nat
  /-- `op` (R24). -/
  op : Nat
  /-- `WIDTH`, CR0 (R26). -/
  width : BitVec 32
  /-- `HEIGHT`, CR1 (R27). -/
  height : BitVec 32
  /-- `CHANNELS`, CR2 (R28). -/
  channels : BitVec 8
  /-- `COLORSPACE`, CR3 (R29). -/
  colorspace : BitVec 8
  /-- `IN_LEN`, CR4 (R30). -/
  inLen : BitVec 64
  /-- `OUT_LEN`, CR5 (R30), a natural number as D2 allows (log 10). -/
  outLen : Nat
  /-- `CTRL.MODE`, CR6 bit 0 (R31). `START` has no storage. -/
  mode : Mode
  /-- `STATUS.STATE`, CR7 bits 1:0 (R32). -/
  callState : CallState
  /-- `STATUS.TRAILER_OK`, CR7 bit 2 (R32). -/
  trailerOk : Bool
  /-- `ERR`, CR8 (R33). -/
  err : ErrCode
  /-- `IN` (R50). -/
  inMem : Memory
  /-- `OUT` (R50). -/
  outMem : Memory
  /-- The model's own: the next step of the call (log 11). -/
  phase : Phase
  /-- The model's own: which input registers hold a value that was written (log 23). -/
  written : Written
  /-- The model's own: the platform placed `IN` and `OUT` overlapping (log 9). -/
  overlap : Bool
  /-- The model's own: the host's coming moves, the next one first (log 6). -/
  host : List HostMove
  /-- The model's own: what the host's last read returned (log 6). -/
  hostData : Nat
  /-- The model's own: how many times free values were taken (log 4). -/
  freeCount : Nat
deriving DecidableEq, Repr

/-- After power-on (R250): `STATE = IDLE`, `TRAILER_OK = 0`, `ERR = 0`, `OUT_LEN = 0`, and nothing listed in the buffers. The
spec leaves every other register unspecified; zero is a DESIGN CHOICE (log 1), as are the model's own fields (logs 3,
4, 6, 9, 11, 23). -/
def State.reset : State where
  config := Config.default
  prev := ⟨0#8, 0#8, 0#8, 0#8⟩
  run := 0
  cache := Vector.replicate 64 ⟨0#8, 0#8, 0#8, 0#8⟩
  pxPos := 0
  ip := 0
  op := 0
  width := 0#32
  height := 0#32
  channels := 0#8
  colorspace := 0#8
  inLen := 0#64
  outLen := 0
  mode := .encode
  callState := .idle
  trailerOk := false
  err := .none
  inMem := []
  outMem := []
  phase := .header
  written := ⟨false, false, false, false, false⟩
  overlap := false
  host := []
  hostData := 0
  freeCount := 0

end Sys2Proof.Machine
end

