-- ==== Sys2Proof/Machine/Operands.lean ====
section
/-! DEFINITION. Operand arithmetic: the width-changing primitives (00_scope.md R9), big-endian words (R12), the bytes of a
pixel that are transmitted (R10, 43_decoder.md R181), the hash (41_index_cache.md R130) and the channel deltas
(42_encoder.md R148). -/

namespace Sys2Proof.Machine

/-- `u8(i) = i mod 256` (R9). -/
def u8 (i : Int) : Byte := BitVec.ofInt 8 i

/-- `s8(v)`: the byte read as two's complement, -128..127 (R9). -/
def s8 (v : Byte) : Int := v.toInt

/-- `be32(x)`: the four bytes, most significant first (R12). -/
def be32 (x : BitVec 32) : List Byte :=
  [x.extractLsb' 24 8, x.extractLsb' 16 8, x.extractLsb' 8 8, x.extractLsb' 0 8]

/-- `BE32(b0,b1,b2,b3)` (R12). -/
def fromBE32 (b0 b1 b2 b3 : Byte) : BitVec 32 :=
  BitVec.ofNat 32 (b0.toNat * 2 ^ 24 + b1.toNat * 2 ^ 16 + b2.toNat * 2 ^ 8 + b3.toNat)

/-- The pixel a list of fetched channel bytes stands for: with three of them `a` is implicitly 255 (R10, R141). -/
def pixelOfBytes : List Byte → Option Pixel
  | [r, g, b] => some ⟨r, g, b, 255#8⟩
  | [r, g, b, a] => some ⟨r, g, b, a⟩
  | _ => none

/-- How many bytes a pixel has in the raw buffer: `if CHANNELS == 4 … else …` (R141, R181). -/
def pixelSize (channels : Byte) : Nat := if channels = 4#8 then 4 else 3

/-- The first `channels` bytes of a pixel (R181). -/
def pixelBytes (channels : Byte) (p : Pixel) : List Byte :=
  if channels = 4#8 then [p.r, p.g, p.b, p.a] else [p.r, p.g, p.b]

/-- `lookup(p)`: the hash, on naturals with no wrap-around (R130, R133). -/
def lookup (p : Pixel) : Fin 64 :=
  ⟨(p.r.toNat * 3 + p.g.toNat * 5 + p.b.toNat * 7 + p.a.toNat * 11) % 64, Nat.mod_lt _ (by decide)⟩

/-- `s8(u8(new - old))`: one channel's delta, modulo 256 and read as signed (R148, D8). -/
def delta (new old : Byte) : Int := s8 (u8 ((new.toNat : Int) - (old.toNat : Int)))

/-- `u8(old + d)`: a channel moved by a delta, modulo 256 (R175, D8). -/
def addDelta (old : Byte) (d : Int) : Byte := u8 ((old.toNat : Int) + d)

/-- `dr`, `dg` or `db` of the current pixel against `prev`, by channel (R148). -/
def deltaR (px prev : Pixel) : Int := delta px.r prev.r
/-- `dg` (R148). -/
def deltaG (px prev : Pixel) : Int := delta px.g prev.g
/-- `db` (R148). -/
def deltaB (px prev : Pixel) : Int := delta px.b prev.b

/-- The pixel DIFF and LUMA rebuild: the deltas applied to `prev`'s r, g, b, "alpha unchanged" (R175, R176). -/
def movePixel (prev : Pixel) (dr dg db : Int) : Pixel :=
  ⟨addDelta prev.r dr, addDelta prev.g dg, addDelta prev.b db, prev.a⟩

/-- The 14 header bytes (30_encoding.md R92, 40_header_codec.md R112). -/
def headerBytes (magic : Vector Byte 4) (width height : BitVec 32) (channels colorspace : Byte) : List Byte :=
  magic.toList ++ be32 width ++ be32 height ++ [channels] ++ [colorspace]

end Sys2Proof.Machine
end

