-- ==== Sys2Proof/Machine/Flags.lean ====
section
/-! DEFINITION. The transient predicates (10_state.md R34), which are computed and never stored, and the words the host
sees for `CTRL`, `STATUS` and `ERR` (R31, R32, R33). -/

namespace Sys2Proof.Machine

/-- `same`: `px == prev`, all four channels (R34, R142). -/
def same (px prev : Pixel) : Bool := decide (px = prev)

/-- `hit`: `cache[lookup(px)] == px`, all four channels (R34, R146). -/
def hit (px : Pixel) (cache : Vector Pixel 64) : Bool := decide (cache[lookup px] = px)

/-- `alpha_same` (R34, R148). -/
def alphaSame (px prev : Pixel) : Bool := decide (px.a = prev.a)

/-- `lo <= v <= hi`. -/
def within (lo hi v : Int) : Bool := decide (lo ≤ v) && decide (v ≤ hi)

/-- `diff_ok`: `dr, dg, db` all in -2..1 (R34, R149). -/
def diffOk (px prev : Pixel) : Bool :=
  within (-2) 1 (deltaR px prev) && within (-2) 1 (deltaG px prev) && within (-2) 1 (deltaB px prev)

/-- `luma_ok`: `dg` in -32..31, `dr - dg` and `db - dg` in -8..7 (R34, R150). -/
def lumaOk (px prev : Pixel) : Bool :=
  within (-32) 31 (deltaG px prev) && within (-8) 7 (deltaR px prev - deltaG px prev) &&
    within (-8) 7 (deltaB px prev - deltaG px prev)

/-- `N = width * height`, exact (00_scope.md R7). -/
def pixelCount (s : State) : Nat := s.width.toNat * s.height.toNat

/-- `RAW_LEN = N * channels`, exact (R7). -/
def rawLen (s : State) : Nat := s.width.toNat * s.height.toNat * s.channels.toNat

/-- `ENC_WORST = 14 + N * (channels + 1) + 8` (R7, 42_encoder.md R160). -/
def encWorst (s : State) : Nat := 14 + pixelCount s * (s.channels.toNat + 1) + 8

/-- `full`: `px_pos == N` (R34, 43_decoder.md R182). -/
def full (s : State) : Bool := decide (s.pxPos = pixelCount s)

/-- The loop's condition `px_pos < N` (R156, R186). -/
def owed (s : State) : Bool := decide (s.pxPos < pixelCount s)

/-- `valid(width, height, channels, colorspace)` (40_header_codec.md R110). -/
def validDescriptor (width height : BitVec 32) (channels colorspace : Byte) : Bool :=
  decide (0 < width.toNat) && decide (0 < height.toNat) && (decide (channels = 3#8) || decide (channels = 4#8)) &&
    (decide (colorspace = 0#8) || decide (colorspace = 1#8))

/-- `STATE`'s code (R32). -/
def stateCode : CallState → BitVec 2
  | .idle => 0#2
  | .busy => 1#2
  | .done => 2#2
  | .error => 3#2

/-- `ERR`'s code (R33, 60_exceptions.md R220). -/
def errWord : ErrCode → BitVec 3
  | .none => 0#3
  | .invalidDescriptor => 1#3
  | .dataLengthMismatch => 2#3
  | .malformedHeader => 3#3
  | .unsupportedChannelCount => 4#3
  | .unsupportedColorspace => 5#3
  | .truncatedStream => 6#3

/-- The `STATUS` word: bits 1:0 `STATE`, bit 2 `TRAILER_OK` (R32). -/
def statusWord (s : State) : BitVec 3 := BitVec.ofBool s.trailerOk ++ stateCode s.callState

/-- The `CTRL` word as read: bit 0 `MODE`, bit 1 `START` reads as 0 (R31). -/
def ctrlWord (s : State) : BitVec 2 :=
  match s.mode with
  | .encode => 0b00#2
  | .decode => 0b01#2

/-- `MODE` as a `CTRL` write gives it (R31). -/
def ctrlMode (v : BitVec 2) : Mode := if v.getLsbD 0 then .decode else .encode

/-- `START` of a `CTRL` write (R31). -/
def ctrlStart (v : BitVec 2) : Bool := v.getLsbD 1

end Sys2Proof.Machine
end

