-- ==== Sys2Proof/Machine/Ops.lean ====
section
/-! DEFINITION. The named operations over memory and registers: the memory primitives (00_scope.md R12), the index cache
(41_index_cache.md R131, R132), resolving a pixel in the decoder (43_decoder.md R180, R181), taking an error
(60_exceptions.md R232), and the two ways out of one, START (44_control.md R201, R202) and ABORT (R206). -/

namespace Sys2Proof.Machine

/-- The outcome of a step. -/
abbrev Result := Host.Outcome State Fault Refusal

/-! Memory -/

/-- The byte at an address, if one was written. -/
def memRead : Memory → Nat → Option Byte
  | [], _ => none
  | (k, v) :: rest, a => if k = a then some v else memRead rest a

/-- Store one byte, keeping the addresses rising. -/
def memWrite : Memory → Nat → Byte → Memory
  | [], a, b => [(a, b)]
  | (k, v) :: rest, a, b =>
    if a < k then (a, b) :: (k, v) :: rest
    else if k = a then (a, b) :: rest
    else (k, v) :: memWrite rest a b

/-- `MemRead(space, addr, n)`: `n` bytes, lowest address first (R12); none if one of them was never written. -/
def memReadN (m : Memory) (a : Nat) : Nat → Option (List Byte)
  | 0 => some []
  | n + 1 =>
    match memRead m a, memReadN m (a + 1) n with
    | some b, some bs => some (b :: bs)
    | _, _ => none

/-- `MemWrite(space, addr, n, v)`: the bytes of a list, lowest address first (R12). -/
def memWriteList (m : Memory) (a : Nat) : List Byte → Memory
  | [] => m
  | b :: bs => memWriteList (memWrite m a b) (a + 1) bs

/-- Whether every address from `a` up to below `n` was written. -/
def memFilled : Memory → Nat → Nat → Bool
  | [], a, n => decide (n ≤ a)
  | (k, _) :: rest, a, n => decide (n ≤ a) || (decide (k = a) && memFilled rest (a + 1) n)

/-- The canonical form: addresses strictly rising. An unlisted address has no value, so no entry can equal what an unlisted
address reads as. -/
def Memory.wf : Memory → Bool
  | [] => true
  | [_] => true
  | (k, _) :: (k', v') :: rest => decide (k < k') && Memory.wf ((k', v') :: rest)

/-- `Emit(v)`: append to `OUT` at `op` (R12, 20_memory.md R61). -/
def emit (v : List Byte) (s : State) : State :=
  { s with outMem := memWriteList s.outMem s.op v, op := s.op + v.length }

/-! The index cache -/

/-- `get(slot)` (41_index_cache.md R131). -/
def cacheGet (slot : Fin 64) (s : State) : Pixel := s.cache[slot]

/-- `set(slot, pixel)` (R132). -/
def cacheSet (slot : Fin 64) (p : Pixel) (s : State) : State := { s with cache := s.cache.set slot p }

/-! The decoder's tail of a chunk -/

/-- After a chunk of `len` bytes resolved to `px`: `ip` moves past it, the cache and `prev` are updated (43_decoder.md R180)
and the pixel's first `channels` bytes are written (R181). -/
def resolve (len : Nat) (px : Pixel) (s : State) : State :=
  let s := cacheSet (lookup px) px { s with ip := s.ip + len, prev := px }
  let s := emit (pixelBytes s.channels px) s
  { s with pxPos := s.pxPos + 1 }

/-- The bytes of `k` repeats of a pixel (R177). -/
def repeatBytes (channels : Byte) (p : Pixel) : Nat → List Byte
  | 0 => []
  | k + 1 => pixelBytes channels p ++ repeatBytes channels p k

/-! Unspecified contents -/

/-- `prev`, `run`, `cache`, `px_pos`, `ip`, `op` and `OUT` become unspecified (60_exceptions.md R232, 44_control.md R206, U2):
free values in the registers, no value in `OUT` (logs 4, 16). -/
def freeWorking (s : State) : State :=
  { s with
    prev := Config.freePrev s.freeCount
    run := (Config.freeRun s.freeCount).val
    cache := Config.freeCache s.freeCount
    pxPos := Config.freePxPos s.freeCount
    ip := Config.freeIp s.freeCount
    op := Config.freeOp s.freeCount
    outMem := []
    freeCount := s.freeCount + 1 }

/-- CR0 to CR3 all count as written, or all as never written (log 23). -/
def Written.setDescriptor (b : Bool) (w : Written) : Written :=
  { w with width := b, height := b, channels := b, colorspace := b }

/-- CR0 to CR3 become unspecified (R232, 10_state.md R36, U2; log 4), and so count as never written (log 23). -/
def freeDescriptor (s : State) : State :=
  { s with
    width := Config.freeWidth s.freeCount
    height := Config.freeHeight s.freeCount
    channels := Config.freeChannels s.freeCount
    colorspace := Config.freeColorspace s.freeCount
    written := s.written.setDescriptor false
    freeCount := s.freeCount + 1 }

/-- In a DECODE, CR0 to CR3 are the call's results and become unspecified with it; an ENCODE leaves them. -/
def freeDecodeResult (s : State) : State :=
  match s.mode with
  | .encode => s
  | .decode => freeDescriptor s

/-! Errors, START, ABORT -/

/-- `raise <Error>` (00_scope.md R13, 60_exceptions.md R232): `ERR <- code`, `OUT_LEN <- 0`, `TRAILER_OK <- 0`,
`STATE <- ERROR`. Nothing is saved and control goes nowhere; `OUT`, the working registers and, in a DECODE, CR0 to CR3
are unspecified afterwards. -/
def raise (e : ErrCode) (s : State) : State :=
  { freeDecodeResult (freeWorking s) with
    err := e
    outLen := 0
    trailerOk := false
    callState := .error }

/-- The per-call initialisation of the working registers (70_reset_and_hazards.md R251). -/
def initWorking (s : State) : State :=
  { s with
    prev := Config.prevInit
    run := 0
    cache := Vector.replicate 64 Config.slotInit
    pxPos := 0
    ip := 0
    op := 0 }

/-- What START does, atomically (44_control.md R201, R202, 70_reset_and_hazards.md R251): `STATE <- BUSY`, `ERR`, `OUT_LEN` and
`TRAILER_OK` cleared, the working registers initialised; `OUT` is unspecified until written and, in a DECODE, CR0 to CR3
until the header is parsed (10_state.md R36). -/
def startCall (m : Mode) (s : State) : State :=
  freeDecodeResult
    { initWorking s with
      mode := m
      callState := .busy
      err := .none
      outLen := 0
      trailerOk := false
      outMem := []
      phase := match m with
        | .encode => .check
        | .decode => .header }

/-- The status registers after ABORT (44_control.md R206); the result, if there was one, is dropped with `OUT` (log 16). -/
def clearStatus (s : State) : State :=
  { s with callState := .idle, err := .none, outLen := 0, trailerOk := false, outMem := [] }

/-- ABORT (R206): while BUSY the call is abandoned and its working registers are unspecified; in any other state only the
status registers are cleared (U9; log 8). DESIGN CHOICE (log 25, unsafe): an ABORT while BUSY keeps `IN`, `IN_LEN`,
`CTRL.MODE` and, in an ENCODE, CR0 to CR3. R206 and U2 list what becomes unspecified and name none of them, while D18 says
"everything else unspecified". -/
def abortCall (s : State) : State :=
  match s.callState with
  | .busy => clearStatus (freeDecodeResult (freeWorking s))
  | .idle => clearStatus s
  | .done => clearStatus s
  | .error => clearStatus s

end Sys2Proof.Machine
end

