-- ==== Sys2Proof/Machine/Deltas.lean ====
section
/-! DEFINITION. The luma/delta decompressor of the decoder: DIFF and LUMA (43_decoder.md R175, R176). -/

namespace Sys2Proof.Machine

/-- DIFF (R175): the deltas applied to `prev` modulo 256, alpha unchanged. -/
def execDiff (dr dg db : Int) (s : State) : Result := .next (resolve 1 (movePixel s.prev dr dg db) s)

/-- LUMA (R176): `dr = dr_dg + dg`, `db = db_dg + dg`. -/
def execLuma (dg drDg dbDg : Int) (s : State) : Result :=
  .next (resolve 2 (movePixel s.prev (drDg + dg) dg (dbDg + dg)) s)

end Sys2Proof.Machine
end

