-- ==== Sys2Proof/Machine/Literals.lean ====
section
/-! DEFINITION. The full-pixel chunks of the decoder, RGB and RGBA (43_decoder.md R178, R179). -/

namespace Sys2Proof.Machine

/-- RGB (R178): the payload's r, g, b with `prev`'s alpha. -/
def execRgb (r g b : Byte) (s : State) : Result := .next (resolve 4 ⟨r, g, b, s.prev.a⟩ s)

/-- RGBA (R179): the payload's four channels, also when `CHANNELS` is 3 (R187). -/
def execRgba (r g b a : Byte) (s : State) : Result := .next (resolve 5 ⟨r, g, b, a⟩ s)

end Sys2Proof.Machine
end

