-- ==== Sys2Proof/Machine/Framing.lean ====
section
/-! DEFINITION. The framing unit (40_header_codec.md): the checks, the header out and in, the end marker out, the trailer
check, and the completion of a call (42_encoder.md R158, 43_decoder.md R188). Each definition is one step of
44_control.md R209. -/

namespace Sys2Proof.Machine

/-- ENCODE's precondition check (R111, 60_exceptions.md R230): the descriptor first, then the length. -/
def encodeCheck (s : State) : Result :=
  if validDescriptor s.width s.height s.channels s.colorspace = false then .next (raise .invalidDescriptor s)
  else if rawLen s ≠ s.inLen.toNat then .next (raise .dataLengthMismatch s)
  else .next { s with phase := .header }

/-- ENCODE's initialisation and header (42_encoder.md R140 (2) and (3), R112). -/
def encodeHeader (s : State) : Result :=
  .next { emit (headerBytes s.config.magic s.width s.height s.channels s.colorspace) (initWorking s) with phase := .loop }

/-- The whole 14-byte header as `decodeHeader` reads it. -/
structure Header where
  magic : List Byte
  width : BitVec 32
  height : BitVec 32
  channels : Byte
  colorspace : Byte
deriving DecidableEq, Repr

/-- The fields of 14 header bytes (30_encoding.md R92, 40_header_codec.md R114). -/
def parseHeader : List Byte → Option Header
  | [m0, m1, m2, m3, w0, w1, w2, w3, h0, h1, h2, h3, c, cs] =>
    some ⟨[m0, m1, m2, m3], fromBE32 w0 w1 w2 w3, fromBE32 h0 h1 h2 h3, c, cs⟩
  | _ => none

/-- `decodeHeader` on a parsed header, first failing test wins (R113, R114, 60_exceptions.md R231 tests 2 to 5). A parsed
descriptor counts as written (10_state.md R36; log 23). -/
def acceptHeader (h : Header) (s : State) : State :=
  if h.magic ≠ s.config.magic.toList then raise .malformedHeader s
  else if h.width = 0#32 ∨ h.height = 0#32 then raise .invalidDescriptor s
  else if h.channels ≠ 3#8 ∧ h.channels ≠ 4#8 then raise .unsupportedChannelCount s
  else if h.colorspace ≠ 0#8 ∧ h.colorspace ≠ 1#8 then raise .unsupportedColorspace s
  else
    { s with
      width := h.width
      height := h.height
      channels := h.channels
      colorspace := h.colorspace
      written := s.written.setDescriptor true
      ip := Config.hdrLen
      phase := .check }

/-- DECODE's header step (R113, R114, 43_decoder.md R170). -/
def decodeHeader (s : State) : Result :=
  if s.inLen.toNat < Config.hdrLen then .next (raise .malformedHeader s)
  else
    match memReadN s.inMem 0 Config.hdrLen with
    | none => .fault .unwrittenInput
    | some bytes =>
      match parseHeader bytes with
      | none => .next (raise .malformedHeader s)
      | some h => .next (acceptHeader h s)

/-- DECODE's output-size check, strict, and the initialisation after it (R115, 43_decoder.md R171). `ip` stays where the header
left it. -/
def decodeCheck (s : State) : Result :=
  if rawLen s > s.config.maxOutBytes then .next (raise .invalidDescriptor s)
  else .next { initWorking s with ip := s.ip, phase := .loop }

/-- The trailer test (R117): the eight bytes at `ip` exist and are the end marker. None if one of them was never written. -/
def trailerTest (s : State) : Option Bool :=
  if s.ip + Config.endLen ≤ s.inLen.toNat then
    match memReadN s.inMem s.ip Config.endLen with
    | none => none
    | some bytes => some (decide (bytes = Config.endMarker))
  else some false

/-- Completion of a DECODE with the output full (R117, 43_decoder.md R188). -/
def decodeClose (s : State) : Result :=
  match trailerTest s with
  | none => .fault .unwrittenInput
  | some ok => .next { s with trailerOk := ok, outLen := s.op, callState := .done }

/-- Completion of an ENCODE: the closing flush (dead, 42_encoder.md R155, C9), the end marker (R116) and `OUT_LEN` (R158). -/
def encodeClose (s : State) : Result :=
  let s := if s.run > 0 then { emit (encode (.run s.run)) s with run := 0 } else s
  let s := emit (encode .endMarker) s
  .next { s with outLen := s.op, callState := .done }

end Sys2Proof.Machine
end

