-- ==== Sys2Proof/Machine/Repeats.lean ====
section
/-! DEFINITION. The chunks of the decoder that repeat a pixel already seen: INDEX and RUN (43_decoder.md R174, R177). -/

namespace Sys2Proof.Machine

/-- What an INDEX chunk does to the state (R174): the slot comes from the chunk, the slot written from the hash. -/
def indexChunk (slot : Fin 64) (s : State) : State := resolve 1 (cacheGet slot s) s

/-- INDEX (R174). -/
def execIndex (slot : Fin 64) (s : State) : Result := .next (indexChunk slot s)

/-- `k`, the repeat count clipped at the end of the image (R177). -/
def clippedCount (count : Nat) (s : State) : Nat := min count (pixelCount s - s.pxPos)

/-- RUN (R177): `prev` is written `k` times; `prev` and the cache are unchanged. -/
def execRun (count : Nat) (s : State) : Result :=
  let k := clippedCount count s
  let s := emit (repeatBytes s.channels s.prev k) s
  .next { s with pxPos := s.pxPos + k, ip := s.ip + 1 }

end Sys2Proof.Machine
end

