-- ==== Sys2Proof/Machine/Marker.lean ====
section
/-! DEFINITION. The end marker as the decoder meets it, the row END (43_decoder.md R183). -/

namespace Sys2Proof.Machine

/-- END. While pixels are owed and `END_MARKER_DETECT` is set, recognising the marker is the TruncatedStream error (R183); without
`END_MARKER_DETECT` its first byte runs as `INDEX{0}`, and the bytes after it are met by the following steps
(30_encoding.md R95); once the output is full it is the trailer and the call completes (40_header_codec.md R117)
(log 15). -/
def execEnd (s : State) : Result :=
  if owed s then
    if s.config.endMarkerDetect then .next (raise .truncatedStream s)
    else .next (indexChunk 0 s)
  else decodeClose s

end Sys2Proof.Machine
end

