-- ==== Sys2Proof/Machine/Encoder.lean ====
section
/-! DEFINITION. The encoder's pixel step (42_encoder.md R141 to R154): the run-length encoder, the choice of a chunk and its
serialisation. -/

namespace Sys2Proof.Machine

/-- Pixel fetch (R141); none if a byte of the pixel was never written. -/
def fetchPixel (s : State) : Option Pixel :=
  match memReadN s.inMem (s.pxPos * s.channels.toNat) (pixelSize s.channels) with
  | none => none
  | some bytes => pixelOfBytes bytes

/-- Flush the pending run (R143, R144, R145). -/
def flushRun (s : State) : State := { emit (encode (.run s.run)) s with run := 0 }

/-- `px_pos <- px_pos + 1` (R142, R154); in the encoder `ip = px_pos * channels` always (10_state.md R23). -/
def advance (s : State) : State := { s with pxPos := s.pxPos + 1, ip := (s.pxPos + 1) * s.channels.toNat }

/-- The run-length encoder takes the pixel (R142) and flushes at 62 or at the final pixel (R143). -/
def joinRun (s : State) : State :=
  let s := { s with run := s.run + 1 }
  let s := if s.run = Config.runMax ∨ s.pxPos + 1 = pixelCount s then flushRun s else s
  advance s

/-- The chunk of a pixel that missed the cache: DIFF, LUMA, RGB or RGBA, first match wins (R149 to R153). -/
def missChunk (px prev : Pixel) : Instr :=
  if alphaSame px prev then
    if diffOk px prev then .diff (deltaR px prev) (deltaG px prev) (deltaB px prev)
    else if lumaOk px prev then
      .luma (deltaG px prev) (deltaR px prev - deltaG px prev) (deltaB px prev - deltaG px prev)
    else .rgb px.r px.g px.b
  else .rgba px.r px.g px.b px.a

/-- The chunk encoder (R146 to R152): INDEX on a hit, else the cache is set first and the chunk chosen after. -/
def emitPixel (px : Pixel) (s : State) : State :=
  if hit px s.cache then emit (encode (.index (lookup px))) s
  else emit (encode (missChunk px s.prev)) (cacheSet (lookup px) px s)

/-- A pixel that breaks the run: flush it first (R144), emit the pixel's chunk, then update `prev` (R154). -/
def breakRun (px : Pixel) (s : State) : State :=
  let s := if s.run > 0 then flushRun s else s
  let s := emitPixel px s
  advance { s with prev := px }

/-- One iteration of the pixel loop (R156). -/
def encodePixel (s : State) : Result :=
  match fetchPixel s with
  | none => .fault .unwrittenInput
  | some px => if same px s.prev then .next (joinRun s) else .next (breakRun px s)

end Sys2Proof.Machine
end

