-- ==== Sys2Proof/Machine/HostPort.lean ====
section
/-! DEFINITION. The host's moves (44_control.md R200 to R206) with their access windows (20_memory.md R64). -/

namespace Sys2Proof.Machine

/-- `STATE = BUSY`. -/
def isBusy (s : State) : Bool := decide (s.callState = .busy)

/-- The host writes an input (R64): only while not BUSY. -/
def hostWrite (s' : State) (s : State) : Result :=
  if isBusy s then .refused .hostWriteWhileBusy else .next s'

/-- Whether the inputs of a call have been written (70_reset_and_hazards.md R252 steps 1 to 3, U6; log 23): `IN_LEN`, every byte
of `IN` below it and, in an ENCODE, CR0 to CR3. -/
def inputsWritten (m : Mode) (s : State) : Bool :=
  s.written.inLen && memFilled s.inMem 0 s.inLen.toNat &&
    match m with
    | .encode => s.written.width && s.written.height && s.written.channels && s.written.colorspace
    | .decode => true

/-- A write of `CTRL` (10_state.md R31): with `START = 1` it starts a call unless BUSY, where it is ignored (U8); a launch over
overlapping buffers (20_memory.md R63) or over inputs never written (U6) is refused. With `START = 0` it sets `MODE`
(log 8), which R64 forbids while BUSY. -/
def hostWriteCtrl (v : BitVec 2) (s : State) : Result :=
  if ctrlStart v then
    if isBusy s then .next s
    else if s.overlap then .refused .overlappingBuffers
    else if inputsWritten (ctrlMode v) s then .next (startCall (ctrlMode v) s)
    else .refused .inputsNeverWritten
  else hostWrite { s with mode := ctrlMode v } s

/-- A write of `ABORT` (44_control.md R206): 1 abandons the call, 0 does nothing (log 8). -/
def hostWriteAbort (v : BitVec 1) (s : State) : Result :=
  if v = 1#1 then .next (abortCall s) else .next s

/-- What a register reads as (10_state.md R26 to R33). -/
def readValue (r : ReadReg) (s : State) : Nat :=
  match r with
  | .width => s.width.toNat
  | .height => s.height.toNat
  | .channels => s.channels.toNat
  | .colorspace => s.colorspace.toNat
  | .inLen => s.inLen.toNat
  | .outLen => s.outLen
  | .ctrl => (ctrlWord s).toNat
  | .status => (statusWord s).toNat
  | .err => (errWord s.err).toNat

/-- What the host may read while BUSY (R64, 92_eei_decisions.md D19, log 7): `STATUS` and nothing else. -/
def readableWhileBusy (r : ReadReg) : Bool := decide (r = .status)

/-- A read of the host that returns `n`, never while BUSY. -/
def hostRead (n : Nat) (s : State) : Result :=
  if isBusy s then .refused .hostReadWhileBusy else .next { s with hostData := n }

/-- The host reads a register. -/
def hostReadReg (r : ReadReg) (s : State) : Result :=
  if readableWhileBusy r then .next { s with hostData := readValue r s } else hostRead (readValue r s) s

/-- The host reads a byte of a buffer (R64); one that nothing has written is the given fault (10_state.md R36). -/
def hostReadByte (m : Memory) (missing : Fault) (a : Nat) (s : State) : Result :=
  match memRead m a with
  | none => if isBusy s then .refused .hostReadWhileBusy else .fault missing
  | some b => hostRead b.toNat s

/-- The host reads a byte of `IN`. -/
def hostReadIn (a : Nat) (s : State) : Result := hostReadByte s.inMem .unwrittenInput a s

/-- The host reads a byte of `OUT`. -/
def hostReadOut (a : Nat) (s : State) : Result := hostReadByte s.outMem .unwrittenOutput a s

end Sys2Proof.Machine
end

