-- ==== Sys2Proof/Machine/Engine.lean ====
section
/-! DEFINITION. The engine's step: fetching a chunk (43_decoder.md R172, R173, R183) and the sequencing of a call
(42_encoder.md R156, 43_decoder.md R186, 44_control.md R209); and one move of the host. -/

namespace Sys2Proof.Machine

/-- The bytes of `IN` that one iteration reads at `ip`: the 8-byte look-ahead when `END_MARKER_DETECT` and it is there (R183), else
the tag byte (R172) and as much of its payload as `IN_LEN` leaves (R173). None if one of them was never written. -/
def fetchBytes (s : State) : Option (List Byte) :=
  let left := s.inLen.toNat - s.ip
  if s.config.endMarkerDetect = true ∧ Config.endLen ≤ left then memReadN s.inMem s.ip Config.endLen
  else if left = 0 then some []
  else
    match memRead s.inMem s.ip with
    | none => none
    | some b0 => memReadN s.inMem s.ip (min left (1 + payloadLen b0))

/-- One iteration of the chunk loop (R186): no chunk to be had is TruncatedStream (R185). -/
def decodeStep (s : State) : Result :=
  match fetchBytes s with
  | none => .fault .unwrittenInput
  | some bytes =>
    match decode s.config.endMarkerDetect bytes with
    | .ok (i, _) => exec i s
    | .error _ => .next (raise .truncatedStream s)

/-- A step of a running ENCODE (42_encoder.md R156). -/
def encodeCall (s : State) : Result :=
  match s.phase with
  | .check => encodeCheck s
  | .header => encodeHeader s
  | .loop => if owed s then encodePixel s else encodeClose s

/-- A step of a running DECODE (43_decoder.md R186). -/
def decodeCall (s : State) : Result :=
  match s.phase with
  | .header => decodeHeader s
  | .check => decodeCheck s
  | .loop => if owed s then decodeStep s else decodeClose s

/-- One step of the engine. With no call running it takes no step (60_exceptions.md R232, R233) and the machine stays as it is
(log 12). -/
def engineStep (s : State) : Result :=
  match s.callState with
  | .idle => .next s
  | .busy =>
    match s.mode with
    | .encode => encodeCall s
    | .decode => decodeCall s
  | .done => .next s
  | .error => .next s

/-- One move of the host, already taken from the list. A write of CR0 to CR4 is recorded (log 23). -/
def hostMove (m : HostMove) (s : State) : Result :=
  match m with
  | .letRun => engineStep s
  | .await => if isBusy s then engineStep { s with host := .await :: s.host } else .next s
  | .writeWidth v => hostWrite { s with width := v, written := { s.written with width := true } } s
  | .writeHeight v => hostWrite { s with height := v, written := { s.written with height := true } } s
  | .writeChannels v => hostWrite { s with channels := v, written := { s.written with channels := true } } s
  | .writeColorspace v => hostWrite { s with colorspace := v, written := { s.written with colorspace := true } } s
  | .writeInLen v => hostWrite { s with inLen := v, written := { s.written with inLen := true } } s
  | .writeCtrl v => hostWriteCtrl v s
  | .writeAbort v => hostWriteAbort v s
  | .writeIn a b => hostWrite { s with inMem := memWrite s.inMem a b } s
  | .place o => hostWrite { s with overlap := o } s
  | .readReg r => hostReadReg r s
  | .readIn a => hostReadIn a s
  | .readOut a => hostReadOut a s

/-- One step of the machine: the host's next move if it has one, else the engine. -/
def machineStep (s : State) : Result :=
  match s.host with
  | [] => engineStep s
  | m :: rest => hostMove m { s with host := rest }

/-- A state whose next step runs the item the bytes hold: a DECODE in its chunk loop, with a 64 x 1 RGBA header already parsed, no
pixel written yet, `ip` after the header, the bytes at `ip` and nothing after them, and no move of the host pending. -/
def withFetchBytes (s : State) (bytes : List Byte) : State :=
  { s with
    host := []
    callState := .busy
    mode := .decode
    phase := .loop
    width := 64#32
    height := 1#32
    channels := 4#8
    colorspace := 0#8
    pxPos := 0
    op := 0
    ip := Config.hdrLen
    inLen := BitVec.ofNat 64 (Config.hdrLen + bytes.length)
    inMem := memWriteList s.inMem Config.hdrLen bytes }

end Sys2Proof.Machine
end

