-- ==== Sys2Proof/Machine/Step.lean ====
section
/-! DEFINITION. The step function under its fixed name, and the state that fetches a given word. -/

namespace Sys2Proof.Machine

/-- One step: `machineStep`. -/
def step (s : State) : Host.Outcome State Fault Refusal := machineStep s

/-- The machine about to run a table row's word: `withFetchBytes` of its 8 bytes (log 13). -/
def State.withFetchWord (s : State) (nbits w : Nat) : State := withFetchBytes s (tableBytes nbits w)

end Sys2Proof.Machine
end

