-- ==== Sys2Proof/Safety.lean ====
section
/-! DEFINITION. The vocabulary the statements are written in: reading one byte, what an operation leaves alone, the shape of an
error entry, and the invariant of the machine. -/

namespace Sys2Proof.Machine

/-- One byte of `IN`. -/
def inByte (s : State) (a : Nat) : Option Byte := memRead s.inMem a

/-- One byte of `OUT`. -/
def outByte (s : State) (a : Nat) : Option Byte := memRead s.outMem a

/-- `OUT` of `t` is `OUT` of `s` with `bytes` stored from address `base` on, and every other byte as before. -/
def Stored (s t : State) (base : Nat) (bytes : List Byte) : Prop :=
  ∀ a, outByte t a = if base ≤ a ∧ a < base + bytes.length then bytes[a - base]? else outByte s a

/-- The registers no chunk and no pixel writes: the parameters, CR0 to CR8, `IN`, and the model's own fields. -/
structure SameControl (s t : State) : Prop where
  config : t.config = s.config
  width : t.width = s.width
  height : t.height = s.height
  channels : t.channels = s.channels
  colorspace : t.colorspace = s.colorspace
  inLen : t.inLen = s.inLen
  outLen : t.outLen = s.outLen
  mode : t.mode = s.mode
  callState : t.callState = s.callState
  trailerOk : t.trailerOk = s.trailerOk
  err : t.err = s.err
  inMem : t.inMem = s.inMem
  phase : t.phase = s.phase
  written : t.written = s.written
  overlap : t.overlap = s.overlap
  host : t.host = s.host
  hostData : t.hostData = s.hostData
  freeCount : t.freeCount = s.freeCount

/-- What a decoded chunk of `len` bytes that resolves to `px` does, and all it does (43_decoder.md R180, R181): `ip` moves past
it, the slot the hash names and `prev` take `px`, its first `CHANNELS` bytes are appended to `OUT` and counted. -/
structure Resolves (s t : State) (px : Pixel) (len : Nat) : Prop where
  ip : t.ip = s.ip + len
  prev : t.prev = px
  written : t.cache[lookup px] = px
  others : ∀ slot : Fin 64, slot ≠ lookup px → t.cache[slot] = s.cache[slot]
  pxPos : t.pxPos = s.pxPos + 1
  op : t.op = s.op + (if s.channels = 4#8 then 4 else 3)
  out : Stored s t s.op (if s.channels = 4#8 then [px.r, px.g, px.b, px.a] else [px.r, px.g, px.b])
  run : t.run = s.run
  control : SameControl s t

/-- What taking error `e` leaves (60_exceptions.md R232): the status registers are fixed and what is not the call's own is
untouched. Nothing is said of `OUT` and of the working registers, nor in a DECODE of CR0 to CR3 and of
whether they count as written. -/
structure ErrorEntered (e : ErrCode) (s t : State) : Prop where
  callState : t.callState = .error
  err : t.err = e
  outLen : t.outLen = 0
  trailerOk : t.trailerOk = false
  descriptor : s.mode = .encode →
    t.width = s.width ∧ t.height = s.height ∧ t.channels = s.channels ∧ t.colorspace = s.colorspace
  written : s.mode = .encode → t.written = s.written
  lenWritten : t.written.inLen = s.written.inLen
  config : t.config = s.config
  inLen : t.inLen = s.inLen
  inMem : t.inMem = s.inMem
  mode : t.mode = s.mode
  overlap : t.overlap = s.overlap
  host : t.host = s.host
  hostData : t.hostData = s.hostData

/-- `valid(WIDTH, HEIGHT, CHANNELS, COLORSPACE)` (40_header_codec.md R110). -/
abbrev descriptorOk (s : State) : Prop := validDescriptor s.width s.height s.channels s.colorspace = true

/-- The engine is about to take a step of a call: BUSY in the given direction and phase, no move of the host pending. -/
structure Running (m : Mode) (p : Phase) (s : State) : Prop where
  busy : s.callState = .busy
  mode : s.mode = m
  phase : s.phase = p
  host : s.host = []

/-- The host filled all of `IN` (70_reset_and_hazards.md R252). -/
def InputFilled (s : State) : Prop := ∀ a, a < s.inLen.toNat → (inByte s a).isSome = true

/-- "every slot `s` holds either `(0,0,0,0)` or a pixel `q` with `lookup(q) = s`" (41_index_cache.md R132). -/
def CacheOk (s : State) : Prop := ∀ slot : Fin 64, s.cache[slot] = Config.slotInit ∨ lookup s.cache[slot] = slot

/-- `OUT` is listed at exactly the addresses `0 .. op - 1` (20_memory.md R61 (a)). -/
def OutDense (s : State) : Prop := ∀ a, (outByte s a).isSome = decide (a < s.op)

/-- In a 3-channel ENCODE every pixel that was met has alpha 255 (42_encoder.md R141, 43_decoder.md R187). -/
def AlphaFixed (s : State) : Prop :=
  s.channels = 3#8 → s.prev.a = 255#8 ∧ ∀ slot : Fin 64, s.cache[slot] = Config.slotInit ∨ s.cache[slot].a = 255#8

/-- The invariant of a running ENCODE between pixels. -/
structure EncodeLoopInv (s : State) : Prop where
  descriptor : descriptorOk s
  inLen : s.inLen.toNat = rawLen s
  cursor : s.pxPos ≤ pixelCount s
  ip : s.ip = s.pxPos * s.channels.toNat
  /-- `run` is in 0..61 between steps (10_state.md R21). -/
  run : s.run ≤ 61
  /-- The closing flush is dead (42_encoder.md R155, C9). -/
  flushed : s.pxPos = pixelCount s → s.run = 0
  alpha : AlphaFixed s
  out : OutDense s
  /-- R160, for the pixels met so far. -/
  upper : s.op + (if s.run = 0 then 0 else 1) ≤ Config.hdrLen + s.pxPos * (s.channels.toNat + 1)
  lower : Config.hdrLen ≤ s.op ∧ s.pxPos ≤ 62 * (s.op - Config.hdrLen) + s.run

/-- The invariant of a running DECODE between chunks. -/
structure DecodeLoopInv (s : State) : Prop where
  descriptor : descriptorOk s
  size : rawLen s ≤ s.config.maxOutBytes
  cursor : s.pxPos ≤ pixelCount s
  /-- `op = px_pos * channels` (10_state.md R24). -/
  op : s.op = s.pxPos * s.channels.toNat
  /-- `ip` never passes `IN_LEN` (10_state.md R23). -/
  ip : Config.hdrLen ≤ s.ip ∧ s.ip ≤ s.inLen.toNat
  out : OutDense s

/-- The invariant of a running call in the given direction and phase. -/
def CallInvAt (m : Mode) (p : Phase) (s : State) : Prop :=
  match m, p with
  | .encode, .check => s.outMem = []
  | .encode, .header => s.outMem = [] ∧ descriptorOk s ∧ s.inLen.toNat = rawLen s
  | .encode, .loop => EncodeLoopInv s
  | .decode, .header => s.outMem = []
  | .decode, .check =>
    s.outMem = [] ∧ descriptorOk s ∧ s.ip = Config.hdrLen ∧ Config.hdrLen ≤ s.inLen.toNat
  | .decode, .loop => DecodeLoopInv s

/-- The invariant of the running call. -/
def CallInv (s : State) : Prop := CallInvAt s.mode s.phase s

/-- The invariant of the machine. -/
structure Invariant (s : State) : Prop where
  inMem : Memory.wf s.inMem = true
  outMem : Memory.wf s.outMem = true
  /-- "`ERR != 0` exactly when `STATE = ERROR`" (10_state.md R33). -/
  err : s.err ≠ .none ↔ s.callState = .error
  /-- `OUT_LEN` is 0 unless `STATE = DONE` (10_state.md R30). -/
  outLen : s.callState ≠ .done → s.outLen = 0
  /-- `TRAILER_OK` is 0 in every state but DONE (10_state.md R32). -/
  trailerOk : s.callState ≠ .done → s.trailerOk = false
  /-- The result of a finished call is there to be read (44_control.md R204). -/
  result : s.callState = .done → ∀ a, a < s.outLen → (outByte s a).isSome = true
  /-- No call runs over overlapping buffers (20_memory.md R63). -/
  apart : s.callState = .busy → s.overlap = false
  /-- No call runs over bytes of `IN` that were never written (70_reset_and_hazards.md R252, U6). -/
  input : s.callState = .busy → InputFilled s
  cache : s.callState = .busy → CacheOk s
  call : s.callState = .busy → CallInv s

/-- `k` steps, stopping at the first fault or refusal. -/
def steps : Nat → State → Result
  | 0, s => .next s
  | k + 1, s =>
    match step s with
    | .next t => steps k t
    | .fault f => .fault f
    | .refused r => .refused r

/-- `IN` holds the bytes from address `base` on. -/
def InHolds (s : State) (base : Nat) (bytes : List Byte) : Prop :=
  ∀ j, j < bytes.length → inByte s (base + j) = bytes[j]?

/-- `px` is pixel `px_pos` of the raw image (42_encoder.md R141): with 3 channels its `a` is 255. -/
def PixelAtCursor (s : State) (px : Pixel) : Prop :=
  (s.channels = 4#8 ∧ InHolds s (s.pxPos * 4) [px.r, px.g, px.b, px.a]) ∨
    (s.channels = 3#8 ∧ InHolds s (s.pxPos * 3) [px.r, px.g, px.b] ∧ px.a = 255#8)

/-- `d` is `new - old` modulo 256, read as a signed byte (42_encoder.md R148). -/
def IsDelta (new old : Byte) (d : Int) : Prop :=
  -128 ≤ d ∧ d ≤ 127 ∧ ((new.toNat : Int) - (old.toNat : Int) - d) % 256 = 0

/-- The three deltas of the current pixel against `prev`. -/
def AreDeltas (px prev : Pixel) (dr dg db : Int) : Prop :=
  IsDelta px.r prev.r dr ∧ IsDelta px.g prev.g dg ∧ IsDelta px.b prev.b db

/-- `diff_ok` (10_state.md R34). -/
def FitsDiff (dr dg db : Int) : Prop := (-2 ≤ dr ∧ dr ≤ 1) ∧ (-2 ≤ dg ∧ dg ≤ 1) ∧ (-2 ≤ db ∧ db ≤ 1)

/-- `luma_ok` (10_state.md R34). -/
def FitsLuma (dr dg db : Int) : Prop :=
  (-32 ≤ dg ∧ dg ≤ 31) ∧ (-8 ≤ dr - dg ∧ dr - dg ≤ 7) ∧ (-8 ≤ db - dg ∧ db - dg ≤ 7)

/-- The bytes of the pending run, if there is one (42_encoder.md R144, R145). -/
def pendingRun (s : State) : List Byte := if s.run = 0 then [] else [BitVec.ofNat 8 (0xC0 + (s.run - 1))]

/-- What the encoder does, and all it does, with a pixel that breaks the run (42_encoder.md R144, R154): the pending run and then
the pixel's chunk are appended to `OUT`, `prev` becomes the pixel. Nothing is said of the cache. -/
structure PixelEncoded (s t : State) (px : Pixel) (chunk : List Byte) : Prop where
  prev : t.prev = px
  run : t.run = 0
  pxPos : t.pxPos = s.pxPos + 1
  ip : t.ip = (s.pxPos + 1) * s.channels.toNat
  op : t.op = s.op + (pendingRun s).length + chunk.length
  out : Stored s t s.op (pendingRun s ++ chunk)
  control : SameControl s t

/-- The cache after a miss (42_encoder.md R147): the pixel's slot holds it, the other 63 are unchanged. -/
def CachedOnMiss (s t : State) (px : Pixel) : Prop :=
  t.cache[lookup px] = px ∧ ∀ slot : Fin 64, slot ≠ lookup px → t.cache[slot] = s.cache[slot]

/-- The encoder is about to take pixel `px`, which differs from `prev` (42_encoder.md R141, R142). -/
structure EncodingPixel (s : State) (px : Pixel) : Prop where
  running : Running .encode .loop s
  owed : s.pxPos < pixelCount s
  pixel : PixelAtCursor s px
  breaks : px ≠ s.prev

/-- The decoder is about to read a chunk (43_decoder.md R182). -/
structure DecodingChunk (s : State) : Prop where
  running : Running .decode .loop s
  owed : s.pxPos < pixelCount s

/-- The end marker stands at `ip`, and is looked for there (43_decoder.md R183). -/
def MarkerDetected (s : State) : Prop :=
  s.config.endMarkerDetect = true ∧ s.ip + 8 ≤ s.inLen.toNat ∧ InHolds s s.ip Config.endMarker

end Sys2Proof.Machine
end

