-- ==== Sys2Proof/Certificates/Slice0/Obligations.lean ====
section
/-! DEFINITION. The statements for the provers, from the spec's numbered rules. -/

open Sys2Proof Sys2Proof.Machine

/-! ## The decoder's chunks -/

/-- INDEX (43_decoder.md R174, with R180 and R181): it completes in every state and resolves to the slot's pixel. -/
def Obligations.IndexChunkResolves : Prop :=
  ∀ (slot : Fin 64) (s : State), ∃ t, exec (.index slot) s = .next t ∧ Resolves s t s.cache[slot] 1

/-- DIFF (R175): `u8(prev.c + dc)` for r, g, b, alpha unchanged. -/
def Obligations.DiffChunkResolves : Prop :=
  ∀ (dr dg db : Int) (s : State), ∃ t px, exec (.diff dr dg db) s = .next t ∧ Resolves s t px 1 ∧
    (px.r.toNat : Int) = (s.prev.r.toNat + dr) % 256 ∧ (px.g.toNat : Int) = (s.prev.g.toNat + dg) % 256 ∧
    (px.b.toNat : Int) = (s.prev.b.toNat + db) % 256 ∧ px.a = s.prev.a

/-- LUMA (R176): `dr = dr_dg + dg`, `db = db_dg + dg`, applied to `prev` modulo 256, alpha unchanged. -/
def Obligations.LumaChunkResolves : Prop :=
  ∀ (dg drDg dbDg : Int) (s : State), ∃ t px, exec (.luma dg drDg dbDg) s = .next t ∧ Resolves s t px 2 ∧
    (px.r.toNat : Int) = (s.prev.r.toNat + (drDg + dg)) % 256 ∧ (px.g.toNat : Int) = (s.prev.g.toNat + dg) % 256 ∧
    (px.b.toNat : Int) = (s.prev.b.toNat + (dbDg + dg)) % 256 ∧ px.a = s.prev.a

/-- RGB (R178): the payload's r, g, b with `prev`'s alpha. -/
def Obligations.RgbChunkResolves : Prop :=
  ∀ (r g b : Byte) (s : State), ∃ t, exec (.rgb r g b) s = .next t ∧ Resolves s t ⟨r, g, b, s.prev.a⟩ 4

/-- RGBA (R179): the full pixel, also when `CHANNELS` is 3. -/
def Obligations.RgbaChunkResolves : Prop :=
  ∀ (r g b a : Byte) (s : State), ∃ t, exec (.rgba r g b a) s = .next t ∧ Resolves s t ⟨r, g, b, a⟩ 5

/-- RUN (R177): `prev` is written `min(count, N - px_pos)` times, `prev` and the cache are unchanged. -/
def Obligations.RunChunkRepeatsPrev : Prop :=
  ∀ (count : Nat) (s : State), ∃ t k, exec (.run count) s = .next t ∧ k = min count (pixelCount s - s.pxPos) ∧
    t.prev = s.prev ∧ t.cache = s.cache ∧ t.run = s.run ∧ t.pxPos = s.pxPos + k ∧ t.ip = s.ip + 1 ∧
    t.op = s.op + k * (if s.channels = 4#8 then 4 else 3) ∧
    Stored s t s.op
      (List.replicate k
        (if s.channels = 4#8 then [s.prev.r, s.prev.g, s.prev.b, s.prev.a] else [s.prev.r, s.prev.g, s.prev.b])).flatten ∧
    SameControl s t

/-- END (R183): met while pixels are owed, with `END_MARKER_DETECT`, it is the TruncatedStream error. -/
def Obligations.EndWhileOwedIsTruncatedStream : Prop :=
  ∀ s : State, s.pxPos < pixelCount s → s.config.endMarkerDetect = true →
    ∃ t, exec .endMarker s = .next t ∧ ErrorEntered .truncatedStream s t

/-- END without `END_MARKER_DETECT` while pixels are owed runs as `INDEX{0}` (R183 "executed as INDEX{0} seven times and
INDEX{1}"); that `exec` of the row END is then its first chunk is the model's choice (log 15). -/
def Obligations.EndUndetectedRunsAsIndex : Prop :=
  ∀ s : State, s.pxPos < pixelCount s → s.config.endMarkerDetect = false →
    ∃ t, exec .endMarker s = .next t ∧ Resolves s t s.cache[(0 : Fin 64)] 1

/-- END with the output full is the trailer (40_header_codec.md R117): the call completes with `TRAILER_OK` set. That `exec` of
the row END is then the completion of R188 is the model's choice (log 15), and so is that `prev`, `run`, the cache and the
cursors keep their values once STATE is DONE (log 5; 44_control.md R204 leaves them open). -/
def Obligations.EndWhenFullIsTheTrailer : Prop :=
  ∀ s : State, s.pxPos = pixelCount s → s.ip + 8 ≤ s.inLen.toNat → InHolds s s.ip Config.endMarker →
    ∃ t, exec .endMarker s = .next t ∧ t.callState = .done ∧ t.outLen = s.op ∧ t.trailerOk = true ∧
      t.prev = s.prev ∧ t.cache = s.cache ∧ t.run = s.run ∧ t.pxPos = s.pxPos ∧ t.ip = s.ip ∧ t.op = s.op ∧
      (∀ a, outByte t a = outByte s a) ∧
      SameControl s { t with callState := s.callState, outLen := s.outLen, trailerOk := s.trailerOk }

/-! ## Fetching -/

/-- Where the bytes at `ip` are the encoding of a well-formed chunk and no detected end marker, a step of the machine is `exec` of
that chunk, and nothing else (43_decoder.md R172, R173); where a detected end marker stands there, it is `exec` of END
(R183). The same where the host's next move lets the engine run (log 6). -/
def Obligations.StepRunsTheDecodedChunk : Prop :=
  ∀ s : State, DecodingChunk s →
    (∀ i : Instr, i.WellFormed → i ≠ .endMarker → InHolds s s.ip (encode i) →
      s.ip + (encode i).length ≤ s.inLen.toNat →
      (s.config.endMarkerDetect = true → s.ip + 8 ≤ s.inLen.toNat →
        ∃ w : List Byte, w.length = 8 ∧ InHolds s s.ip w ∧ w ≠ Config.endMarker) →
      step s = exec i s ∧ ∀ rest, step { s with host := .letRun :: rest } = exec i { s with host := rest }) ∧
    (MarkerDetected s →
      step s = exec .endMarker s ∧
        ∀ rest, step { s with host := .letRun :: rest } = exec .endMarker { s with host := rest })

/-- TruncatedStream is entered exactly in the three places of R185: no tag byte, payload short, end marker recognised early; and
then the call ends with no output. -/
def Obligations.TruncatedStreamExactly : Prop :=
  ∀ (s t : State), DecodingChunk s → s.err = .none → s.ip ≤ s.inLen.toNat → step s = .next t →
    (t.err = .truncatedStream ↔
      s.ip = s.inLen.toNat ∨
      (∃ b0, inByte s s.ip = some b0 ∧ s.inLen.toNat < s.ip + 1 + payloadLen b0) ∨
      MarkerDetected s) ∧
    (t.err = .truncatedStream → ErrorEntered .truncatedStream s t)

/-! ## Encodings -/

/-- Every well-formed chunk, with every operand at every value, decodes from its encoding, whatever bytes follow, unless they make
it the start of a detected end marker (30_encoding.md R82 to R88). -/
def Obligations.DecodeOfEncodeIsTheChunk : Prop :=
  ∀ (i : Instr) (detect : Bool) (rest : List Byte), i.WellFormed →
    (i ≠ .endMarker → ¬ (detect = true ∧ (encode i ++ rest).take 8 = Config.endMarker) →
      decode detect (encode i ++ rest) = .ok (i, rest)) ∧
    decode true (encode .endMarker ++ rest) = .ok (.endMarker, rest)

/-- The decoder only yields well-formed chunks, and only from the bytes that encode them: each byte list has one reading. -/
def Obligations.DecodedBytesAreTheEncoding : Prop :=
  ∀ (detect : Bool) (bytes rest : List Byte) (i : Instr), decode detect bytes = .ok (i, rest) →
    i.WellFormed ∧ bytes = encode i ++ rest ∧ (i = .endMarker → detect = true)

/-- The first-byte map (30_encoding.md R89): every first byte with its payload is a chunk of the kind and operand the map gives. -/
def Obligations.EveryFirstByteStartsItsChunk : Prop :=
  ∀ (b0 : Byte) (payload rest : List Byte), payload.length = payloadLen b0 →
    ∃ i, decodeChunk (b0 :: payload ++ rest) = .ok (i, rest) ∧
      (b0.toNat < 0x40 → payload = [] ∧ ∃ slot : Fin 64, i = .index slot ∧ slot.val = b0.toNat) ∧
      (0x40 ≤ b0.toNat → b0.toNat < 0x80 → payload = [] ∧ ∃ dr dg db : Int, i = .diff dr dg db ∧
        (b0.toNat : Int) = 0x40 + (dr + 2) * 16 + (dg + 2) * 4 + (db + 2) ∧ i.WellFormed) ∧
      (0x80 ≤ b0.toNat → b0.toNat < 0xC0 → ∃ (b1 : Byte) (dg drDg dbDg : Int), payload = [b1] ∧
        i = .luma dg drDg dbDg ∧ (b0.toNat : Int) = 0x80 + (dg + 32) ∧
        (b1.toNat : Int) = (drDg + 8) * 16 + (dbDg + 8) ∧ i.WellFormed) ∧
      (0xC0 ≤ b0.toNat → b0.toNat < 0xFE → payload = [] ∧ i = .run (b0.toNat - 0xC0 + 1)) ∧
      (b0.toNat = 0xFE → ∃ r g b, payload = [r, g, b] ∧ i = .rgb r g b) ∧
      (b0.toNat = 0xFF → ∃ r g b a, payload = [r, g, b, a] ∧ i = .rgba r g b a)

/-- Words written out from the encodings decode to the chunks they stand for. -/
def Obligations.WrittenOutWordsDecode : Prop :=
  decodeTableWord 32 0x3264C8FE = some (.rgb 200#8 100#8 50#8) ∧
  decodeTableWord 40 0x04030201FF = some (.rgba 1#8 2#8 3#8 4#8) ∧
  decodeTableWord 8 0x0B = some (.index 11) ∧
  decodeTableWord 8 0x76 = some (.diff 1 (-1) 0) ∧
  decodeTableWord 16 0xAB9F = some (.luma (-1) 2 3) ∧
  decodeTableWord 8 0xC3 = some (.run 4) ∧
  decodeTableWord 64 0x0100000000000000 = some .endMarker

/-- Read as chunks, the end marker is `INDEX{0}` seven times and then `INDEX{1}` (30_encoding.md R95). -/
def Obligations.EndMarkerReadsAsIndexChunks : Prop :=
  ∀ rest : List Byte,
    (∀ n, n < 7 → decodeChunk (Config.endMarker.drop n ++ rest) = .ok (.index 0, Config.endMarker.drop (n + 1) ++ rest)) ∧
    decodeChunk (Config.endMarker.drop 7 ++ rest) = .ok (.index 1, rest)

/-! ## Framing -/

/-- ENCODE's precondition check (40_header_codec.md R111, 60_exceptions.md R230): descriptor first, then the exact length. -/
def Obligations.EncodeChecksDescriptorThenLength : Prop :=
  ∀ s : State, Running .encode .check s →
    let good := s.width ≠ 0#32 ∧ s.height ≠ 0#32 ∧ (s.channels = 3#8 ∨ s.channels = 4#8) ∧
      (s.colorspace = 0#8 ∨ s.colorspace = 1#8)
    (¬ good → ∃ t, step s = .next t ∧ ErrorEntered .invalidDescriptor s t) ∧
    (good → s.width.toNat * s.height.toNat * s.channels.toNat ≠ s.inLen.toNat →
      ∃ t, step s = .next t ∧ ErrorEntered .dataLengthMismatch s t) ∧
    (good → s.width.toNat * s.height.toNat * s.channels.toNat = s.inLen.toNat →
      step s = .next { s with phase := .header })

/-- ENCODE's initialisation and header (42_encoder.md R140, 40_header_codec.md R112, 30_encoding.md R92). -/
def Obligations.EncodeEmitsTheHeader : Prop :=
  ∀ s : State, Running .encode .header s → ∃ t, step s = .next t ∧ t.phase = .loop ∧
    t.prev = ⟨0#8, 0#8, 0#8, 255#8⟩ ∧ t.run = 0 ∧ (∀ slot : Fin 64, t.cache[slot] = ⟨0#8, 0#8, 0#8, 0#8⟩) ∧
    t.pxPos = 0 ∧ t.ip = 0 ∧ t.op = 14 ∧
    Stored s t 0 [s.config.magic[0], s.config.magic[1], s.config.magic[2], s.config.magic[3],
      BitVec.ofNat 8 (s.width.toNat / 2 ^ 24), BitVec.ofNat 8 (s.width.toNat / 2 ^ 16),
      BitVec.ofNat 8 (s.width.toNat / 2 ^ 8), BitVec.ofNat 8 s.width.toNat,
      BitVec.ofNat 8 (s.height.toNat / 2 ^ 24), BitVec.ofNat 8 (s.height.toNat / 2 ^ 16),
      BitVec.ofNat 8 (s.height.toNat / 2 ^ 8), BitVec.ofNat 8 s.height.toNat, s.channels, s.colorspace] ∧
    SameControl s { t with phase := s.phase }

/-- Completion of ENCODE (42_encoder.md R155, R158, 40_header_codec.md R116): pending run, end marker, `OUT_LEN`, DONE. What the
working registers hold once STATE is DONE, `prev`, the cache, `run` and the cursors here, is the model's choice (log 5;
44_control.md R204 leaves it open). -/
def Obligations.EncodeCompletes : Prop :=
  ∀ s : State, Running .encode .loop s → s.pxPos = pixelCount s → ∃ t, step s = .next t ∧
    t.callState = .done ∧ t.outLen = s.op + (pendingRun s).length + 8 ∧ t.op = t.outLen ∧ t.run = 0 ∧
    t.prev = s.prev ∧ t.cache = s.cache ∧ t.pxPos = s.pxPos ∧ t.ip = s.ip ∧
    Stored s t s.op (pendingRun s ++ [0#8, 0#8, 0#8, 0#8, 0#8, 0#8, 0#8, 1#8]) ∧
    SameControl s { t with callState := s.callState, outLen := s.outLen }

/-- `decodeHeader` on fewer than 14 bytes (40_header_codec.md R113). -/
def Obligations.ShortHeaderIsMalformed : Prop :=
  ∀ s : State, Running .decode .header s → s.inLen.toNat < 14 →
    ∃ t, step s = .next t ∧ ErrorEntered .malformedHeader s t

/-- `decodeHeader` (R113, R114): the magic, then zero sizes, channels, colorspace, in that order; then the four descriptor
registers are written big-endian and `ip` is 14. Of the model's own record of which of them count as written nothing is said. -/
def Obligations.DecodeHeaderFirstFailingTestWins : Prop :=
  ∀ (s : State) (m0 m1 m2 m3 w0 w1 w2 w3 h0 h1 h2 h3 c cs : Byte), Running .decode .header s → 14 ≤ s.inLen.toNat →
    InHolds s 0 [m0, m1, m2, m3, w0, w1, w2, w3, h0, h1, h2, h3, c, cs] →
    let w := w0.toNat * 2 ^ 24 + w1.toNat * 2 ^ 16 + w2.toNat * 2 ^ 8 + w3.toNat
    let h := h0.toNat * 2 ^ 24 + h1.toNat * 2 ^ 16 + h2.toNat * 2 ^ 8 + h3.toNat
    let magicOk := m0 = s.config.magic[0] ∧ m1 = s.config.magic[1] ∧ m2 = s.config.magic[2] ∧ m3 = s.config.magic[3]
    let channelsOk := c = 3#8 ∨ c = 4#8
    let colorspaceOk := cs = 0#8 ∨ cs = 1#8
    (¬ magicOk → ∃ t, step s = .next t ∧ ErrorEntered .malformedHeader s t) ∧
    (magicOk → (w = 0 ∨ h = 0) → ∃ t, step s = .next t ∧ ErrorEntered .invalidDescriptor s t) ∧
    (magicOk → w ≠ 0 → h ≠ 0 → ¬ channelsOk →
      ∃ t, step s = .next t ∧ ErrorEntered .unsupportedChannelCount s t) ∧
    (magicOk → w ≠ 0 → h ≠ 0 → channelsOk → ¬ colorspaceOk →
      ∃ t, step s = .next t ∧ ErrorEntered .unsupportedColorspace s t) ∧
    (magicOk → w ≠ 0 → h ≠ 0 → channelsOk → colorspaceOk →
      ∃ flags : Written, flags.inLen = s.written.inLen ∧ step s = .next { s with
        width := BitVec.ofNat 32 w
        height := BitVec.ofNat 32 h
        channels := c
        colorspace := cs
        written := flags
        ip := 14
        phase := .check })

/-- The decoder's output-size check (R115, strict and exact) and the initialisation after it (43_decoder.md R171). -/
def Obligations.DecodeGuardsTheOutputSize : Prop :=
  ∀ s : State, Running .decode .check s →
    (s.width.toNat * s.height.toNat * s.channels.toNat > s.config.maxOutBytes →
      ∃ t, step s = .next t ∧ ErrorEntered .invalidDescriptor s t) ∧
    (s.width.toNat * s.height.toNat * s.channels.toNat ≤ s.config.maxOutBytes →
      ∃ t, step s = .next t ∧ t.phase = .loop ∧ t.prev = ⟨0#8, 0#8, 0#8, 255#8⟩ ∧ t.run = 0 ∧
        (∀ slot : Fin 64, t.cache[slot] = ⟨0#8, 0#8, 0#8, 0#8⟩) ∧ t.pxPos = 0 ∧ t.op = 0 ∧ t.ip = s.ip ∧
        t.outMem = s.outMem ∧ SameControl s { t with phase := s.phase })

/-- Completion of DECODE (43_decoder.md R188) with the trailer check (40_header_codec.md R117): a missing or wrong trailer never
fails the call. That `prev`, `run`, the cache and the cursors keep their values once STATE is DONE is the model's choice
(log 5; 44_control.md R204 leaves them open). -/
def Obligations.DecodeCompletesWithTrailerCheck : Prop :=
  ∀ s : State, Running .decode .loop s → s.pxPos = pixelCount s →
    (s.inLen.toNat < s.ip + 8 → step s = .next { s with callState := .done, outLen := s.op, trailerOk := false }) ∧
    (∀ w : List Byte, s.ip + 8 ≤ s.inLen.toNat → w.length = 8 → InHolds s s.ip w →
      step s = .next { s with
        callState := .done
        outLen := s.op
        trailerOk := decide (w = [0#8, 0#8, 0#8, 0#8, 0#8, 0#8, 0#8, 1#8]) })

/-! ## The encoder's pixel step -/

/-- The run-length encoder (42_encoder.md R142, R143, R145): a pixel equal to `prev` only counts, and the run is flushed at 62 or
at the final pixel. -/
def Obligations.EncoderCountsRuns : Prop :=
  ∀ s : State, Running .encode .loop s → s.pxPos < pixelCount s → PixelAtCursor s s.prev →
    ∃ t, step s = .next t ∧ t.prev = s.prev ∧ t.cache = s.cache ∧ t.pxPos = s.pxPos + 1 ∧
      t.ip = (s.pxPos + 1) * s.channels.toNat ∧ SameControl s t ∧
      ((s.run + 1 = 62 ∨ s.pxPos = pixelCount s - 1) →
        t.run = 0 ∧ t.op = s.op + 1 ∧ Stored s t s.op [BitVec.ofNat 8 (0xC0 + s.run)]) ∧
      (¬ (s.run + 1 = 62 ∨ s.pxPos = pixelCount s - 1) →
        t.run = s.run + 1 ∧ t.op = s.op ∧ t.outMem = s.outMem)

/-- INDEX is chosen on a hit, whatever the alpha, and the cache is not written (R146, R153). -/
def Obligations.EncoderIndexesOnHit : Prop :=
  ∀ (s : State) (px : Pixel), EncodingPixel s px → s.cache[lookup px] = px →
    ∃ t, step s = .next t ∧ PixelEncoded s t px [BitVec.ofNat 8 (lookup px).val] ∧ t.cache = s.cache

/-- DIFF is chosen on a miss with the same alpha when the three deltas are in -2..1 (R147, R148, R149). -/
def Obligations.EncoderEmitsDiff : Prop :=
  ∀ (s : State) (px : Pixel) (dr dg db : Int), EncodingPixel s px → s.cache[lookup px] ≠ px → px.a = s.prev.a →
    AreDeltas px s.prev dr dg db → FitsDiff dr dg db →
    ∃ t, step s = .next t ∧
      PixelEncoded s t px [BitVec.ofInt 8 (0x40 + (dr + 2) * 16 + (dg + 2) * 4 + (db + 2))] ∧ CachedOnMiss s t px

/-- LUMA is chosen where DIFF does not fit and the luma deltas do (R150). -/
def Obligations.EncoderEmitsLuma : Prop :=
  ∀ (s : State) (px : Pixel) (dr dg db : Int), EncodingPixel s px → s.cache[lookup px] ≠ px → px.a = s.prev.a →
    AreDeltas px s.prev dr dg db → ¬ FitsDiff dr dg db → FitsLuma dr dg db →
    ∃ t, step s = .next t ∧
      PixelEncoded s t px
        [BitVec.ofInt 8 (0x80 + (dg + 32)), BitVec.ofInt 8 ((dr - dg + 8) * 16 + (db - dg + 8))] ∧
      CachedOnMiss s t px

/-- RGB is chosen where neither fits (R151). -/
def Obligations.EncoderEmitsRgb : Prop :=
  ∀ (s : State) (px : Pixel) (dr dg db : Int), EncodingPixel s px → s.cache[lookup px] ≠ px → px.a = s.prev.a →
    AreDeltas px s.prev dr dg db → ¬ FitsDiff dr dg db → ¬ FitsLuma dr dg db →
    ∃ t, step s = .next t ∧ PixelEncoded s t px [0xFE#8, px.r, px.g, px.b] ∧ CachedOnMiss s t px

/-- RGBA is chosen on a miss with another alpha, however small the deltas (R152). -/
def Obligations.EncoderEmitsRgba : Prop :=
  ∀ (s : State) (px : Pixel), EncodingPixel s px → s.cache[lookup px] ≠ px → px.a ≠ s.prev.a →
    ∃ t, step s = .next t ∧ PixelEncoded s t px [0xFF#8, px.r, px.g, px.b, px.a] ∧ CachedOnMiss s t px

/-- What the encoder never emits (R159 (b), (c), (d)): the all-zero DIFF and LUMA, a LUMA whose deltas fit DIFF, and, with
`CHANNELS` 3 in every state of the invariant, RGBA. First of the chunk it picks on a miss, then of the chunk that a step
stores in `OUT` for a pixel that breaks the run. -/
def Obligations.EncoderNeverEmits : Prop :=
  (∀ px prev : Pixel, px ≠ prev →
    (px.a = 255#8 → prev.a = 255#8 → ∀ r g b a, missChunk px prev ≠ .rgba r g b a) ∧
    missChunk px prev ≠ .diff 0 0 0 ∧ missChunk px prev ≠ .luma 0 0 0 ∧
    (∀ dg drDg dbDg, missChunk px prev = .luma dg drDg dbDg → ¬ FitsDiff (drDg + dg) dg (dbDg + dg))) ∧
  ∀ (s : State) (px : Pixel), EncodingPixel s px →
    ∃ t i, step s = .next t ∧ i.WellFormed ∧ PixelEncoded s t px (encode i) ∧ i ≠ .diff 0 0 0 ∧ i ≠ .luma 0 0 0 ∧
      (∀ dg drDg dbDg, i = .luma dg drDg dbDg → ¬ FitsDiff (drDg + dg) dg (dbDg + dg)) ∧
      (Invariant s → s.channels = 3#8 → ∀ r g b a, i ≠ .rgba r g b a)

/-- No two consecutive chunks are INDEX of the same slot (42_encoder.md R159 (a)): after a pixel that broke the run, a pixel that
hits the cache hits another slot. -/
def Obligations.NoIndexTwiceInARow : Prop :=
  ∀ (s t : State) (px next : Pixel), EncodingPixel s px → step s = .next t → EncodingPixel t next →
    t.cache[lookup next] = next → lookup next ≠ lookup px

/-- Lock step (41_index_cache.md R136): when encoder and decoder agree on `prev`, the cache and `CHANNELS`, the chunk the encoder
picks for a pixel that breaks the run makes the decoder write that pixel and agree with the encoder again. -/
def Obligations.DecoderFollowsTheEncoder : Prop :=
  ∀ (e d : State) (px : Pixel), px ≠ e.prev → e.prev = d.prev → e.cache = d.cache → e.channels = d.channels →
    ∃ i t, i.WellFormed ∧ PixelEncoded e (breakRun px e) px (encode i) ∧ exec i d = .next t ∧
      t.prev = (breakRun px e).prev ∧ t.cache = (breakRun px e).cache ∧ t.ip = d.ip + (encode i).length ∧
      Stored d t d.op (if d.channels = 4#8 then [px.r, px.g, px.b, px.a] else [px.r, px.g, px.b])

/-! ## The index cache -/

/-- `set` then `get` (41_index_cache.md R131, R132): the slot holds the pixel, "the other 63 slots unchanged". -/
def Obligations.CacheSetThenGet : Prop :=
  ∀ (slot other : Fin 64) (p : Pixel) (s : State),
    cacheGet slot (cacheSet slot p s) = p ∧ (other ≠ slot → cacheGet other (cacheSet slot p s) = cacheGet other s)

/-- The hash needs only the low six bits of each channel, and an 8-bit wrapping sum gives the same slot (R133). -/
def Obligations.HashKeepsLowSixBits : Prop :=
  ∀ p : Pixel,
    (lookup p).val =
      (p.r.toNat % 64 * 3 + p.g.toNat % 64 * 5 + p.b.toNat % 64 * 7 + p.a.toNat % 64 * 11) % 64 ∧
    (lookup p).val = (p.r * 3#8 + p.g * 5#8 + p.b * 7#8 + p.a * 11#8).toNat % 64

/-! ## Calls and the host -/

/-- With no move of the host pending a step is the engine's; a move of the host that lets the engine run is one step of the engine,
and polling is one while the call runs (the model's choice of how host and engine take turns, log 6). -/
def Obligations.HostAndEngineTakeTurns : Prop :=
  ∀ (s : State) (rest : List HostMove),
    (s.host = [] → step s = engineStep s) ∧
    (s.host = .letRun :: rest → step s = engineStep { s with host := rest }) ∧
    (s.host = .await :: rest → s.callState = .busy → step s = engineStep s) ∧
    (s.host = .await :: rest → s.callState ≠ .busy → step s = .next { s with host := rest })

/-- With no call running the engine takes no step (60_exceptions.md R232, R233): the model's step then leaves the machine as it is
(log 12). -/
def Obligations.NoCallNoStep : Prop :=
  ∀ s : State, s.callState ≠ .busy → s.host = [] → step s = .next s

/-- Which errors a call can end in (42_encoder.md R158, 43_decoder.md R190): an ENCODE only in its precondition check and only with
two codes, a DECODE with any of the five others and never with DataLengthMismatch. -/
def Obligations.EachDirectionHasItsErrors : Prop :=
  ∀ s t : State, s.callState = .busy → s.host = [] → step s = .next t → t.callState = .error →
    (s.mode = .encode → s.phase = .check ∧ (t.err = .invalidDescriptor ∨ t.err = .dataLengthMismatch)) ∧
    (s.mode = .decode → t.err = .invalidDescriptor ∨ t.err = .malformedHeader ∨ t.err = .unsupportedChannelCount ∨
      t.err = .unsupportedColorspace ∨ t.err = .truncatedStream)

/-- "never returns partially-filled output on failure" (60_exceptions.md R232): after a step that ends a running call in ERROR no byte
of `OUT` can be read. That `OUT`, unspecified by the rule, then holds no value is the model's choice (log 16). -/
def Obligations.FailedCallShowsNoOutput : Prop :=
  ∀ s t : State, s.callState = .busy → step s = .next t → t.callState = .error → ∀ a, outByte t a = none

/-- The START write (44_control.md R201, R202, 70_reset_and_hazards.md R251), where the host has done what R252 asks: the buffers
are apart, `IN_LEN`, every byte of `IN` below it and, for an ENCODE, the descriptor were written (log 23). -/
def Obligations.StartInitialisesTheCall : Prop :=
  ∀ (s : State) (v : BitVec 2) (rest : List HostMove), s.host = .writeCtrl v :: rest → v.getLsbD 1 = true →
    s.callState ≠ .busy → s.overlap = false → Memory.wf s.inMem = true → s.written.inLen = true → InputFilled s →
    (v.getLsbD 0 = false → s.written.width = true ∧ s.written.height = true ∧ s.written.channels = true ∧
      s.written.colorspace = true) →
    ∃ t, step s = .next t ∧ t.callState = .busy ∧ t.err = .none ∧ t.outLen = 0 ∧ t.trailerOk = false ∧
      t.mode = (if v.getLsbD 0 then .decode else .encode) ∧
      t.phase = (if v.getLsbD 0 then .header else .check) ∧
      t.prev = ⟨0#8, 0#8, 0#8, 255#8⟩ ∧ t.run = 0 ∧ (∀ slot : Fin 64, t.cache[slot] = ⟨0#8, 0#8, 0#8, 0#8⟩) ∧
      t.pxPos = 0 ∧ t.ip = 0 ∧ t.op = 0 ∧ t.host = rest ∧ t.config = s.config ∧ t.inMem = s.inMem ∧
      t.inLen = s.inLen ∧ t.overlap = s.overlap ∧ t.hostData = s.hostData ∧
      (v.getLsbD 0 = false →
        t.width = s.width ∧ t.height = s.height ∧ t.channels = s.channels ∧ t.colorspace = s.colorspace ∧
          t.written = s.written)

/-- A START whose inputs were never written is refused (70_reset_and_hazards.md R252, ruling U6): `IN_LEN`, a byte of `IN` below it
or, in an ENCODE, one of the four descriptor registers. How the model records what was written is its own choice
(log 23). -/
def Obligations.UnwrittenInputsAreRefused : Prop :=
  ∀ (s : State) (v : BitVec 2) (rest : List HostMove), s.host = .writeCtrl v :: rest → v.getLsbD 1 = true →
    s.callState ≠ .busy → s.overlap = false →
    (s.written.inLen = false ∨ (∃ a, a < s.inLen.toNat ∧ inByte s a = none) ∨
      (v.getLsbD 0 = false ∧ (s.written.width = false ∨ s.written.height = false ∨ s.written.channels = false ∨
        s.written.colorspace = false))) →
    step s = .refused .inputsNeverWritten

/-- "A write with `START = 1` while `STATE = BUSY` is ignored" (10_state.md R31). -/
def Obligations.StartWhileBusyIsIgnored : Prop :=
  ∀ (s : State) (v : BitVec 2) (rest : List HostMove), s.host = .writeCtrl v :: rest → v.getLsbD 1 = true →
    s.callState = .busy → step s = .next { s with host := rest }

/-- A launch over overlapping buffers is refused (20_memory.md R63). -/
def Obligations.OverlappingLaunchIsRefused : Prop :=
  ∀ (s : State) (v : BitVec 2) (rest : List HostMove), s.host = .writeCtrl v :: rest → v.getLsbD 1 = true →
    s.callState ≠ .busy → s.overlap = true → step s = .refused .overlappingBuffers

/-- ABORT (44_control.md R206): IDLE with the status registers cleared, in every state. That the working registers and the
descriptor stay when no call runs is the model's reading (log 8); that `IN`, `IN_LEN`, `MODE` and, in an ENCODE, the
descriptor stay when one does is its choice between R206 and D18 (log 25). -/
def Obligations.AbortClearsTheStatus : Prop :=
  ∀ (s : State) (rest : List HostMove), s.host = .writeAbort 1#1 :: rest →
    ∃ t, step s = .next t ∧ t.callState = .idle ∧ t.err = .none ∧ t.outLen = 0 ∧ t.trailerOk = false ∧
      t.host = rest ∧ t.config = s.config ∧ t.inMem = s.inMem ∧ t.inLen = s.inLen ∧ t.mode = s.mode ∧
      (s.callState ≠ .busy → t.prev = s.prev ∧ t.run = s.run ∧ t.cache = s.cache ∧ t.pxPos = s.pxPos ∧ t.ip = s.ip ∧
        t.op = s.op) ∧
      (s.callState ≠ .busy ∨ s.mode = .encode → t.width = s.width ∧ t.height = s.height ∧ t.channels = s.channels ∧
        t.colorspace = s.colorspace ∧ t.written = s.written)

/-- While BUSY the host must not write `IN`, `IN_LEN`, CR0 to CR3 or `CTRL` without `START` (20_memory.md R64): refused. -/
def Obligations.HostWritesAreRefusedWhileBusy : Prop :=
  ∀ (s : State) (m : HostMove) (rest : List HostMove), s.host = m :: rest → s.callState = .busy →
    ((∃ v, m = .writeWidth v) ∨ (∃ v, m = .writeHeight v) ∨ (∃ v, m = .writeChannels v) ∨
      (∃ v, m = .writeColorspace v) ∨ (∃ v, m = .writeInLen v) ∨ (∃ a b, m = .writeIn a b) ∨
      (∃ v : BitVec 2, v.getLsbD 1 = false ∧ m = .writeCtrl v)) →
    step s = .refused .hostWriteWhileBusy

/-- While not BUSY each of the host's writes lands in its register, or its byte of `IN`, and nowhere else (10_state.md R26 to R30);
that a `CTRL` write without `START` sets `MODE` is the model's choice (log 8), and the flag that a register was written
is its own record (log 23). -/
def Obligations.HostWritesLand : Prop :=
  ∀ (s : State) (rest : List HostMove), s.callState ≠ .busy →
    (∀ v, s.host = .writeWidth v :: rest →
      step s = .next { s with host := rest, width := v, written := { s.written with width := true } }) ∧
    (∀ v, s.host = .writeHeight v :: rest →
      step s = .next { s with host := rest, height := v, written := { s.written with height := true } }) ∧
    (∀ v, s.host = .writeChannels v :: rest →
      step s = .next { s with host := rest, channels := v, written := { s.written with channels := true } }) ∧
    (∀ v, s.host = .writeColorspace v :: rest →
      step s = .next { s with host := rest, colorspace := v, written := { s.written with colorspace := true } }) ∧
    (∀ v, s.host = .writeInLen v :: rest →
      step s = .next { s with host := rest, inLen := v, written := { s.written with inLen := true } }) ∧
    (∀ a b, s.host = .writeIn a b :: rest →
      ∃ t, step s = .next t ∧ (∀ x, inByte t x = if x = a then some b else inByte s x) ∧
        t = { s with host := rest, inMem := t.inMem }) ∧
    (∀ v : BitVec 2, v.getLsbD 1 = false → s.host = .writeCtrl v :: rest →
      step s = .next { s with host := rest, mode := if v.getLsbD 0 then .decode else .encode })

/-- What the host reads, and when (10_state.md R26 to R33, 20_memory.md R64). While BUSY only `STATUS`: that every other read is then
refused is D19's "the model offers the host no other move" (log 7). Else each register and each byte of `IN` or `OUT` that
was written; a byte that was not is a fault (10_state.md R36; log 2). What `CTRL` reads as is the model's reading (log 8),
and that a read returns its value in `hostData` is its own interface (log 6). -/
def Obligations.HostReadsWithinItsWindow : Prop :=
  ∀ (s : State) (rest : List HostMove),
    (s.host = .readReg .status :: rest →
      ∃ n, step s = .next { s with host := rest, hostData := n } ∧
        n % 4 = (match s.callState with | .idle => 0 | .busy => 1 | .done => 2 | .error => 3) ∧
        n / 4 = (if s.trailerOk then 1 else 0)) ∧
    (s.callState = .busy →
      (∀ r, r ≠ .status → s.host = .readReg r :: rest → step s = .refused .hostReadWhileBusy) ∧
      (∀ a, s.host = .readIn a :: rest ∨ s.host = .readOut a :: rest → step s = .refused .hostReadWhileBusy)) ∧
    (s.callState ≠ .busy →
      (∀ (r : ReadReg) (v : Nat),
        (r = .width ∧ v = s.width.toNat) ∨ (r = .height ∧ v = s.height.toNat) ∨
          (r = .channels ∧ v = s.channels.toNat) ∨ (r = .colorspace ∧ v = s.colorspace.toNat) ∨
          (r = .inLen ∧ v = s.inLen.toNat) ∨ (r = .outLen ∧ v = s.outLen) ∨
          (r = .ctrl ∧ v = match s.mode with | .encode => 0 | .decode => 1) ∨
          (r = .err ∧ v = match s.err with
            | .none => 0 | .invalidDescriptor => 1 | .dataLengthMismatch => 2 | .malformedHeader => 3
            | .unsupportedChannelCount => 4 | .unsupportedColorspace => 5 | .truncatedStream => 6) →
        s.host = .readReg r :: rest → step s = .next { s with host := rest, hostData := v }) ∧
      (∀ a b, s.host = .readIn a :: rest → inByte s a = some b →
        step s = .next { s with host := rest, hostData := b.toNat }) ∧
      (∀ a b, s.host = .readOut a :: rest → outByte s a = some b →
        step s = .next { s with host := rest, hostData := b.toNat }) ∧
      (∀ a, s.host = .readIn a :: rest → inByte s a = none → step s = .fault .unwrittenInput) ∧
      (∀ a, s.host = .readOut a :: rest → outByte s a = none → step s = .fault .unwrittenOutput))

/-- "`STATE` stays DONE or ERROR until the next START or ABORT" (44_control.md R205), whatever the host does. -/
def Obligations.OnlyStartOrAbortLeavesAFinishedCall : Prop :=
  ∀ s t : State, s.callState = .done ∨ s.callState = .error → step s = .next t → t.callState ≠ s.callState →
    ∃ rest, s.host = .writeAbort 1#1 :: rest ∨ ∃ v : BitVec 2, v.getLsbD 1 = true ∧ s.host = .writeCtrl v :: rest

/-- No call observes an earlier one (10_state.md R35). After START two machines that agree on the host's inputs agree on all but the
model's own fields and, in a DECODE, the descriptor registers that the header will write; that they agree on `OUT` too is
the model's choice of what `OUT` holds then (log 16). And the whole call that follows shows the host the same: as long as
one of them takes steps so does the other, with the same status registers, the same `OUT` and, at DONE, the same
descriptor. -/
def Obligations.StartForgetsEarlierCalls : Prop :=
  ∀ s s' : State, s.config = s'.config → s.inLen = s'.inLen → s.inMem = s'.inMem → s.overlap = s'.overlap →
    s.host = s'.host →
    (s.width = s'.width → s.height = s'.height → s.channels = s'.channels → s.colorspace = s'.colorspace →
      startCall .encode s =
        { startCall .encode s' with hostData := s.hostData, freeCount := s.freeCount, written := s.written }) ∧
    (∃ w h c cs n x,
      startCall .decode s =
        { startCall .decode s' with
          width := w, height := h, channels := c, colorspace := cs, hostData := s.hostData, freeCount := n, written := x }) ∧
    ∀ m : Mode, s.host = [] →
      (m = .encode →
        s.width = s'.width ∧ s.height = s'.height ∧ s.channels = s'.channels ∧ s.colorspace = s'.colorspace) →
      ∀ k t, steps k (startCall m s) = .next t →
        ∃ t', steps k (startCall m s') = .next t' ∧ t.callState = t'.callState ∧ t.err = t'.err ∧
          t.outLen = t'.outLen ∧ t.trailerOk = t'.trailerOk ∧ (∀ a, outByte t a = outByte t' a) ∧
          (t.callState = .done → t.width = t'.width ∧ t.height = t'.height ∧ t.channels = t'.channels ∧
            t.colorspace = t'.colorspace)

/-! ## The whole machine -/

/-- The state after power-on (70_reset_and_hazards.md R250), the values the spec gives. -/
def Obligations.ResetIsIdle : Prop :=
  State.reset.callState = .idle ∧ State.reset.trailerOk = false ∧ State.reset.err = .none ∧ State.reset.outLen = 0 ∧
    (ctrlWord State.reset).getLsbD 1 = false

/-- The invariant holds after power-on. -/
def Obligations.ResetMeetsTheInvariant : Prop := Invariant State.reset

/-- Every step keeps the invariant, whatever the host does. -/
def Obligations.StepKeepsTheInvariant : Prop := ∀ s t : State, Invariant s → step s = .next t → Invariant t

/-- "The engine never writes `IN`" (20_memory.md R63), and no step changes the parameters (10_state.md R37): only the host's write
of a byte changes `IN`. -/
def Obligations.OnlyTheHostWritesInput : Prop :=
  ∀ s t : State, step s = .next t →
    t.config = s.config ∧ (t.inMem = s.inMem ∨ ∃ a b rest, s.host = .writeIn a b :: rest)

/-- `OUT` is written at ascending addresses, no address twice (R61 (a)): in a call that goes on, a step of the engine leaves
every byte below `op` as it was and `op` never falls. -/
def Obligations.OutputIsAppendOnly : Prop :=
  ∀ s t : State, s.callState = .busy → s.phase = .loop → s.host = [] → step s = .next t → t.callState ≠ .error →
    s.op ≤ t.op ∧ ∀ a, a < s.op ∨ t.op ≤ a → outByte t a = outByte s a

/-- The encoded length (42_encoder.md R160): at completion `23 <= 14 + ceil(N/62) + 8 <= OUT_LEN <= ENC_WORST`. -/
def Obligations.EncodedSizeBounds : Prop :=
  ∀ s t : State, Invariant s → Running .encode .loop s → step s = .next t → t.callState = .done →
    23 ≤ 14 + (pixelCount s + 61) / 62 + 8 ∧ 14 + (pixelCount s + 61) / 62 + 8 ≤ t.outLen ∧
      t.outLen ≤ 14 + pixelCount s * (s.channels.toNat + 1) + 8

/-- `colorspace` has no effect on any pixel computation (10_state.md R29): in the loop, a step with another `COLORSPACE` does the
same to everything else. -/
def Obligations.ColorspaceReachesNoPixel : Prop :=
  ∀ (s t : State) (cs : Byte), s.callState = .busy → s.phase = .loop → s.host = [] → step s = .next t →
    t.callState ≠ .error → step { s with colorspace := cs } = .next { t with colorspace := cs }

/-- A BUSY engine always has a step and every call ends (44_control.md R203, 43_decoder.md R190): from every state of the
invariant with a call running, the engine alone reaches DONE or ERROR, without fault or refusal; once in the loop, after
at most one step for each pixel still owed and the closing step. -/
def Obligations.EveryCallEnds : Prop :=
  ∀ s : State, Invariant s → s.callState = .busy → s.host = [] →
    ∃ k t, steps k s = .next t ∧ (t.callState = .done ∨ t.callState = .error) ∧
      (s.phase = .loop → k ≤ pixelCount s - s.pxPos + 1)

/-- The round trip (00_scope.md R19): an ENCODE of a valid bitmap ends DONE, and the DECODE of its output by any engine with the
same `MAGIC` and room for the image ends DONE with the descriptor, every byte of the bitmap, and the trailer seen. -/
def Obligations.DecodeOfEncodeIsTheBitmap : Prop :=
  ∀ e : State, e.host = [] → descriptorOk e → rawLen e = e.inLen.toNat → InputFilled e →
    ∃ k t, steps k (startCall .encode e) = .next t ∧ t.callState = .done ∧
      ∀ d : State, d.host = [] → d.config.magic = e.config.magic → rawLen e ≤ d.config.maxOutBytes →
        d.inLen.toNat = t.outLen → (∀ a, a < t.outLen → inByte d a = outByte t a) →
        ∃ k' t', steps k' (startCall .decode d) = .next t' ∧ t'.callState = .done ∧ t'.err = .none ∧
          t'.trailerOk = true ∧ t'.width = e.width ∧ t'.height = e.height ∧ t'.channels = e.channels ∧
          t'.colorspace = e.colorspace ∧ t'.outLen = rawLen e ∧ ∀ a, a < rawLen e → outByte t' a = inByte e a

/-- Run correctness (42_encoder.md R161): a uniform image of the initial `prev` encodes to the header, `ceil(N/62)` RUN chunks (62
each, the rest in the last) and the end marker. -/
def Obligations.UniformImageIsRuns : Prop :=
  ∀ e : State, e.host = [] → descriptorOk e → rawLen e = e.inLen.toNat →
    (∀ i, i < pixelCount e → PixelAtCursor { e with pxPos := i } ⟨0#8, 0#8, 0#8, 255#8⟩) →
    ∃ k t, steps k (startCall .encode e) = .next t ∧ t.callState = .done ∧
      t.outLen = 14 + (pixelCount e + 61) / 62 + 8 ∧
      (∀ j, j < 14 →
        outByte t j = (headerBytes e.config.magic e.width e.height e.channels e.colorspace)[j]?) ∧
      (∀ j, j < pixelCount e / 62 → outByte t (14 + j) = some 0xFD#8) ∧
      (pixelCount e % 62 ≠ 0 →
        outByte t (14 + pixelCount e / 62) = some (BitVec.ofNat 8 (0xC0 + (pixelCount e % 62 - 1)))) ∧
      ∀ j, j < 8 → outByte t (14 + (pixelCount e + 61) / 62 + j) = Config.endMarker[j]?
end

