-- ==== Sys2Proof/Laws/Operands.lean ====
section
/-! SUPPORT. Operand arithmetic: what a delta is, and that applying it undoes it. -/

namespace Sys2Proof.Machine

theorem u8_toNat (i : Int) : ((u8 i).toNat : Int) = i % 256 := by
  simp [u8, BitVec.toNat_ofInt]; omega

/-- A delta is `new - old` modulo 256, in -128..127 (42_encoder.md R148). -/
theorem delta_isDelta (new old : Byte) : IsDelta new old (delta new old) := by
  have h := u8_toNat ((new.toNat : Int) - (old.toNat : Int))
  have hn := new.isLt; have ho := old.isLt
  unfold IsDelta delta s8
  rw [BitVec.toInt_eq_toNat_cond]
  generalize (u8 ((new.toNat : Int) - (old.toNat : Int))) = v at *
  have hv := v.isLt
  split <;> refine ⟨?_, ?_, ?_⟩ <;> omega

/-- There is one delta. -/
theorem isDelta_unique (new old : Byte) (d : Int) (h : IsDelta new old d) : d = delta new old := by
  obtain ⟨h1, h2, h3⟩ := h
  obtain ⟨g1, g2, g3⟩ := delta_isDelta new old
  omega

/-- `u8(old + d)` (43_decoder.md R175). -/
theorem addDelta_toNat (old : Byte) (d : Int) : ((addDelta old d).toNat : Int) = (old.toNat + d) % 256 :=
  u8_toNat _

/-- The decoder's addition undoes the encoder's difference. -/
theorem addDelta_of_isDelta (new old : Byte) (d : Int) (h : IsDelta new old d) : addDelta old d = new := by
  obtain ⟨_, _, h3⟩ := h
  have h := addDelta_toNat old d
  have hn := new.isLt
  apply BitVec.eq_of_toNat_eq
  omega

@[simp] theorem addDelta_delta (new old : Byte) : addDelta old (delta new old) = new :=
  addDelta_of_isDelta _ _ _ (delta_isDelta new old)

/-- The decoder rebuilds the pixel from the encoder's three deltas when the alphas agree. -/
theorem movePixel_deltas (px prev : Pixel) (h : px.a = prev.a) :
    movePixel prev (deltaR px prev) (deltaG px prev) (deltaB px prev) = px := by
  cases px; cases prev; simp_all [movePixel, deltaR, deltaG, deltaB]

@[simp] theorem within_eq_true (lo hi v : Int) : within lo hi v = true ↔ lo ≤ v ∧ v ≤ hi := by
  simp [within]

@[simp] theorem inRange_eq_true (lo hi v : Int) : inRange lo hi v = true ↔ lo ≤ v ∧ v ≤ hi := by
  simp [inRange]

theorem diffOk_iff (px prev : Pixel) :
    diffOk px prev = true ↔ FitsDiff (deltaR px prev) (deltaG px prev) (deltaB px prev) := by
  simp [diffOk, FitsDiff, and_assoc]

theorem lumaOk_iff (px prev : Pixel) :
    lumaOk px prev = true ↔ FitsLuma (deltaR px prev) (deltaG px prev) (deltaB px prev) := by
  simp [lumaOk, FitsLuma, and_assoc]

@[simp] theorem same_iff (px prev : Pixel) : same px prev = true ↔ px = prev := by simp [same]

@[simp] theorem hit_iff (px : Pixel) (cache : Vector Pixel 64) : hit px cache = true ↔ cache[lookup px] = px := by simp [hit]

@[simp] theorem alphaSame_iff (px prev : Pixel) : alphaSame px prev = true ↔ px.a = prev.a := by simp [alphaSame]

@[simp] theorem owed_iff (s : State) : owed s = true ↔ s.pxPos < pixelCount s := by simp [owed]

@[simp] theorem isBusy_iff (s : State) : isBusy s = true ↔ s.callState = .busy := by simp [isBusy]

theorem lookup_slotInit : lookup Config.slotInit = 0 := by decide

/-- The four bytes of a big-endian word (00_scope.md R12). -/
theorem be32_eq (x : BitVec 32) : be32 x =
    [BitVec.ofNat 8 (x.toNat / 2 ^ 24), BitVec.ofNat 8 (x.toNat / 2 ^ 16), BitVec.ofNat 8 (x.toNat / 2 ^ 8),
      BitVec.ofNat 8 x.toNat] := by
  simp [be32, BitVec.extractLsb', Nat.shiftRight_eq_div_pow]

/-- `BE32` undoes `be32`. -/
theorem fromBE32_be32 (x : BitVec 32) :
    fromBE32 (x.extractLsb' 24 8) (x.extractLsb' 16 8) (x.extractLsb' 8 8) (x.extractLsb' 0 8) = x := by
  apply BitVec.eq_of_toNat_eq
  have := x.isLt
  simp [fromBE32, Nat.shiftRight_eq_div_pow]
  omega

@[simp] theorem pixelBytes_length (c : Byte) (p : Pixel) : (pixelBytes c p).length = pixelSize c := by
  unfold pixelBytes pixelSize; split <;> rfl

theorem pixelSize_eq (c : Byte) (h : c = 3#8 ∨ c = 4#8) : pixelSize c = c.toNat := by
  rcases h with rfl | rfl <;> decide

theorem repeatBytes_eq (c : Byte) (p : Pixel) (k : Nat) :
    repeatBytes c p k = (List.replicate k (pixelBytes c p)).flatten := by
  induction k with
  | zero => rfl
  | succ k ih => simp [repeatBytes, List.replicate_succ, ih]

@[simp] theorem repeatBytes_length (c : Byte) (p : Pixel) (k : Nat) :
    (repeatBytes c p k).length = k * pixelSize c := by
  induction k with
  | zero => simp [repeatBytes]
  | succ k ih => simp [repeatBytes, ih, Nat.succ_mul, Nat.add_comm]

/-- `valid` as the four field tests (40_header_codec.md R110). -/
theorem validDescriptor_iff (w h : BitVec 32) (c cs : Byte) :
    validDescriptor w h c cs = true ↔
      0 < w.toNat ∧ 0 < h.toNat ∧ (c = 3#8 ∨ c = 4#8) ∧ (cs = 0#8 ∨ cs = 1#8) := by
  simp [validDescriptor, and_assoc]

/-- A valid descriptor has at least one pixel. -/
theorem pixelCount_pos (s : State) (h : descriptorOk s) : 0 < pixelCount s := by
  obtain ⟨hw, hh, _⟩ := (validDescriptor_iff _ _ _ _).1 h
  exact Nat.mul_pos hw hh

theorem descriptorOk_channels (s : State) (h : descriptorOk s) : s.channels = 3#8 ∨ s.channels = 4#8 :=
  ((validDescriptor_iff _ _ _ _).1 h).2.2.1

end Sys2Proof.Machine
end

