-- ==== Sys2Proof/Laws/Decode.lean ====
section
/-! SUPPORT. The tag parser: when it yields a chunk, which, and when it runs out of bytes. -/

namespace Sys2Proof.Machine

theorem bits_lt (b : Byte) (lo len : Nat) : bits b lo len < 2 ^ len := Nat.mod_lt _ (by positivity)

/-- A byte is its tag and its low six bits. -/
theorem byte_bits (b : Byte) : b.toNat = bits b 6 2 * 64 + bits b 0 6 := by
  have := b.isLt; unfold bits; omega

theorem ofNat_byte_toNat {n : Nat} (h : n < 256) : (BitVec.ofNat 8 n).toNat = n := by simp; omega

theorem ofInt_byte_toNat {i : Int} (h : 0 ≤ i) (h2 : i < 256) : ((BitVec.ofInt 8 i).toNat : Int) = i := by
  have := u8_toNat i; unfold u8 at this; omega

theorem byte_ne_iff {b : Byte} {n : Nat} (hn : n < 256) : b ≠ BitVec.ofNat 8 n ↔ b.toNat ≠ n := by
  rw [ne_eq, ← BitVec.toNat_inj, ofNat_byte_toNat hn]

/-- The payload lengths by tag (43_decoder.md R172). -/
theorem payloadLen_cases (b : Byte) :
    (b = 0xFE#8 ∧ payloadLen b = 3) ∨ (b = 0xFF#8 ∧ payloadLen b = 4) ∨
    (b ≠ 0xFE#8 ∧ b ≠ 0xFF#8 ∧ bits b 6 2 = 2 ∧ payloadLen b = 1) ∨
    (b ≠ 0xFE#8 ∧ b ≠ 0xFF#8 ∧ bits b 6 2 ≠ 2 ∧ payloadLen b = 0) := by
  by_cases h1 : b = 0xFE#8
  · simp [payloadLen, h1]
  · by_cases h2 : b = 0xFF#8
    · simp [payloadLen, h2]
    · by_cases h3 : bits b 6 2 = 2 <;> simp [payloadLen, h1, h2, h3]

theorem payloadLen_le (b : Byte) : payloadLen b ≤ 4 := by
  rcases payloadLen_cases b with ⟨_, h⟩ | ⟨_, h⟩ | ⟨_, _, _, h⟩ | ⟨_, _, _, h⟩ <;> omega

theorem encode_length (i : Instr) : (encode i).length = chunkLength i := by cases i <;> rfl

theorem chunkLength_le {i : Instr} (h : i ≠ .endMarker) : 1 ≤ chunkLength i ∧ chunkLength i ≤ 5 := by
  cases i <;> simp_all [chunkLength]

/-- Everything the tag parser can yield: a well-formed chunk from the bytes that encode it. -/
theorem decodeChunk_ok {bytes : List Byte} {i : Instr} {rest : List Byte} (h : decodeChunk bytes = .ok (i, rest)) :
    i.WellFormed ∧ i ≠ .endMarker ∧ bytes = encode i ++ rest := by
  cases bytes with
  | nil => simp [decodeChunk] at h
  | cons b0 tl =>
    unfold decodeChunk at h
    simp only at h
    split at h
    · rename_i h1
      split at h
      · simp at h; obtain ⟨rfl, rfl⟩ := h; simp [encode, h1, Instr.WellFormed, Instr.wellFormed]
      · simp at h
    · rename_i h1
      split at h
      · rename_i h2
        split at h
        · simp at h; obtain ⟨rfl, rfl⟩ := h; simp [encode, h2, Instr.WellFormed, Instr.wellFormed]
        · simp at h
      · rename_i h2
        have hb := byte_bits b0
        have hl := b0.isLt
        have h1' : b0.toNat ≠ 0xFE := (byte_ne_iff (by decide)).1 h1
        have h2' : b0.toNat ≠ 0xFF := (byte_ne_iff (by decide)).1 h2
        split at h
        · simp at h; obtain ⟨rfl, rfl⟩ := h
          refine ⟨rfl, by simp [decodeIndex], ?_⟩
          simp [decodeIndex, encode]
          apply BitVec.eq_of_toNat_eq; simp; omega
        · split at h
          · simp at h; obtain ⟨rfl, rfl⟩ := h
            have e1 := bits_lt b0 4 2; have e2 := bits_lt b0 2 2; have e3 := bits_lt b0 0 2
            refine ⟨by simp [decodeDiff, Instr.WellFormed, Instr.wellFormed]; omega, by simp [decodeDiff], ?_⟩
            simp [decodeDiff, encode]
            have := @ofInt_byte_toNat (64 + (bits b0 4 2 : Int) * 16 + bits b0 2 2 * 4 + bits b0 0 2) (by omega)
              (by omega)
            apply BitVec.eq_of_toNat_eq
            unfold bits at *; omega
          · split at h
            · split at h
              · rename_i b1 tail
                simp at h; obtain ⟨rfl, rfl⟩ := h
                have e1 := bits_lt b0 0 6; have e2 := bits_lt b1 4 4; have e3 := bits_lt b1 0 4
                have hl1 := b1.isLt
                refine ⟨by simp [decodeLuma, Instr.WellFormed, Instr.wellFormed]; omega, by simp [decodeLuma], ?_⟩
                simp [decodeLuma, encode]
                have k1 := @ofInt_byte_toNat (128 + (bits b0 0 6 : Int)) (by omega) (by omega)
                have k2 := @ofInt_byte_toNat ((bits b1 4 4 : Int) * 16 + bits b1 0 4) (by omega) (by omega)
                refine ⟨?_, ?_⟩ <;> (apply BitVec.eq_of_toNat_eq; unfold bits at *; omega)
              · simp at h
            · simp at h; obtain ⟨rfl, rfl⟩ := h
              have e1 := bits_lt b0 0 6
              have e0 := bits_lt b0 6 2
              refine ⟨by simp [decodeRun, Instr.WellFormed, Instr.wellFormed]; omega, by simp [decodeRun], ?_⟩
              simp [decodeRun, encode]
              apply BitVec.eq_of_toNat_eq; simp; omega

/-- With its whole payload there, every first byte yields a chunk (30_encoding.md R90). -/
theorem decodeChunk_total (b0 : Byte) (p rest : List Byte) (h : p.length = payloadLen b0) :
    ∃ i, decodeChunk (b0 :: p ++ rest) = .ok (i, rest) := by
  rcases payloadLen_cases b0 with ⟨h1, h2⟩ | ⟨h1, h2⟩ | ⟨h1, h2, h3, h4⟩ | ⟨h1, h2, h3, h4⟩
  · rw [h2] at h
    match p, h with
    | [a, b, c], _ => exact ⟨_, by simp [decodeChunk, h1]; rfl⟩
  · rw [h2] at h
    match p, h with
    | [a, b, c, d], _ => exact ⟨_, by simp [decodeChunk, h1]; rfl⟩
  · rw [h4] at h
    match p, h with
    | [a], _ => exact ⟨_, by simp [decodeChunk, h1, h2, h3]; rfl⟩
  · rw [h4] at h
    match p, h with
    | [], _ =>
      by_cases k0 : bits b0 6 2 = 0
      · exact ⟨_, by simp [decodeChunk, h1, h2, k0]; rfl⟩
      · by_cases k1 : bits b0 6 2 = 1
        · exact ⟨_, by simp [decodeChunk, h1, h2, k1]; rfl⟩
        · exact ⟨_, by simp [decodeChunk, h1, h2, k0, k1, h3]; rfl⟩

/-- The tag parser only fails for want of bytes (43_decoder.md R172, R173). -/
theorem decodeChunk_error {bytes : List Byte} {e : DecodeError} (h : decodeChunk bytes = .error e) :
    bytes = [] ∨ ∃ b0 tl, bytes = b0 :: tl ∧ tl.length < payloadLen b0 := by
  cases bytes with
  | nil => exact .inl rfl
  | cons b0 tl =>
    refine .inr ⟨b0, tl, rfl, ?_⟩
    by_contra hc
    obtain ⟨i, hi⟩ := decodeChunk_total b0 (tl.take (payloadLen b0)) (tl.drop (payloadLen b0)) (by simp; omega)
    rw [show b0 :: (tl.take (payloadLen b0)) ++ tl.drop (payloadLen b0) = b0 :: tl by simp, h] at hi
    cases hi

/-- Everything `decode` can yield at a chunk boundary: a detected end marker, or a chunk of the tag parser. -/
theorem decode_ok {detect : Bool} {bytes rest : List Byte} {i : Instr} (h : decode detect bytes = .ok (i, rest)) :
    (detect = true ∧ i = .endMarker ∧ bytes = Config.endMarker ++ rest) ∨ decodeChunk bytes = .ok (i, rest) := by
  unfold decode at h
  split at h
  · rename_i hm
    simp at h; obtain ⟨rfl, rfl⟩ := h
    exact .inl ⟨hm.1, rfl, by rw [← hm.2, List.take_append_drop]⟩
  · exact .inr h

end Sys2Proof.Machine
end

