-- ==== Sys2Proof/Laws/Memory.lean ====
section
/-! SUPPORT. Memory: a read after a write, and that every write keeps the canonical form. -/

namespace Sys2Proof.Machine

@[simp] theorem memRead_nil (a : Nat) : memRead [] a = none := rfl

/-- A read after one write: the byte written at its address, every other byte as before. -/
theorem memRead_memWrite (m : Memory) (a c : Nat) (b : Byte) :
    memRead (memWrite m a b) c = if c = a then some b else memRead m c := by
  induction m with
  | nil => by_cases h : c = a <;> simp [memWrite, memRead, h, Ne.symm]
  | cons e rest ih =>
    obtain ⟨k, v⟩ := e
    unfold memWrite
    split
    · simp only [memRead]
      by_cases hc : a = c
      · subst hc; simp
      · rw [if_neg hc, if_neg (Ne.symm hc)]
    · split
      · rename_i h; subst h
        simp only [memRead]
        by_cases h : k = c
        · subst h; simp
        · rw [if_neg h, if_neg (Ne.symm h), if_neg h]
      · rename_i hk
        simp only [memRead, ih]
        by_cases hc : k = c
        · subst hc; rw [if_pos rfl, if_neg hk, if_pos rfl]
        · rw [if_neg hc, if_neg hc]

/-- A read after a list of bytes was written. -/
theorem memRead_memWriteList (bs : List Byte) : ∀ (m : Memory) (base a : Nat),
    memRead (memWriteList m base bs) a =
      if base ≤ a ∧ a < base + bs.length then bs[a - base]? else memRead m a := by
  induction bs with
  | nil => intro m base a; simp only [memWriteList, List.length_nil]; rw [if_neg (by omega)]
  | cons b bs ih =>
    intro m base a
    rw [memWriteList, ih, memRead_memWrite, List.length_cons]
    by_cases h : a = base
    · subst h
      rw [if_neg (by omega), if_pos rfl, if_pos (by omega)]
      simp
    · rw [if_neg h]
      by_cases h2 : base + 1 ≤ a ∧ a < base + 1 + bs.length
      · rw [if_pos h2, if_pos (by omega)]
        obtain ⟨j, rfl⟩ : ∃ j, a = base + 1 + j := ⟨a - (base + 1), by omega⟩
        rw [show base + 1 + j - base = j + 1 by omega, show base + 1 + j - (base + 1) = j by omega]
        simp
      · rw [if_neg h2, if_neg (by omega)]

/-- Writing two lists one after the other is writing their concatenation. -/
theorem memWriteList_append (xs ys : List Byte) : ∀ (m : Memory) (base : Nat),
    memWriteList m base (xs ++ ys) = memWriteList (memWriteList m base xs) (base + xs.length) ys := by
  induction xs with
  | nil => intro m base; rfl
  | cons x xs ih => intro m base; simp [memWriteList, ih, Nat.add_assoc, Nat.add_comm 1]

/-- A memory whose first address is above `lo` and whose form is canonical. -/
theorem Memory.wf_cons_iff (k : Nat) (v : Byte) (rest : Memory) :
    Memory.wf ((k, v) :: rest) = true ↔
      Memory.wf rest = true ∧ ∀ e ∈ rest.head?, k < e.1 := by
  cases rest with
  | nil => simp [Memory.wf]
  | cons e rest => obtain ⟨k', v'⟩ := e; simp [Memory.wf, and_comm]

theorem memWrite_head (m : Memory) (a : Nat) (b : Byte) :
    ∀ e ∈ (memWrite m a b).head?, e.1 = a ∨ ∃ e' ∈ m.head?, e.1 = e'.1 := by
  cases m with
  | nil => simp [memWrite]
  | cons e rest =>
    obtain ⟨k, v⟩ := e
    unfold memWrite
    split
    · simp
    · split <;> simp_all

/-- A write keeps the canonical form. -/
theorem memWrite_wf (m : Memory) (a : Nat) (b : Byte) (h : Memory.wf m = true) :
    Memory.wf (memWrite m a b) = true := by
  induction m with
  | nil => rfl
  | cons e rest ih =>
    obtain ⟨k, v⟩ := e
    rw [Memory.wf_cons_iff] at h
    unfold memWrite
    split
    · rw [Memory.wf_cons_iff, Memory.wf_cons_iff]
      exact ⟨h, by simpa using ‹a < k›⟩
    · split
      · rename_i hk; subst hk
        rw [Memory.wf_cons_iff]; exact h
      · rw [Memory.wf_cons_iff]
        refine ⟨ih h.1, fun e he => ?_⟩
        rcases memWrite_head rest a b e he with h1 | ⟨e', he', h1⟩
        · omega
        · have := h.2 e' he'; omega

/-- Writing a list of bytes keeps the canonical form. -/
theorem memWriteList_wf (bs : List Byte) : ∀ (m : Memory) (a : Nat), Memory.wf m = true →
    Memory.wf (memWriteList m a bs) = true := by
  induction bs with
  | nil => intro m a h; exact h
  | cons b bs ih => intro m a h; exact ih _ _ (memWrite_wf m a b h)

/-- Nothing is listed below the first address of a canonical memory. -/
theorem memRead_below (m : Memory) (a : Nat) (h : Memory.wf m = true) (ha : ∀ e ∈ m.head?, a < e.1) :
    memRead m a = none := by
  induction m with
  | nil => rfl
  | cons e rest ih =>
    obtain ⟨k, v⟩ := e
    rw [Memory.wf_cons_iff] at h
    have hk : a < k := ha (k, v) rfl
    rw [memRead, if_neg (by omega)]
    exact ih h.1 fun e he => by have := h.2 e he; omega

/-- `memFilled` says that every byte of the range was written. -/
theorem memFilled_isSome (m : Memory) : ∀ a n : Nat, memFilled m a n = true →
    ∀ x, a ≤ x → x < n → (memRead m x).isSome = true := by
  induction m with
  | nil => intro a n h x h1 h2; simp [memFilled] at h; omega
  | cons e rest ih =>
    obtain ⟨k, v⟩ := e
    intro a n h x h1 h2
    simp only [memFilled, Bool.or_eq_true, Bool.and_eq_true, decide_eq_true_eq] at h
    rcases h with h | ⟨rfl, h⟩
    · omega
    · by_cases hx : k = x
      · simp [memRead, hx]
      · rw [memRead, if_neg hx]; exact ih _ _ h x (by omega) h2

/-- And the converse, for a canonical memory that lists nothing below the range. -/
theorem memFilled_of_isSome (m : Memory) : ∀ a n : Nat, Memory.wf m = true → (∀ e ∈ m.head?, a ≤ e.1) →
    (∀ x, a ≤ x → x < n → (memRead m x).isSome = true) → memFilled m a n = true := by
  induction m with
  | nil =>
    intro a n _ _ h
    by_contra hn
    have := h a (by omega) (by simpa [memFilled] using hn)
    simp at this
  | cons e rest ih =>
    obtain ⟨k, v⟩ := e
    intro a n hw hlo h
    simp only [memFilled, Bool.or_eq_true, Bool.and_eq_true, decide_eq_true_eq]
    by_cases hn : n ≤ a
    · exact .inl hn
    have hk : k = a := by
      by_contra hne
      have hlt : a < k := by have := hlo (k, v) rfl; omega
      have := h a (by omega) (by omega)
      rw [memRead_below _ a hw (fun e he => by cases he; exact hlt)] at this
      simp at this
    subst hk
    rw [Memory.wf_cons_iff] at hw
    refine .inr ⟨rfl, ih _ _ hw.1 (fun e he => hw.2 e he) fun x h1 h2 => ?_⟩
    have := h x (by omega) h2
    rwa [memRead, if_neg (by omega)] at this

/-- `memReadN` is `some bytes` exactly when each of the bytes is there. -/
theorem memReadN_eq_some_iff (m : Memory) : ∀ (n a : Nat) (bytes : List Byte),
    memReadN m a n = some bytes ↔ bytes.length = n ∧ ∀ j, j < n → memRead m (a + j) = bytes[j]? := by
  intro n
  induction n with
  | zero => intro a bytes; cases bytes <;> simp [memReadN]
  | succ n ih =>
    intro a bytes
    constructor
    · intro h
      unfold memReadN at h
      split at h
      · rename_i b bs hb hbs
        cases h
        obtain ⟨hl, hj⟩ := (ih _ _).1 hbs
        refine ⟨by simp [hl], fun j hjn => ?_⟩
        cases j with
        | zero => simpa using hb
        | succ j => simpa [Nat.add_assoc, Nat.add_comm 1] using hj j (by omega)
      · cases h
    · rintro ⟨hl, hj⟩
      cases bytes with
      | nil => simp at hl
      | cons b bs =>
        have h0 : memRead m a = some b := by simpa using hj 0 (by omega)
        have hr : memReadN m (a + 1) n = some bs :=
          (ih _ _).2 ⟨by simpa using hl, fun j hjn => by
            simpa [Nat.add_assoc, Nat.add_comm 1] using hj (j + 1) (by omega)⟩
        simp [memReadN, h0, hr]

/-- `memReadN` is `none` only if one of the bytes was never written. -/
theorem memReadN_isSome (m : Memory) : ∀ (n a : Nat), (∀ j, j < n → (memRead m (a + j)).isSome = true) →
    ∃ bytes, memReadN m a n = some bytes := by
  intro n
  induction n with
  | zero => intro a _; exact ⟨[], rfl⟩
  | succ n ih =>
    intro a h
    obtain ⟨b, hb⟩ := Option.isSome_iff_exists.1 (h 0 (by omega))
    obtain ⟨bs, hbs⟩ := ih (a + 1) fun j hj => by
      simpa [Nat.add_assoc, Nat.add_comm 1] using h (j + 1) (by omega)
    exact ⟨b :: bs, by simp only [Nat.add_zero] at hb; simp [memReadN, hb, hbs]⟩

/-- Reading `IN` where the bytes are known. -/
theorem memReadN_of_inHolds (s : State) (base : Nat) (bytes : List Byte) (h : InHolds s base bytes) :
    memReadN s.inMem base bytes.length = some bytes :=
  (memReadN_eq_some_iff _ _ _ _).2 ⟨rfl, h⟩

/-- And the converse. -/
theorem inHolds_of_memReadN (s : State) (base n : Nat) (bytes : List Byte)
    (h : memReadN s.inMem base n = some bytes) : bytes.length = n ∧ InHolds s base bytes := by
  obtain ⟨hl, hj⟩ := (memReadN_eq_some_iff _ _ _ _).1 h
  exact ⟨hl, fun j hjl => hj j (by omega)⟩

end Sys2Proof.Machine
end

