-- ==== Sys2Proof/Laws/State.lean ====
section
/-! SUPPORT. One lemma per field per named update of `State`, so that no later proof unfolds a record update. Where an update
writes a free value no lemma names the field. -/

namespace Sys2Proof.Machine

/-! `emit` -/

@[simp] theorem emit_config (v : List Byte) (s : State) : (emit v s).config = s.config := rfl
@[simp] theorem emit_prev (v : List Byte) (s : State) : (emit v s).prev = s.prev := rfl
@[simp] theorem emit_run (v : List Byte) (s : State) : (emit v s).run = s.run := rfl
@[simp] theorem emit_cache (v : List Byte) (s : State) : (emit v s).cache = s.cache := rfl
@[simp] theorem emit_pxPos (v : List Byte) (s : State) : (emit v s).pxPos = s.pxPos := rfl
@[simp] theorem emit_ip (v : List Byte) (s : State) : (emit v s).ip = s.ip := rfl
@[simp] theorem emit_op (v : List Byte) (s : State) : (emit v s).op = s.op + v.length := rfl
@[simp] theorem emit_width (v : List Byte) (s : State) : (emit v s).width = s.width := rfl
@[simp] theorem emit_height (v : List Byte) (s : State) : (emit v s).height = s.height := rfl
@[simp] theorem emit_channels (v : List Byte) (s : State) : (emit v s).channels = s.channels := rfl
@[simp] theorem emit_colorspace (v : List Byte) (s : State) : (emit v s).colorspace = s.colorspace := rfl
@[simp] theorem emit_inLen (v : List Byte) (s : State) : (emit v s).inLen = s.inLen := rfl
@[simp] theorem emit_outLen (v : List Byte) (s : State) : (emit v s).outLen = s.outLen := rfl
@[simp] theorem emit_mode (v : List Byte) (s : State) : (emit v s).mode = s.mode := rfl
@[simp] theorem emit_callState (v : List Byte) (s : State) : (emit v s).callState = s.callState := rfl
@[simp] theorem emit_trailerOk (v : List Byte) (s : State) : (emit v s).trailerOk = s.trailerOk := rfl
@[simp] theorem emit_err (v : List Byte) (s : State) : (emit v s).err = s.err := rfl
@[simp] theorem emit_inMem (v : List Byte) (s : State) : (emit v s).inMem = s.inMem := rfl
@[simp] theorem emit_outMem (v : List Byte) (s : State) : (emit v s).outMem = memWriteList s.outMem s.op v := rfl
@[simp] theorem emit_phase (v : List Byte) (s : State) : (emit v s).phase = s.phase := rfl
@[simp] theorem emit_written (v : List Byte) (s : State) : (emit v s).written = s.written := rfl
@[simp] theorem emit_overlap (v : List Byte) (s : State) : (emit v s).overlap = s.overlap := rfl
@[simp] theorem emit_host (v : List Byte) (s : State) : (emit v s).host = s.host := rfl
@[simp] theorem emit_hostData (v : List Byte) (s : State) : (emit v s).hostData = s.hostData := rfl
@[simp] theorem emit_freeCount (v : List Byte) (s : State) : (emit v s).freeCount = s.freeCount := rfl

/-! `cacheSet` -/

@[simp] theorem cacheSet_config (slot : Fin 64) (p : Pixel) (s : State) : (cacheSet slot p s).config = s.config := rfl
@[simp] theorem cacheSet_prev (slot : Fin 64) (p : Pixel) (s : State) : (cacheSet slot p s).prev = s.prev := rfl
@[simp] theorem cacheSet_run (slot : Fin 64) (p : Pixel) (s : State) : (cacheSet slot p s).run = s.run := rfl
@[simp] theorem cacheSet_cache (slot : Fin 64) (p : Pixel) (s : State) : (cacheSet slot p s).cache = s.cache.set slot p := rfl
@[simp] theorem cacheSet_pxPos (slot : Fin 64) (p : Pixel) (s : State) : (cacheSet slot p s).pxPos = s.pxPos := rfl
@[simp] theorem cacheSet_ip (slot : Fin 64) (p : Pixel) (s : State) : (cacheSet slot p s).ip = s.ip := rfl
@[simp] theorem cacheSet_op (slot : Fin 64) (p : Pixel) (s : State) : (cacheSet slot p s).op = s.op := rfl
@[simp] theorem cacheSet_width (slot : Fin 64) (p : Pixel) (s : State) : (cacheSet slot p s).width = s.width := rfl
@[simp] theorem cacheSet_height (slot : Fin 64) (p : Pixel) (s : State) : (cacheSet slot p s).height = s.height := rfl
@[simp] theorem cacheSet_channels (slot : Fin 64) (p : Pixel) (s : State) : (cacheSet slot p s).channels = s.channels := rfl
@[simp] theorem cacheSet_colorspace (slot : Fin 64) (p : Pixel) (s : State) : (cacheSet slot p s).colorspace = s.colorspace := rfl
@[simp] theorem cacheSet_inLen (slot : Fin 64) (p : Pixel) (s : State) : (cacheSet slot p s).inLen = s.inLen := rfl
@[simp] theorem cacheSet_outLen (slot : Fin 64) (p : Pixel) (s : State) : (cacheSet slot p s).outLen = s.outLen := rfl
@[simp] theorem cacheSet_mode (slot : Fin 64) (p : Pixel) (s : State) : (cacheSet slot p s).mode = s.mode := rfl
@[simp] theorem cacheSet_callState (slot : Fin 64) (p : Pixel) (s : State) : (cacheSet slot p s).callState = s.callState := rfl
@[simp] theorem cacheSet_trailerOk (slot : Fin 64) (p : Pixel) (s : State) : (cacheSet slot p s).trailerOk = s.trailerOk := rfl
@[simp] theorem cacheSet_err (slot : Fin 64) (p : Pixel) (s : State) : (cacheSet slot p s).err = s.err := rfl
@[simp] theorem cacheSet_inMem (slot : Fin 64) (p : Pixel) (s : State) : (cacheSet slot p s).inMem = s.inMem := rfl
@[simp] theorem cacheSet_outMem (slot : Fin 64) (p : Pixel) (s : State) : (cacheSet slot p s).outMem = s.outMem := rfl
@[simp] theorem cacheSet_phase (slot : Fin 64) (p : Pixel) (s : State) : (cacheSet slot p s).phase = s.phase := rfl
@[simp] theorem cacheSet_written (slot : Fin 64) (p : Pixel) (s : State) : (cacheSet slot p s).written = s.written := rfl
@[simp] theorem cacheSet_overlap (slot : Fin 64) (p : Pixel) (s : State) : (cacheSet slot p s).overlap = s.overlap := rfl
@[simp] theorem cacheSet_host (slot : Fin 64) (p : Pixel) (s : State) : (cacheSet slot p s).host = s.host := rfl
@[simp] theorem cacheSet_hostData (slot : Fin 64) (p : Pixel) (s : State) : (cacheSet slot p s).hostData = s.hostData := rfl
@[simp] theorem cacheSet_freeCount (slot : Fin 64) (p : Pixel) (s : State) : (cacheSet slot p s).freeCount = s.freeCount := rfl

/-! `resolve` -/

@[simp] theorem resolve_config (len : Nat) (px : Pixel) (s : State) : (resolve len px s).config = s.config := rfl
@[simp] theorem resolve_prev (len : Nat) (px : Pixel) (s : State) : (resolve len px s).prev = px := rfl
@[simp] theorem resolve_run (len : Nat) (px : Pixel) (s : State) : (resolve len px s).run = s.run := rfl
@[simp] theorem resolve_cache (len : Nat) (px : Pixel) (s : State) : (resolve len px s).cache = s.cache.set (lookup px) px := rfl
@[simp] theorem resolve_pxPos (len : Nat) (px : Pixel) (s : State) : (resolve len px s).pxPos = s.pxPos + 1 := rfl
@[simp] theorem resolve_ip (len : Nat) (px : Pixel) (s : State) : (resolve len px s).ip = s.ip + len := rfl
@[simp] theorem resolve_op (len : Nat) (px : Pixel) (s : State) : (resolve len px s).op = s.op + (pixelBytes s.channels px).length := rfl
@[simp] theorem resolve_width (len : Nat) (px : Pixel) (s : State) : (resolve len px s).width = s.width := rfl
@[simp] theorem resolve_height (len : Nat) (px : Pixel) (s : State) : (resolve len px s).height = s.height := rfl
@[simp] theorem resolve_channels (len : Nat) (px : Pixel) (s : State) : (resolve len px s).channels = s.channels := rfl
@[simp] theorem resolve_colorspace (len : Nat) (px : Pixel) (s : State) : (resolve len px s).colorspace = s.colorspace := rfl
@[simp] theorem resolve_inLen (len : Nat) (px : Pixel) (s : State) : (resolve len px s).inLen = s.inLen := rfl
@[simp] theorem resolve_outLen (len : Nat) (px : Pixel) (s : State) : (resolve len px s).outLen = s.outLen := rfl
@[simp] theorem resolve_mode (len : Nat) (px : Pixel) (s : State) : (resolve len px s).mode = s.mode := rfl
@[simp] theorem resolve_callState (len : Nat) (px : Pixel) (s : State) : (resolve len px s).callState = s.callState := rfl
@[simp] theorem resolve_trailerOk (len : Nat) (px : Pixel) (s : State) : (resolve len px s).trailerOk = s.trailerOk := rfl
@[simp] theorem resolve_err (len : Nat) (px : Pixel) (s : State) : (resolve len px s).err = s.err := rfl
@[simp] theorem resolve_inMem (len : Nat) (px : Pixel) (s : State) : (resolve len px s).inMem = s.inMem := rfl
@[simp] theorem resolve_outMem (len : Nat) (px : Pixel) (s : State) : (resolve len px s).outMem = memWriteList s.outMem s.op (pixelBytes s.channels px) := rfl
@[simp] theorem resolve_phase (len : Nat) (px : Pixel) (s : State) : (resolve len px s).phase = s.phase := rfl
@[simp] theorem resolve_written (len : Nat) (px : Pixel) (s : State) : (resolve len px s).written = s.written := rfl
@[simp] theorem resolve_overlap (len : Nat) (px : Pixel) (s : State) : (resolve len px s).overlap = s.overlap := rfl
@[simp] theorem resolve_host (len : Nat) (px : Pixel) (s : State) : (resolve len px s).host = s.host := rfl
@[simp] theorem resolve_hostData (len : Nat) (px : Pixel) (s : State) : (resolve len px s).hostData = s.hostData := rfl
@[simp] theorem resolve_freeCount (len : Nat) (px : Pixel) (s : State) : (resolve len px s).freeCount = s.freeCount := rfl

/-! `flushRun` -/

@[simp] theorem flushRun_config (s : State) : (flushRun s).config = s.config := rfl
@[simp] theorem flushRun_prev (s : State) : (flushRun s).prev = s.prev := rfl
@[simp] theorem flushRun_run (s : State) : (flushRun s).run = 0 := rfl
@[simp] theorem flushRun_cache (s : State) : (flushRun s).cache = s.cache := rfl
@[simp] theorem flushRun_pxPos (s : State) : (flushRun s).pxPos = s.pxPos := rfl
@[simp] theorem flushRun_ip (s : State) : (flushRun s).ip = s.ip := rfl
@[simp] theorem flushRun_op (s : State) : (flushRun s).op = s.op + (encode (.run s.run)).length := rfl
@[simp] theorem flushRun_width (s : State) : (flushRun s).width = s.width := rfl
@[simp] theorem flushRun_height (s : State) : (flushRun s).height = s.height := rfl
@[simp] theorem flushRun_channels (s : State) : (flushRun s).channels = s.channels := rfl
@[simp] theorem flushRun_colorspace (s : State) : (flushRun s).colorspace = s.colorspace := rfl
@[simp] theorem flushRun_inLen (s : State) : (flushRun s).inLen = s.inLen := rfl
@[simp] theorem flushRun_outLen (s : State) : (flushRun s).outLen = s.outLen := rfl
@[simp] theorem flushRun_mode (s : State) : (flushRun s).mode = s.mode := rfl
@[simp] theorem flushRun_callState (s : State) : (flushRun s).callState = s.callState := rfl
@[simp] theorem flushRun_trailerOk (s : State) : (flushRun s).trailerOk = s.trailerOk := rfl
@[simp] theorem flushRun_err (s : State) : (flushRun s).err = s.err := rfl
@[simp] theorem flushRun_inMem (s : State) : (flushRun s).inMem = s.inMem := rfl
@[simp] theorem flushRun_outMem (s : State) : (flushRun s).outMem = memWriteList s.outMem s.op (encode (.run s.run)) := rfl
@[simp] theorem flushRun_phase (s : State) : (flushRun s).phase = s.phase := rfl
@[simp] theorem flushRun_written (s : State) : (flushRun s).written = s.written := rfl
@[simp] theorem flushRun_overlap (s : State) : (flushRun s).overlap = s.overlap := rfl
@[simp] theorem flushRun_host (s : State) : (flushRun s).host = s.host := rfl
@[simp] theorem flushRun_hostData (s : State) : (flushRun s).hostData = s.hostData := rfl
@[simp] theorem flushRun_freeCount (s : State) : (flushRun s).freeCount = s.freeCount := rfl

/-! `advance` -/

@[simp] theorem advance_config (s : State) : (advance s).config = s.config := rfl
@[simp] theorem advance_prev (s : State) : (advance s).prev = s.prev := rfl
@[simp] theorem advance_run (s : State) : (advance s).run = s.run := rfl
@[simp] theorem advance_cache (s : State) : (advance s).cache = s.cache := rfl
@[simp] theorem advance_pxPos (s : State) : (advance s).pxPos = s.pxPos + 1 := rfl
@[simp] theorem advance_ip (s : State) : (advance s).ip = (s.pxPos + 1) * s.channels.toNat := rfl
@[simp] theorem advance_op (s : State) : (advance s).op = s.op := rfl
@[simp] theorem advance_width (s : State) : (advance s).width = s.width := rfl
@[simp] theorem advance_height (s : State) : (advance s).height = s.height := rfl
@[simp] theorem advance_channels (s : State) : (advance s).channels = s.channels := rfl
@[simp] theorem advance_colorspace (s : State) : (advance s).colorspace = s.colorspace := rfl
@[simp] theorem advance_inLen (s : State) : (advance s).inLen = s.inLen := rfl
@[simp] theorem advance_outLen (s : State) : (advance s).outLen = s.outLen := rfl
@[simp] theorem advance_mode (s : State) : (advance s).mode = s.mode := rfl
@[simp] theorem advance_callState (s : State) : (advance s).callState = s.callState := rfl
@[simp] theorem advance_trailerOk (s : State) : (advance s).trailerOk = s.trailerOk := rfl
@[simp] theorem advance_err (s : State) : (advance s).err = s.err := rfl
@[simp] theorem advance_inMem (s : State) : (advance s).inMem = s.inMem := rfl
@[simp] theorem advance_outMem (s : State) : (advance s).outMem = s.outMem := rfl
@[simp] theorem advance_phase (s : State) : (advance s).phase = s.phase := rfl
@[simp] theorem advance_written (s : State) : (advance s).written = s.written := rfl
@[simp] theorem advance_overlap (s : State) : (advance s).overlap = s.overlap := rfl
@[simp] theorem advance_host (s : State) : (advance s).host = s.host := rfl
@[simp] theorem advance_hostData (s : State) : (advance s).hostData = s.hostData := rfl
@[simp] theorem advance_freeCount (s : State) : (advance s).freeCount = s.freeCount := rfl

/-! `initWorking` -/

@[simp] theorem initWorking_config (s : State) : (initWorking s).config = s.config := rfl
@[simp] theorem initWorking_prev (s : State) : (initWorking s).prev = Config.prevInit := rfl
@[simp] theorem initWorking_run (s : State) : (initWorking s).run = 0 := rfl
@[simp] theorem initWorking_cache (s : State) : (initWorking s).cache = Vector.replicate 64 Config.slotInit := rfl
@[simp] theorem initWorking_pxPos (s : State) : (initWorking s).pxPos = 0 := rfl
@[simp] theorem initWorking_ip (s : State) : (initWorking s).ip = 0 := rfl
@[simp] theorem initWorking_op (s : State) : (initWorking s).op = 0 := rfl
@[simp] theorem initWorking_width (s : State) : (initWorking s).width = s.width := rfl
@[simp] theorem initWorking_height (s : State) : (initWorking s).height = s.height := rfl
@[simp] theorem initWorking_channels (s : State) : (initWorking s).channels = s.channels := rfl
@[simp] theorem initWorking_colorspace (s : State) : (initWorking s).colorspace = s.colorspace := rfl
@[simp] theorem initWorking_inLen (s : State) : (initWorking s).inLen = s.inLen := rfl
@[simp] theorem initWorking_outLen (s : State) : (initWorking s).outLen = s.outLen := rfl
@[simp] theorem initWorking_mode (s : State) : (initWorking s).mode = s.mode := rfl
@[simp] theorem initWorking_callState (s : State) : (initWorking s).callState = s.callState := rfl
@[simp] theorem initWorking_trailerOk (s : State) : (initWorking s).trailerOk = s.trailerOk := rfl
@[simp] theorem initWorking_err (s : State) : (initWorking s).err = s.err := rfl
@[simp] theorem initWorking_inMem (s : State) : (initWorking s).inMem = s.inMem := rfl
@[simp] theorem initWorking_outMem (s : State) : (initWorking s).outMem = s.outMem := rfl
@[simp] theorem initWorking_phase (s : State) : (initWorking s).phase = s.phase := rfl
@[simp] theorem initWorking_written (s : State) : (initWorking s).written = s.written := rfl
@[simp] theorem initWorking_overlap (s : State) : (initWorking s).overlap = s.overlap := rfl
@[simp] theorem initWorking_host (s : State) : (initWorking s).host = s.host := rfl
@[simp] theorem initWorking_hostData (s : State) : (initWorking s).hostData = s.hostData := rfl
@[simp] theorem initWorking_freeCount (s : State) : (initWorking s).freeCount = s.freeCount := rfl

/-! `freeWorking` -/

@[simp] theorem freeWorking_config (s : State) : (freeWorking s).config = s.config := rfl
@[simp] theorem freeWorking_width (s : State) : (freeWorking s).width = s.width := rfl
@[simp] theorem freeWorking_height (s : State) : (freeWorking s).height = s.height := rfl
@[simp] theorem freeWorking_channels (s : State) : (freeWorking s).channels = s.channels := rfl
@[simp] theorem freeWorking_colorspace (s : State) : (freeWorking s).colorspace = s.colorspace := rfl
@[simp] theorem freeWorking_inLen (s : State) : (freeWorking s).inLen = s.inLen := rfl
@[simp] theorem freeWorking_outLen (s : State) : (freeWorking s).outLen = s.outLen := rfl
@[simp] theorem freeWorking_mode (s : State) : (freeWorking s).mode = s.mode := rfl
@[simp] theorem freeWorking_callState (s : State) : (freeWorking s).callState = s.callState := rfl
@[simp] theorem freeWorking_trailerOk (s : State) : (freeWorking s).trailerOk = s.trailerOk := rfl
@[simp] theorem freeWorking_err (s : State) : (freeWorking s).err = s.err := rfl
@[simp] theorem freeWorking_inMem (s : State) : (freeWorking s).inMem = s.inMem := rfl
@[simp] theorem freeWorking_outMem (s : State) : (freeWorking s).outMem = [] := rfl
@[simp] theorem freeWorking_phase (s : State) : (freeWorking s).phase = s.phase := rfl
@[simp] theorem freeWorking_written (s : State) : (freeWorking s).written = s.written := rfl
@[simp] theorem freeWorking_overlap (s : State) : (freeWorking s).overlap = s.overlap := rfl
@[simp] theorem freeWorking_host (s : State) : (freeWorking s).host = s.host := rfl
@[simp] theorem freeWorking_hostData (s : State) : (freeWorking s).hostData = s.hostData := rfl
@[simp] theorem freeWorking_freeCount (s : State) : (freeWorking s).freeCount = s.freeCount + 1 := rfl

/-! `Written.setDescriptor` -/

@[simp] theorem setDescriptor_inLen (b : Bool) (w : Written) : (w.setDescriptor b).inLen = w.inLen := rfl
@[simp] theorem setDescriptor_width (b : Bool) (w : Written) : (w.setDescriptor b).width = b := rfl
@[simp] theorem setDescriptor_height (b : Bool) (w : Written) : (w.setDescriptor b).height = b := rfl
@[simp] theorem setDescriptor_channels (b : Bool) (w : Written) : (w.setDescriptor b).channels = b := rfl
@[simp] theorem setDescriptor_colorspace (b : Bool) (w : Written) : (w.setDescriptor b).colorspace = b := rfl

/-! `freeDescriptor` -/

@[simp] theorem freeDescriptor_config (s : State) : (freeDescriptor s).config = s.config := rfl
@[simp] theorem freeDescriptor_prev (s : State) : (freeDescriptor s).prev = s.prev := rfl
@[simp] theorem freeDescriptor_run (s : State) : (freeDescriptor s).run = s.run := rfl
@[simp] theorem freeDescriptor_cache (s : State) : (freeDescriptor s).cache = s.cache := rfl
@[simp] theorem freeDescriptor_pxPos (s : State) : (freeDescriptor s).pxPos = s.pxPos := rfl
@[simp] theorem freeDescriptor_ip (s : State) : (freeDescriptor s).ip = s.ip := rfl
@[simp] theorem freeDescriptor_op (s : State) : (freeDescriptor s).op = s.op := rfl
@[simp] theorem freeDescriptor_inLen (s : State) : (freeDescriptor s).inLen = s.inLen := rfl
@[simp] theorem freeDescriptor_outLen (s : State) : (freeDescriptor s).outLen = s.outLen := rfl
@[simp] theorem freeDescriptor_mode (s : State) : (freeDescriptor s).mode = s.mode := rfl
@[simp] theorem freeDescriptor_callState (s : State) : (freeDescriptor s).callState = s.callState := rfl
@[simp] theorem freeDescriptor_trailerOk (s : State) : (freeDescriptor s).trailerOk = s.trailerOk := rfl
@[simp] theorem freeDescriptor_err (s : State) : (freeDescriptor s).err = s.err := rfl
@[simp] theorem freeDescriptor_inMem (s : State) : (freeDescriptor s).inMem = s.inMem := rfl
@[simp] theorem freeDescriptor_outMem (s : State) : (freeDescriptor s).outMem = s.outMem := rfl
@[simp] theorem freeDescriptor_phase (s : State) : (freeDescriptor s).phase = s.phase := rfl
@[simp] theorem freeDescriptor_written (s : State) : (freeDescriptor s).written = s.written.setDescriptor false := rfl
@[simp] theorem freeDescriptor_overlap (s : State) : (freeDescriptor s).overlap = s.overlap := rfl
@[simp] theorem freeDescriptor_host (s : State) : (freeDescriptor s).host = s.host := rfl
@[simp] theorem freeDescriptor_hostData (s : State) : (freeDescriptor s).hostData = s.hostData := rfl
@[simp] theorem freeDescriptor_freeCount (s : State) : (freeDescriptor s).freeCount = s.freeCount + 1 := rfl

/-! `clearStatus` -/

@[simp] theorem clearStatus_config (s : State) : (clearStatus s).config = s.config := rfl
@[simp] theorem clearStatus_prev (s : State) : (clearStatus s).prev = s.prev := rfl
@[simp] theorem clearStatus_run (s : State) : (clearStatus s).run = s.run := rfl
@[simp] theorem clearStatus_cache (s : State) : (clearStatus s).cache = s.cache := rfl
@[simp] theorem clearStatus_pxPos (s : State) : (clearStatus s).pxPos = s.pxPos := rfl
@[simp] theorem clearStatus_ip (s : State) : (clearStatus s).ip = s.ip := rfl
@[simp] theorem clearStatus_op (s : State) : (clearStatus s).op = s.op := rfl
@[simp] theorem clearStatus_width (s : State) : (clearStatus s).width = s.width := rfl
@[simp] theorem clearStatus_height (s : State) : (clearStatus s).height = s.height := rfl
@[simp] theorem clearStatus_channels (s : State) : (clearStatus s).channels = s.channels := rfl
@[simp] theorem clearStatus_colorspace (s : State) : (clearStatus s).colorspace = s.colorspace := rfl
@[simp] theorem clearStatus_inLen (s : State) : (clearStatus s).inLen = s.inLen := rfl
@[simp] theorem clearStatus_outLen (s : State) : (clearStatus s).outLen = 0 := rfl
@[simp] theorem clearStatus_mode (s : State) : (clearStatus s).mode = s.mode := rfl
@[simp] theorem clearStatus_callState (s : State) : (clearStatus s).callState = .idle := rfl
@[simp] theorem clearStatus_trailerOk (s : State) : (clearStatus s).trailerOk = false := rfl
@[simp] theorem clearStatus_err (s : State) : (clearStatus s).err = .none := rfl
@[simp] theorem clearStatus_inMem (s : State) : (clearStatus s).inMem = s.inMem := rfl
@[simp] theorem clearStatus_outMem (s : State) : (clearStatus s).outMem = [] := rfl
@[simp] theorem clearStatus_phase (s : State) : (clearStatus s).phase = s.phase := rfl
@[simp] theorem clearStatus_written (s : State) : (clearStatus s).written = s.written := rfl
@[simp] theorem clearStatus_overlap (s : State) : (clearStatus s).overlap = s.overlap := rfl
@[simp] theorem clearStatus_host (s : State) : (clearStatus s).host = s.host := rfl
@[simp] theorem clearStatus_hostData (s : State) : (clearStatus s).hostData = s.hostData := rfl
@[simp] theorem clearStatus_freeCount (s : State) : (clearStatus s).freeCount = s.freeCount := rfl

/-! `freeDecodeResult` -/

@[simp] theorem freeDecodeResult_config (s : State) : (freeDecodeResult s).config = s.config := by
  cases h : s.mode <;> simp [freeDecodeResult, h]
@[simp] theorem freeDecodeResult_prev (s : State) : (freeDecodeResult s).prev = s.prev := by
  cases h : s.mode <;> simp [freeDecodeResult, h]
@[simp] theorem freeDecodeResult_run (s : State) : (freeDecodeResult s).run = s.run := by
  cases h : s.mode <;> simp [freeDecodeResult, h]
@[simp] theorem freeDecodeResult_cache (s : State) : (freeDecodeResult s).cache = s.cache := by
  cases h : s.mode <;> simp [freeDecodeResult, h]
@[simp] theorem freeDecodeResult_pxPos (s : State) : (freeDecodeResult s).pxPos = s.pxPos := by
  cases h : s.mode <;> simp [freeDecodeResult, h]
@[simp] theorem freeDecodeResult_ip (s : State) : (freeDecodeResult s).ip = s.ip := by
  cases h : s.mode <;> simp [freeDecodeResult, h]
@[simp] theorem freeDecodeResult_op (s : State) : (freeDecodeResult s).op = s.op := by
  cases h : s.mode <;> simp [freeDecodeResult, h]
@[simp] theorem freeDecodeResult_inLen (s : State) : (freeDecodeResult s).inLen = s.inLen := by
  cases h : s.mode <;> simp [freeDecodeResult, h]
@[simp] theorem freeDecodeResult_outLen (s : State) : (freeDecodeResult s).outLen = s.outLen := by
  cases h : s.mode <;> simp [freeDecodeResult, h]
@[simp] theorem freeDecodeResult_mode (s : State) : (freeDecodeResult s).mode = s.mode := by
  cases h : s.mode <;> simp [freeDecodeResult, h]
@[simp] theorem freeDecodeResult_callState (s : State) : (freeDecodeResult s).callState = s.callState := by
  cases h : s.mode <;> simp [freeDecodeResult, h]
@[simp] theorem freeDecodeResult_trailerOk (s : State) : (freeDecodeResult s).trailerOk = s.trailerOk := by
  cases h : s.mode <;> simp [freeDecodeResult, h]
@[simp] theorem freeDecodeResult_err (s : State) : (freeDecodeResult s).err = s.err := by
  cases h : s.mode <;> simp [freeDecodeResult, h]
@[simp] theorem freeDecodeResult_inMem (s : State) : (freeDecodeResult s).inMem = s.inMem := by
  cases h : s.mode <;> simp [freeDecodeResult, h]
@[simp] theorem freeDecodeResult_outMem (s : State) : (freeDecodeResult s).outMem = s.outMem := by
  cases h : s.mode <;> simp [freeDecodeResult, h]
@[simp] theorem freeDecodeResult_phase (s : State) : (freeDecodeResult s).phase = s.phase := by
  cases h : s.mode <;> simp [freeDecodeResult, h]
@[simp] theorem freeDecodeResult_encode_written (s : State) (h : s.mode = .encode) :
    (freeDecodeResult s).written = s.written := by simp [freeDecodeResult, h]
@[simp] theorem freeDecodeResult_decode_written (s : State) (h : s.mode = .decode) :
    (freeDecodeResult s).written = s.written.setDescriptor false := by simp [freeDecodeResult, h]
@[simp] theorem freeDecodeResult_written_inLen (s : State) : (freeDecodeResult s).written.inLen = s.written.inLen := by
  cases h : s.mode <;> simp [h]
@[simp] theorem freeDecodeResult_overlap (s : State) : (freeDecodeResult s).overlap = s.overlap := by
  cases h : s.mode <;> simp [freeDecodeResult, h]
@[simp] theorem freeDecodeResult_host (s : State) : (freeDecodeResult s).host = s.host := by
  cases h : s.mode <;> simp [freeDecodeResult, h]
@[simp] theorem freeDecodeResult_hostData (s : State) : (freeDecodeResult s).hostData = s.hostData := by
  cases h : s.mode <;> simp [freeDecodeResult, h]

/-! `raise` -/

@[simp] theorem raise_config (e : ErrCode) (s : State) : (raise e s).config = s.config := by simp [raise]
@[simp] theorem raise_inLen (e : ErrCode) (s : State) : (raise e s).inLen = s.inLen := by simp [raise]
@[simp] theorem raise_outLen (e : ErrCode) (s : State) : (raise e s).outLen = 0 := rfl
@[simp] theorem raise_mode (e : ErrCode) (s : State) : (raise e s).mode = s.mode := by simp [raise]
@[simp] theorem raise_callState (e : ErrCode) (s : State) : (raise e s).callState = .error := rfl
@[simp] theorem raise_trailerOk (e : ErrCode) (s : State) : (raise e s).trailerOk = false := rfl
@[simp] theorem raise_err (e : ErrCode) (s : State) : (raise e s).err = e := rfl
@[simp] theorem raise_inMem (e : ErrCode) (s : State) : (raise e s).inMem = s.inMem := by simp [raise]
@[simp] theorem raise_outMem (e : ErrCode) (s : State) : (raise e s).outMem = [] := by simp [raise]
@[simp] theorem raise_phase (e : ErrCode) (s : State) : (raise e s).phase = s.phase := by simp [raise]
@[simp] theorem raise_encode_written (e : ErrCode) (s : State) (h : s.mode = .encode) :
    (raise e s).written = s.written := by simp [raise, h]
@[simp] theorem raise_written_inLen (e : ErrCode) (s : State) : (raise e s).written.inLen = s.written.inLen := by
  simp [raise]
@[simp] theorem raise_decode_written (e : ErrCode) (s : State) (h : s.mode = .decode) :
    (raise e s).written = s.written.setDescriptor false := by simp [raise, h]
@[simp] theorem raise_overlap (e : ErrCode) (s : State) : (raise e s).overlap = s.overlap := by simp [raise]
@[simp] theorem raise_host (e : ErrCode) (s : State) : (raise e s).host = s.host := by simp [raise]
@[simp] theorem raise_hostData (e : ErrCode) (s : State) : (raise e s).hostData = s.hostData := by simp [raise]

/-! `startCall` -/

@[simp] theorem startCall_config (m : Mode) (s : State) : (startCall m s).config = s.config := by
  simp [startCall]
@[simp] theorem startCall_prev (m : Mode) (s : State) : (startCall m s).prev = Config.prevInit := by
  simp [startCall]
@[simp] theorem startCall_run (m : Mode) (s : State) : (startCall m s).run = 0 := by
  simp [startCall]
@[simp] theorem startCall_cache (m : Mode) (s : State) : (startCall m s).cache = Vector.replicate 64 Config.slotInit := by
  simp [startCall]
@[simp] theorem startCall_pxPos (m : Mode) (s : State) : (startCall m s).pxPos = 0 := by
  simp [startCall]
@[simp] theorem startCall_ip (m : Mode) (s : State) : (startCall m s).ip = 0 := by
  simp [startCall]
@[simp] theorem startCall_op (m : Mode) (s : State) : (startCall m s).op = 0 := by
  simp [startCall]
@[simp] theorem startCall_inLen (m : Mode) (s : State) : (startCall m s).inLen = s.inLen := by
  simp [startCall]
@[simp] theorem startCall_outLen (m : Mode) (s : State) : (startCall m s).outLen = 0 := by
  simp [startCall]
@[simp] theorem startCall_mode (m : Mode) (s : State) : (startCall m s).mode = m := by
  simp [startCall]
@[simp] theorem startCall_callState (m : Mode) (s : State) : (startCall m s).callState = .busy := by
  simp [startCall]
@[simp] theorem startCall_trailerOk (m : Mode) (s : State) : (startCall m s).trailerOk = false := by
  simp [startCall]
@[simp] theorem startCall_err (m : Mode) (s : State) : (startCall m s).err = .none := by
  simp [startCall]
@[simp] theorem startCall_inMem (m : Mode) (s : State) : (startCall m s).inMem = s.inMem := by
  simp [startCall]
@[simp] theorem startCall_outMem (m : Mode) (s : State) : (startCall m s).outMem = [] := by
  simp [startCall]
@[simp] theorem startCall_encode_written (s : State) : (startCall .encode s).written = s.written := rfl
@[simp] theorem startCall_decode_written (s : State) :
    (startCall .decode s).written = s.written.setDescriptor false := rfl
@[simp] theorem startCall_overlap (m : Mode) (s : State) : (startCall m s).overlap = s.overlap := by
  simp [startCall]
@[simp] theorem startCall_host (m : Mode) (s : State) : (startCall m s).host = s.host := by
  simp [startCall]
@[simp] theorem startCall_hostData (m : Mode) (s : State) : (startCall m s).hostData = s.hostData := by
  simp [startCall]

@[simp] theorem startCall_encode_phase (s : State) : (startCall .encode s).phase = .check := by simp [startCall]
@[simp] theorem startCall_decode_phase (s : State) : (startCall .decode s).phase = .header := by simp [startCall]

@[simp] theorem startCall_encode_width (s : State) : (startCall .encode s).width = s.width := rfl
@[simp] theorem raise_encode_width (e : ErrCode) (s : State) (h : s.mode = .encode) :
    (raise e s).width = s.width := by simp [raise, freeDecodeResult, h]
@[simp] theorem startCall_encode_height (s : State) : (startCall .encode s).height = s.height := rfl
@[simp] theorem raise_encode_height (e : ErrCode) (s : State) (h : s.mode = .encode) :
    (raise e s).height = s.height := by simp [raise, freeDecodeResult, h]
@[simp] theorem startCall_encode_channels (s : State) : (startCall .encode s).channels = s.channels := rfl
@[simp] theorem raise_encode_channels (e : ErrCode) (s : State) (h : s.mode = .encode) :
    (raise e s).channels = s.channels := by simp [raise, freeDecodeResult, h]
@[simp] theorem startCall_encode_colorspace (s : State) : (startCall .encode s).colorspace = s.colorspace := rfl
@[simp] theorem raise_encode_colorspace (e : ErrCode) (s : State) (h : s.mode = .encode) :
    (raise e s).colorspace = s.colorspace := by simp [raise, freeDecodeResult, h]

end Sys2Proof.Machine
end

