-- ==== Sys2Proof/Laws/Ops.lean ====
section
/-! SUPPORT. One lemma per shared operation that says once everything it can do. -/

namespace Sys2Proof.Machine

/-- `Emit` (00_scope.md R12). -/
theorem emit_stored (v : List Byte) (s : State) : Stored s (emit v s) s.op v := fun a =>
  memRead_memWriteList v s.outMem s.op a

/-- One emission after another is the emission of both. -/
theorem emit_emit (v w : List Byte) (s : State) : emit w (emit v s) = emit (v ++ w) s := by
  simp [emit, memWriteList_append, Nat.add_assoc]

theorem emit_control (v : List Byte) (s : State) : SameControl s (emit v s) := by
  constructor <;> rfl

theorem SameControl.refl (s : State) : SameControl s s := by constructor <;> rfl

theorem SameControl.trans {s t u : State} (h : SameControl s t) (k : SameControl t u) : SameControl s u := by
  cases h; cases k; constructor <;> simp_all

/-- `cache[slot] <- p` read back (41_index_cache.md R131, R132). -/
theorem cache_set_get (v : Vector Pixel 64) (i j : Fin 64) (p : Pixel) :
    (v.set i p)[j] = if i = j then p else v[j] := by
  rw [Fin.getElem_fin, Vector.getElem_set]
  simp [Fin.ext_iff]

/-- The tail of a decoded chunk does all of `Resolves` (43_decoder.md R180, R181). -/
theorem resolve_resolves (len : Nat) (px : Pixel) (s : State) : Resolves s (resolve len px s) px len where
  ip := rfl
  prev := rfl
  written := by rw [resolve_cache, cache_set_get, if_pos rfl]
  others := fun slot h => by rw [resolve_cache, cache_set_get, if_neg (Ne.symm h)]
  pxPos := rfl
  op := by simp [pixelSize]
  out := fun a => by
    simp only [outByte, resolve_outMem, memRead_memWriteList]
    rfl
  run := rfl
  control := by constructor <;> rfl

/-- Taking an error does all of `ErrorEntered` (60_exceptions.md R232). -/
theorem raise_errorEntered (e : ErrCode) (s : State) : ErrorEntered e s (raise e s) where
  callState := rfl
  err := rfl
  outLen := rfl
  trailerOk := rfl
  descriptor := fun h => by simp [h]
  written := fun h => by simp [h]
  lenWritten := by simp
  config := by simp
  inLen := by simp
  inMem := by simp
  mode := by simp
  overlap := by simp
  host := by simp
  hostData := by simp

/-- The bytes a RUN chunk writes, as the statements spell them. -/
theorem runBytes_eq (c : Byte) (p : Pixel) (k : Nat) :
    repeatBytes c p k =
      (List.replicate k (if c = 4#8 then [p.r, p.g, p.b, p.a] else [p.r, p.g, p.b])).flatten :=
  repeatBytes_eq c p k

/-- The encoder's pending run, flushed (42_encoder.md R144). -/
theorem flush_pending (s : State) :
    (if s.run > 0 then flushRun s else s) = { emit (pendingRun s) s with run := 0 } := by
  unfold pendingRun
  split
  · rw [if_neg (by omega)]; rfl
  · rename_i h
    have h0 : s.run = 0 := by omega
    simp [h0, emit, memWriteList]
    cases s; simp_all

/-- The chunk the encoder picks for a pixel that breaks the run (42_encoder.md R153). -/
def pickedChunk (px : Pixel) (s : State) : Instr :=
  if s.cache[lookup px] = px then .index (lookup px) else missChunk px s.prev

/-- A pixel that breaks the run (42_encoder.md R144, R146 to R154): what is emitted, what the cache and `prev` become. -/
theorem breakRun_encoded (px : Pixel) (s : State) :
    PixelEncoded s (breakRun px s) px (encode (pickedChunk px s)) ∧
      (breakRun px s).cache = s.cache.set (lookup px) px := by
  unfold breakRun
  simp only [flush_pending]
  by_cases h : s.cache[lookup px] = px
  · have hset : s.cache.set (lookup px) px = s.cache := by
      apply Vector.ext
      intro i hi
      rw [Vector.getElem_set]
      split
      · rename_i h1; subst h1; exact h.symm
      · rfl
    have he : emitPixel px { emit (pendingRun s) s with run := 0 } =
        emit (encode (.index (lookup px))) { emit (pendingRun s) s with run := 0 } := by
      show (if hit px s.cache = true then _ else _) = _
      rw [if_pos (by simpa using h)]
    rw [he, pickedChunk, if_pos h]
    refine ⟨⟨rfl, rfl, rfl, rfl, ?_, ?_, ?_⟩, hset.symm⟩
    · simp
    · intro a
      rw [← emit_stored (pendingRun s ++ _) s a, ← emit_emit]; rfl
    · constructor <;> rfl
  · have he : emitPixel px { emit (pendingRun s) s with run := 0 } =
        emit (encode (missChunk px s.prev)) (cacheSet (lookup px) px { emit (pendingRun s) s with run := 0 }) := by
      show (if hit px s.cache = true then _ else _) = _
      rw [if_neg (by simpa using h)]
      rfl
    rw [he, pickedChunk, if_neg h]
    refine ⟨⟨rfl, rfl, rfl, rfl, ?_, ?_, ?_⟩, rfl⟩
    · simp
    · intro a
      rw [← emit_stored (pendingRun s ++ _) s a, ← emit_emit]; rfl
    · constructor <;> rfl

/-- The pixel fetch reads the pixel that is there (42_encoder.md R141). -/
theorem fetchPixel_of_pixelAtCursor (s : State) (px : Pixel) (h : PixelAtCursor s px) : fetchPixel s = some px := by
  rcases h with ⟨hc, h⟩ | ⟨hc, h, ha⟩
  · have := memReadN_of_inHolds _ _ _ h
    simp only [List.length_cons, List.length_nil] at this
    simp [fetchPixel, hc, pixelSize, this, pixelOfBytes]
  · have := memReadN_of_inHolds _ _ _ h
    simp only [List.length_cons, List.length_nil] at this
    simp [fetchPixel, hc, pixelSize, this, pixelOfBytes, ← ha]

end Sys2Proof.Machine
end

