-- ==== Sys2Proof/Laws/Engine.lean ====
section
/-! SUPPORT. Everything a step can do: one inversion lemma for the engine (`engineStep_to`) and one for the host's moves
(`hostMove_to`), from which frames and invariants follow case by case. -/

namespace Sys2Proof.Machine

/-- A call is running in the given direction and phase. -/
structure InPhase (m : Mode) (p : Phase) (s : State) : Prop where
  busy : s.callState = .busy
  mode : s.mode = m
  phase : s.phase = p

/-- The state after an ENCODE closed (42_encoder.md R155, R158). -/
def encodeClosedState (s : State) : State :=
  { emit (pendingRun s ++ Config.endMarker) s with
    run := 0
    outLen := s.op + (pendingRun s).length + 8
    callState := .done }

/-- The state after a RUN chunk of `k` pixels (43_decoder.md R177). -/
def repeatedState (k : Nat) (s : State) : State :=
  { emit (repeatBytes s.channels s.prev k) s with pxPos := s.pxPos + k, ip := s.ip + 1 }

/-- Which errors a running call can raise, and where (60_exceptions.md R230, R231). -/
def Raises (e : ErrCode) (s : State) : Prop :=
  match s.mode with
  | .encode => s.phase = .check ∧ (e = .invalidDescriptor ∨ e = .dataLengthMismatch)
  | .decode => e ≠ .none ∧ e ≠ .dataLengthMismatch

theorem raises_decode {e : ErrCode} {s : State} (hm : s.mode = .decode) (he : e ≠ .none) (hd : e ≠ .dataLengthMismatch) :
    Raises e s := by
  simp [Raises, hm, he, hd]

theorem raises_encode {e : ErrCode} {s : State} (hm : s.mode = .encode) (hp : s.phase = .check)
    (he : e = .invalidDescriptor ∨ e = .dataLengthMismatch) : Raises e s := by
  simp [Raises, hm, hp, he]

theorem raises_ne_none {e : ErrCode} {s : State} (h : Raises e s) : e ≠ .none := by
  unfold Raises at h
  split at h
  · rcases h with ⟨_, rfl | rfl⟩ <;> simp
  · exact h.1

/-- Everything a step of the engine can do when it answers a next state. -/
inductive EngineTo (s : State) : State → Prop
  | halted (h : s.callState ≠ .busy) : EngineTo s s
  | raised (e : ErrCode) (hb : s.callState = .busy) (he : Raises e s) : EngineTo s (raise e s)
  | encodeChecked (h : InPhase .encode .check s) (hd : descriptorOk s) (hl : rawLen s = s.inLen.toNat) :
      EngineTo s { s with phase := .header }
  | headerEmitted (h : InPhase .encode .header s) :
      EngineTo s
        { emit (headerBytes s.config.magic s.width s.height s.channels s.colorspace) (initWorking s) with
          phase := .loop }
  | joined (h : InPhase .encode .loop s) (ho : s.pxPos < pixelCount s) (hf : fetchPixel s = some s.prev) :
      EngineTo s (joinRun s)
  | broke (px : Pixel) (h : InPhase .encode .loop s) (ho : s.pxPos < pixelCount s) (hf : fetchPixel s = some px)
      (hp : px ≠ s.prev) : EngineTo s (breakRun px s)
  | encodeClosed (h : InPhase .encode .loop s) (ho : pixelCount s ≤ s.pxPos) : EngineTo s (encodeClosedState s)
  | headerParsed (w ht : BitVec 32) (c cs : Byte) (h : InPhase .decode .header s) (hl : 14 ≤ s.inLen.toNat)
      (hd : validDescriptor w ht c cs = true) :
      EngineTo s
        { s with
          width := w
          height := ht
          channels := c
          colorspace := cs
          written := s.written.setDescriptor true
          ip := 14
          phase := .check }
  | decodeChecked (h : InPhase .decode .check s) (hs : rawLen s ≤ s.config.maxOutBytes) :
      EngineTo s { initWorking s with ip := s.ip, phase := .loop }
  | resolved (len : Nat) (px : Pixel) (h : InPhase .decode .loop s) (ho : s.pxPos < pixelCount s) (h1 : 1 ≤ len)
      (hl : s.ip + len ≤ s.inLen.toNat) : EngineTo s (resolve len px s)
  | repeated (k : Nat) (h : InPhase .decode .loop s) (ho : s.pxPos < pixelCount s) (h1 : 1 ≤ k)
      (hk : s.pxPos + k ≤ pixelCount s) (hl : s.ip + 1 ≤ s.inLen.toNat) : EngineTo s (repeatedState k s)
  | decodeClosed (ok : Bool) (h : InPhase .decode .loop s) (ho : pixelCount s ≤ s.pxPos) (hk : trailerTest s = some ok) :
      EngineTo s { s with trailerOk := ok, outLen := s.op, callState := .done }

theorem engineStep_not_busy {s : State} (h : s.callState ≠ .busy) : engineStep s = .next s := by
  cases hc : s.callState <;> simp_all [engineStep]

theorem encodeClose_eq (s : State) : encodeClose s = .next (encodeClosedState s) := by
  unfold encodeClosedState
  rw [← emit_emit]
  show Host.Outcome.next _ = _
  rw [show (if s.run > 0 then { emit (encode (.run s.run)) s with run := 0 } else s) =
    { emit (pendingRun s) s with run := 0 } from flush_pending s]
  rfl

theorem owed_false_iff (s : State) : ¬ owed s = true ↔ pixelCount s ≤ s.pxPos := by simp [owed]

/-- What a chunk fetch can yield (43_decoder.md R172, R173, R183): at most the bytes left below `IN_LEN`. -/
theorem fetchBytes_some {s : State} {bytes : List Byte} (h : fetchBytes s = some bytes) :
    bytes.length ≤ s.inLen.toNat - s.ip ∧ InHolds s s.ip bytes := by
  unfold fetchBytes at h
  simp only at h
  split at h
  · rename_i hc
    obtain ⟨hl, hh⟩ := inHolds_of_memReadN _ _ _ _ h
    exact ⟨by omega, hh⟩
  · split at h
    · cases h; exact ⟨by simp, fun j hj => by simp at hj⟩
    · split at h
      · cases h
      · obtain ⟨hl, hh⟩ := inHolds_of_memReadN _ _ _ _ h
        exact ⟨by omega, hh⟩

/-- One inversion lemma for the chunk loop. -/
theorem decodeStep_to {s t : State} (hp : InPhase .decode .loop s) (ho : s.pxPos < pixelCount s)
    (h : decodeStep s = .next t) : EngineTo s t := by
  unfold decodeStep at h
  split at h
  · cases h
  · rename_i bytes hf
    obtain ⟨hlen, _⟩ := fetchBytes_some hf
    split at h
    · rename_i i rest hd
      rcases decode_ok hd with ⟨hdet, rfl, _⟩ | hd
      · simp only [exec, execEnd, (owed_iff s).2 ho, hdet, if_true] at h
        cases h
        exact .raised _ hp.busy (raises_decode hp.mode (by simp) (by simp))
      · obtain ⟨hw, hne, hb⟩ := decodeChunk_ok hd
        have hl : s.ip + (encode i).length ≤ s.inLen.toNat := by
          have := chunkLength_le hne
          rw [hb, List.length_append] at hlen
          rw [encode_length] at *
          omega
        cases i with
        | endMarker => exact absurd rfl hne
        | run count =>
          simp [Instr.WellFormed, Instr.wellFormed] at hw
          cases h
          exact .repeated (clippedCount count s) hp ho (by unfold clippedCount; omega) (by unfold clippedCount; omega) hl
        | rgb r g b => cases h; exact .resolved _ _ hp ho (by omega) hl
        | rgba r g b a => cases h; exact .resolved _ _ hp ho (by omega) hl
        | index slot => cases h; exact .resolved _ _ hp ho (by omega) hl
        | diff dr dg db => cases h; exact .resolved _ _ hp ho (by omega) hl
        | luma dg a b => cases h; exact .resolved _ _ hp ho (by omega) hl
    · cases h
      exact .raised _ hp.busy (raises_decode hp.mode (by simp) (by simp))

/-- One inversion lemma for the header read. -/
theorem decodeHeader_to {s t : State} (hp : InPhase .decode .header s) (h : decodeHeader s = .next t) :
    EngineTo s t := by
  unfold decodeHeader at h
  split at h
  · cases h; exact .raised _ hp.busy (raises_decode hp.mode (by simp) (by simp))
  · rename_i hl
    split at h
    · cases h
    · split at h
      · cases h; exact .raised _ hp.busy (raises_decode hp.mode (by simp) (by simp))
      · rename_i hdr _
        cases h
        unfold acceptHeader
        split
        · exact .raised _ hp.busy (raises_decode hp.mode (by simp) (by simp))
        · split
          · exact .raised _ hp.busy (raises_decode hp.mode (by simp) (by simp))
          · rename_i hz
            split
            · exact .raised _ hp.busy (raises_decode hp.mode (by simp) (by simp))
            · rename_i hc
              split
              · exact .raised _ hp.busy (raises_decode hp.mode (by simp) (by simp))
              · rename_i hcs
                obtain ⟨hw, hh⟩ := not_or.1 hz
                refine .headerParsed _ _ _ _ hp (by simpa [Config.hdrLen] using hl) ((validDescriptor_iff _ _ _ _).2 ?_)
                exact ⟨Nat.pos_of_ne_zero fun h => hw (BitVec.eq_of_toNat_eq (by simpa using h)),
                  Nat.pos_of_ne_zero fun h => hh (BitVec.eq_of_toNat_eq (by simpa using h)), by tauto, by tauto⟩

/-- Everything a step of the engine can do. -/
theorem engineStep_to {s t : State} (h : engineStep s = .next t) : EngineTo s t := by
  by_cases hb : s.callState = .busy
  · simp only [engineStep, hb] at h
    split at h
    · rename_i hm
      unfold encodeCall at h
      split at h
      · rename_i hph
        unfold encodeCheck at h
        split at h
        · cases h; exact .raised _ hb (raises_encode hm hph (by simp))
        · rename_i hv
          split at h
          · cases h; exact .raised _ hb (raises_encode hm hph (by simp))
          · rename_i hl
            cases h
            exact .encodeChecked ⟨hb, hm, hph⟩ (by simpa using hv) (by simpa using hl)
      · rename_i hph
        cases h
        exact .headerEmitted ⟨hb, hm, hph⟩
      · rename_i hph
        split at h
        · rename_i ho
          rw [owed_iff] at ho
          unfold encodePixel at h
          split at h
          · cases h
          · rename_i px hf
            split at h
            · rename_i hs
              rw [same_iff] at hs; subst hs
              cases h
              exact .joined ⟨hb, hm, hph⟩ ho hf
            · rename_i hs
              cases h
              exact .broke _ ⟨hb, hm, hph⟩ ho hf (by simpa using hs)
        · rename_i ho
          rw [encodeClose_eq] at h
          cases h
          exact .encodeClosed ⟨hb, hm, hph⟩ ((owed_false_iff s).1 ho)
    · rename_i hm
      unfold decodeCall at h
      split at h
      · rename_i hph
        exact decodeHeader_to ⟨hb, hm, hph⟩ h
      · rename_i hph
        unfold decodeCheck at h
        split at h
        · cases h; exact .raised _ hb (raises_decode hm (by simp) (by simp))
        · rename_i hl
          cases h
          exact .decodeChecked ⟨hb, hm, hph⟩ (by omega)
      · rename_i hph
        split at h
        · rename_i ho
          exact decodeStep_to ⟨hb, hm, hph⟩ ((owed_iff s).1 ho) h
        · rename_i ho
          unfold decodeClose at h
          split at h
          · cases h
          · rename_i ok hk
            cases h
            exact .decodeClosed ok ⟨hb, hm, hph⟩ ((owed_false_iff s).1 ho) hk
  · rw [engineStep_not_busy hb] at h
    cases h
    exact .halted hb

/-- Everything a move of the host can do when it answers a next state. -/
inductive HostTo (m : HostMove) (s : State) : State → Prop
  /-- The engine steps; while it is being awaited the move stays at the front. -/
  | engine (moves : List HostMove) (hm : m = .letRun ∨ m = .await) (t : State)
      (h : EngineTo { s with host := moves } t) : HostTo m s t
  | nothing : HostTo m s s
  | wroteDescriptor (w ht : BitVec 32) (c cs : Byte) (flags : Written) (hb : s.callState ≠ .busy) :
      HostTo m s { s with width := w, height := ht, channels := c, colorspace := cs, written := flags }
  | wroteInput (a : Nat) (b : Byte) (hm : m = .writeIn a b) (hb : s.callState ≠ .busy) :
      HostTo m s { s with inMem := memWrite s.inMem a b }
  | wroteControl (n : BitVec 64) (md : Mode) (o : Bool) (flags : Written) (hb : s.callState ≠ .busy) :
      HostTo m s { s with inLen := n, mode := md, overlap := o, written := flags }
  | started (v : BitVec 2) (hm : m = .writeCtrl v) (hv : ctrlStart v = true) (hb : s.callState ≠ .busy)
      (ho : s.overlap = false) (hw : inputsWritten (ctrlMode v) s = true) : HostTo m s (startCall (ctrlMode v) s)
  | aborted (hm : m = .writeAbort 1#1) : HostTo m s (abortCall s)
  | read (n : Nat) : HostTo m s { s with hostData := n }

theorem hostWrite_next {s' s t : State} (h : hostWrite s' s = .next t) : s.callState ≠ .busy ∧ t = s' := by
  unfold hostWrite at h
  split at h
  · cases h
  · rename_i hb
    cases h
    exact ⟨by simpa [isBusy] using hb, rfl⟩

/-- What START asks of the host's inputs (70_reset_and_hazards.md R252; log 23). -/
theorem inputsWritten_iff (m : Mode) {s : State} (hw : Memory.wf s.inMem = true) :
    inputsWritten m s = true ↔ s.written.inLen = true ∧ InputFilled s ∧
      (m = .encode → s.written.width = true ∧ s.written.height = true ∧ s.written.channels = true ∧
        s.written.colorspace = true) := by
  have hf : memFilled s.inMem 0 s.inLen.toNat = true ↔ InputFilled s :=
    ⟨fun h a ha => memFilled_isSome _ _ _ h a (Nat.zero_le a) ha,
      fun h => memFilled_of_isSome _ _ _ hw (fun _ _ => Nat.zero_le _) fun x _ hx => h x hx⟩
  cases m <;> simp [inputsWritten, hf, and_assoc]

/-- A call that START admits finds every byte of its input (U6). -/
theorem inputsWritten_filled {m : Mode} {s : State} (h : inputsWritten m s = true) : InputFilled s := by
  simp only [inputsWritten, Bool.and_eq_true] at h
  exact fun a ha => memFilled_isSome _ _ _ h.1.2 a (Nat.zero_le a) ha

theorem hostRead_next {n : Nat} {s t : State} (h : hostRead n s = .next t) : t = { s with hostData := n } := by
  unfold hostRead at h
  split at h
  · cases h
  · cases h; rfl

theorem hostReadByte_next {m : Memory} {f : Fault} {a : Nat} {s t : State} (h : hostReadByte m f a s = .next t) :
    ∃ n, t = { s with hostData := n } := by
  unfold hostReadByte at h
  split at h
  · split at h <;> cases h
  · exact ⟨_, hostRead_next h⟩

/-- Everything a move of the host can do. -/
theorem hostMove_to {m : HostMove} {s t : State} (h : hostMove m s = .next t) : HostTo m s t := by
  cases m with
  | letRun => exact .engine s.host (.inl rfl) _ (engineStep_to h)
  | await =>
    simp only [hostMove] at h
    split at h
    · exact .engine _ (.inr rfl) _ (engineStep_to h)
    · cases h; exact .nothing
  | writeWidth v => obtain ⟨hb, rfl⟩ := hostWrite_next h; exact .wroteDescriptor _ _ _ _ _ hb
  | writeHeight v => obtain ⟨hb, rfl⟩ := hostWrite_next h; exact .wroteDescriptor _ _ _ _ _ hb
  | writeChannels v => obtain ⟨hb, rfl⟩ := hostWrite_next h; exact .wroteDescriptor _ _ _ _ _ hb
  | writeColorspace v => obtain ⟨hb, rfl⟩ := hostWrite_next h; exact .wroteDescriptor _ _ _ _ _ hb
  | writeInLen v => obtain ⟨hb, rfl⟩ := hostWrite_next h; exact .wroteControl _ _ _ _ hb
  | place o => obtain ⟨hb, rfl⟩ := hostWrite_next h; exact .wroteControl _ _ _ _ hb
  | writeIn a b => obtain ⟨hb, rfl⟩ := hostWrite_next h; exact .wroteInput a b rfl hb
  | writeCtrl v =>
    simp only [hostMove, hostWriteCtrl] at h
    split at h
    · rename_i hv
      split at h
      · cases h; exact .nothing
      · rename_i hb
        split at h
        · cases h
        · rename_i ho
          split at h
          · rename_i hw
            cases h
            exact .started v rfl hv (by simpa [isBusy] using hb) (by simpa using ho) hw
          · cases h
    · obtain ⟨hb, rfl⟩ := hostWrite_next h; exact .wroteControl _ _ _ _ hb
  | writeAbort v =>
    simp only [hostMove, hostWriteAbort] at h
    split at h
    · rename_i hv; subst hv; cases h; exact .aborted rfl
    · cases h; exact .nothing
  | readReg r =>
    simp only [hostMove, hostReadReg] at h
    split at h
    · cases h; exact .read _
    · rw [hostRead_next h]; exact .read _
  | readIn a => obtain ⟨n, rfl⟩ := hostReadByte_next h; exact .read n
  | readOut a => obtain ⟨n, rfl⟩ := hostReadByte_next h; exact .read n

/-- With no move of the host pending, a step is the engine's. -/
theorem step_of_no_move {s : State} (h : s.host = []) : step s = engineStep s := by
  simp [step, machineStep, h]

/-- Else it is the host's next move. -/
theorem step_of_move {s : State} {m : HostMove} {rest : List HostMove} (h : s.host = m :: rest) :
    step s = hostMove m { s with host := rest } := by
  simp [step, machineStep, h]

end Sys2Proof.Machine
end

