-- ==== Sys2Proof/Laws/Loops.lean ====
section
/-! SUPPORT. What the engine's steps keep: the frame of a call, the canonical form of both buffers, the pixels and bytes counted
by the encoder, and that a step never lacks its input when the host filled `IN`. -/

namespace Sys2Proof.Machine

theorem reset_wf : Memory.wf State.reset.inMem = true ∧ Memory.wf State.reset.outMem = true := by decide

theorem callInv_at {s : State} {m : Mode} {p : Phase} (hm : s.mode = m) (hp : s.phase = p) :
    CallInv s ↔ CallInvAt m p s := by
  subst hm hp; rfl

theorem joinRun_control (s : State) : SameControl s (joinRun s) := by
  unfold joinRun; simp only
  split <;> constructor <;> rfl

/-- Everything a pixel that joins the run does (42_encoder.md R142, R143). -/
theorem joinRun_counts (s : State) :
    (joinRun s).prev = s.prev ∧ (joinRun s).cache = s.cache ∧ (joinRun s).pxPos = s.pxPos + 1 ∧
      (joinRun s).ip = (s.pxPos + 1) * s.channels.toNat ∧
      (((s.run + 1 = 62 ∨ s.pxPos + 1 = pixelCount s) ∧ (joinRun s).run = 0 ∧ (joinRun s).op = s.op + 1) ∨
        (¬ (s.run + 1 = 62 ∨ s.pxPos + 1 = pixelCount s) ∧ (joinRun s).run = s.run + 1 ∧ (joinRun s).op = s.op ∧
          (joinRun s).outMem = s.outMem)) := by
  unfold joinRun
  simp only
  by_cases hc : s.run + 1 = 62 ∨ s.pxPos + 1 = pixelCount s
  · rw [if_pos (by exact hc)]; exact ⟨rfl, rfl, rfl, rfl, .inl ⟨hc, rfl, rfl⟩⟩
  · rw [if_neg (by exact hc)]; exact ⟨rfl, rfl, rfl, rfl, .inr ⟨hc, rfl, rfl, rfl⟩⟩

theorem joinRun_stored (s : State) :
    ∃ v, Stored s (joinRun s) s.op v ∧ (joinRun s).op = s.op + v.length := by
  unfold joinRun; simp only
  split
  · exact ⟨_, emit_stored _ { s with run := s.run + 1 }, rfl⟩
  · exact ⟨[], fun a => by simp; rw [if_neg (by omega)]; rfl, rfl⟩

/-- What no step of the engine changes: the parameters, `IN`, `IN_LEN`, the placement and the host's moves. -/
theorem engineTo_frame {s t : State} (h : EngineTo s t) :
    t.config = s.config ∧ t.inMem = s.inMem ∧ t.inLen = s.inLen ∧ t.overlap = s.overlap ∧ t.host = s.host := by
  cases h with
  | joined =>
    have := joinRun_control s
    exact ⟨this.config, this.inMem, this.inLen, this.overlap, this.host⟩
  | broke px =>
    have := (breakRun_encoded px s).1.control
    exact ⟨this.config, this.inMem, this.inLen, this.overlap, this.host⟩
  | raised e => simp
  | _ => exact ⟨rfl, rfl, rfl, rfl, rfl⟩

/-- Every operation of the engine keeps the canonical form of `OUT`. -/
theorem engineTo_outMem_wf {s t : State} (h : EngineTo s t) (ho : Memory.wf s.outMem = true) :
    Memory.wf t.outMem = true := by
  cases h with
  | raised e => simp [Memory.wf]
  | headerEmitted => exact memWriteList_wf _ _ _ ho
  | joined =>
    unfold joinRun; simp only
    split
    · exact memWriteList_wf _ _ _ ho
    · exact ho
  | broke px =>
    unfold breakRun; simp only [flush_pending]
    unfold emitPixel
    split <;> exact memWriteList_wf _ _ _ (memWriteList_wf _ _ _ ho)
  | encodeClosed => exact memWriteList_wf _ _ _ ho
  | resolved => exact memWriteList_wf _ _ _ ho
  | repeated => exact memWriteList_wf _ _ _ ho
  | _ => exact ho

/-- With no call running the engine changes nothing. -/
theorem engineTo_not_busy {s t : State} (h : EngineTo s t) (hb : s.callState ≠ .busy) : t = s := by
  cases h with
  | halted => rfl
  | raised e hb' => exact absurd hb' hb
  | encodeChecked h => exact absurd h.busy hb
  | headerEmitted h => exact absurd h.busy hb
  | joined h => exact absurd h.busy hb
  | broke px h => exact absurd h.busy hb
  | encodeClosed h => exact absurd h.busy hb
  | headerParsed _ _ _ _ h => exact absurd h.busy hb
  | decodeChecked h => exact absurd h.busy hb
  | resolved _ _ h => exact absurd h.busy hb
  | repeated _ h => exact absurd h.busy hb
  | decodeClosed _ h => exact absurd h.busy hb

/-- Appending at `op` keeps `OUT` dense. -/
theorem dense_append {s t : State} {v : List Byte} (hd : OutDense s) (h : Stored s t s.op v)
    (hop : t.op = s.op + v.length) : OutDense t := by
  intro a
  rw [h a, hop]
  split
  · rename_i h1
    rw [List.getElem?_eq_getElem (by omega)]; simp; omega
  · rw [hd a]; simp; omega

/-- Setting the hash slot of a pixel keeps the cache's invariant (41_index_cache.md R132). -/
theorem cacheOk_set {s t : State} {px : Pixel} (h : CacheOk s) (hc : t.cache = s.cache.set (lookup px) px) : CacheOk t := by
  intro slot
  rw [hc, cache_set_get]
  split
  · right; assumption
  · exact h slot

theorem pendingRun_length (s : State) : (pendingRun s).length = if s.run = 0 then 0 else 1 := by
  unfold pendingRun; split <;> rfl

/-- A pixel fetched from a 3-channel image has alpha 255 (42_encoder.md R141). -/
theorem fetchPixel_alpha {s : State} {px : Pixel} (hc : s.channels = 3#8) (h : fetchPixel s = some px) : px.a = 255#8 := by
  unfold fetchPixel at h
  split at h
  · cases h
  · rename_i bytes hb
    have hl := (inHolds_of_memReadN _ _ _ _ hb).1
    rw [hc] at hl
    match bytes, hl with
    | [a, b, d], _ => simp [pixelOfBytes] at h; rw [← h]

/-- No chunk of the encoder is longer than `channels + 1` bytes (42_encoder.md R160). -/
theorem pickedChunk_length {px : Pixel} {s : State} (hd : s.channels = 3#8 ∨ s.channels = 4#8)
    (ha : s.channels = 3#8 → px.a = 255#8 ∧ s.prev.a = 255#8) :
    1 ≤ (encode (pickedChunk px s)).length ∧ (encode (pickedChunk px s)).length ≤ s.channels.toNat + 1 := by
  have hc : s.channels.toNat = 3 ∨ s.channels.toNat = 4 := by rcases hd with h | h <;> simp [h]
  unfold pickedChunk
  split
  · simp [encode]
  · unfold missChunk
    split
    · split
      · simp [encode]
      · split
        · simp [encode]; omega
        · simp [encode]; omega
    · rename_i hh
      rcases hd with h | h
      · exact absurd ((alphaSame_iff _ _).2 ((ha h).1.trans (ha h).2.symm)) hh
      · simp [encode, h]

/-- The pixel fetch has its bytes when the host filled `IN` (42_encoder.md R141 "always in bounds"). -/
theorem fetchPixel_isSome {s : State} (hf : InputFilled s) (hl : s.inLen.toNat = rawLen s) (hd : descriptorOk s)
    (ho : s.pxPos < pixelCount s) : ∃ px, fetchPixel s = some px := by
  have hch := descriptorOk_channels s hd
  have hps := pixelSize_eq s.channels hch
  have hraw : rawLen s = pixelCount s * s.channels.toNat := rfl
  have hle : (s.pxPos + 1) * s.channels.toNat ≤ rawLen s := by rw [hraw]; exact Nat.mul_le_mul_right _ ho
  rw [Nat.add_mul, Nat.one_mul] at hle
  obtain ⟨bytes, hb⟩ :=
    memReadN_isSome s.inMem (pixelSize s.channels) (s.pxPos * s.channels.toNat) (fun j hj => hf _ (by omega))
  obtain ⟨hlen, -⟩ := (memReadN_eq_some_iff _ _ _ _).1 hb
  unfold fetchPixel; rw [hb]
  rcases hch with h | h <;> rw [h] at hlen <;> simp only [pixelSize] at hlen
  · match bytes, hlen with
    | [a, b, d], _ => exact ⟨_, rfl⟩
  · match bytes, hlen with
    | [a, b, d, e], _ => exact ⟨_, rfl⟩

/-- The chunk fetch has its bytes when the host filled `IN`. -/
theorem fetchBytes_isSome {s : State} (hf : InputFilled s) (hl : s.ip ≤ s.inLen.toNat) : ∃ b, fetchBytes s = some b := by
  unfold fetchBytes
  simp only
  split
  · exact memReadN_isSome _ _ _ fun j hj => hf _ (by omega)
  · split
    · exact ⟨_, rfl⟩
    · obtain ⟨b0, hb0⟩ := Option.isSome_iff_exists.1 (hf s.ip (by omega))
      rw [show memRead s.inMem s.ip = some b0 from hb0]
      exact memReadN_isSome _ _ _ fun j hj => hf _ (by omega)

/-- A running call in the loop either ends, or goes on with at least one pixel fewer to go (43_decoder.md R190). -/
theorem loop_progress {s t : State} (hb : s.callState = .busy) (hp : s.phase = .loop) (h : EngineTo s t) :
    (t.callState = .done ∨ t.callState = .error) ∨
      (t.callState = .busy ∧ t.phase = .loop ∧ s.pxPos < pixelCount s ∧ s.pxPos < t.pxPos ∧
        pixelCount t = pixelCount s) := by
  cases h with
  | halted h => exact absurd hb h
  | raised e => exact .inl (.inr rfl)
  | encodeChecked h => have := h.phase; simp [hp] at this
  | headerEmitted h => have := h.phase; simp [hp] at this
  | headerParsed _ _ _ _ h => have := h.phase; simp [hp] at this
  | decodeChecked h => have := h.phase; simp [hp] at this
  | joined h ho =>
    have hj := joinRun_control s
    obtain ⟨_, _, j3, _, _⟩ := joinRun_counts s
    exact .inr ⟨by rw [hj.callState]; exact hb, by rw [hj.phase]; exact hp, ho, by omega,
      by simp [pixelCount, hj.width, hj.height]⟩
  | broke px h ho =>
    have hj := (breakRun_encoded px s).1
    exact .inr ⟨by rw [hj.control.callState]; exact hb, by rw [hj.control.phase]; exact hp, ho,
      by rw [hj.pxPos]; omega, by simp [pixelCount, hj.control.width, hj.control.height]⟩
  | encodeClosed => exact .inl (.inl rfl)
  | resolved len px h ho => exact .inr ⟨hb, hp, ho, by simp, rfl⟩
  | repeated k h ho h1 => exact .inr ⟨hb, hp, ho, by simp [repeatedState]; omega, rfl⟩
  | decodeClosed => exact .inl (.inl rfl)

end Sys2Proof.Machine
end

