-- ==== Sys2Proof/Laws/PerInstr.lean ====
section
/-! SUPPORT. Statements for all instructions, one lemma per constructor. -/

/-- An item takes the number of bytes of its row (30_encoding.md R80, R93), and its first byte fixes how many (R81, 43_decoder.md
R172) for every well-formed chunk. -/
def Sys2Proof.Laws.EncodeLength.Statement (i : Sys2Proof.Instr) : Prop :=
  (Sys2Proof.encode i).length = Sys2Proof.chunkLength i ∧
    (i ≠ .endMarker → i.WellFormed → ∀ b0 ∈ (Sys2Proof.encode i).head?, 1 + Sys2Proof.payloadLen b0 = Sys2Proof.chunkLength i)

namespace Sys2Proof.Laws

open Sys2Proof.Machine

/-- A first byte below the two 8-bit tags, by its value. -/
theorem EncodeLength.payload_of {b : Byte} {n : Nat} (hb : b.toNat = n) (hn : n < 0xFE) :
    payloadLen b = if n / 64 = 2 then 1 else 0 := by
  have h1 : b ≠ 0xFE#8 := (byte_ne_iff (by decide)).2 (by omega)
  have h2 : b ≠ 0xFF#8 := (byte_ne_iff (by decide)).2 (by omega)
  simp only [payloadLen, h1, h2, if_false, bits, hb]
  split <;> split <;> first | rfl | omega

theorem EncodeLength.rgb (r g b : Byte) : EncodeLength.Statement (.rgb r g b) :=
  ⟨rfl, fun _ _ b0 h => by cases h; rfl⟩

theorem EncodeLength.rgba (r g b a : Byte) : EncodeLength.Statement (.rgba r g b a) :=
  ⟨rfl, fun _ _ b0 h => by cases h; rfl⟩

theorem EncodeLength.index (slot : Fin 64) : EncodeLength.Statement (.index slot) :=
  ⟨rfl, fun _ _ b0 h => by
    cases h
    have hs := slot.isLt
    rw [EncodeLength.payload_of (ofNat_byte_toNat (by omega)) (by omega), if_neg (by omega)]; rfl⟩

theorem EncodeLength.diff (dr dg db : Int) : EncodeLength.Statement (.diff dr dg db) :=
  ⟨rfl, fun _ hw b0 h => by
    cases h
    simp only [Instr.WellFormed, Instr.wellFormed, Bool.and_eq_true, inRange_eq_true] at hw
    have hv := @ofInt_byte_toNat (0x40 + (dr + 2) * 16 + (dg + 2) * 4 + (db + 2)) (by omega) (by omega)
    rw [EncodeLength.payload_of rfl (by omega), if_neg (by omega)]; rfl⟩

theorem EncodeLength.luma (dg drDg dbDg : Int) : EncodeLength.Statement (.luma dg drDg dbDg) :=
  ⟨rfl, fun _ hw b0 h => by
    cases h
    simp only [Instr.WellFormed, Instr.wellFormed, Bool.and_eq_true, inRange_eq_true] at hw
    have hv := @ofInt_byte_toNat (0x80 + (dg + 32)) (by omega) (by omega)
    rw [EncodeLength.payload_of rfl (by omega), if_pos (by omega)]; rfl⟩

theorem EncodeLength.run (count : Nat) : EncodeLength.Statement (.run count) :=
  ⟨rfl, fun _ hw b0 h => by
    cases h
    simp only [Instr.WellFormed, Instr.wellFormed, Bool.and_eq_true, decide_eq_true_eq] at hw
    rw [EncodeLength.payload_of (ofNat_byte_toNat (by omega)) (by omega), if_neg (by omega)]; rfl⟩

theorem EncodeLength.endMarker : EncodeLength.Statement .endMarker :=
  ⟨rfl, fun h => absurd rfl h⟩

end Sys2Proof.Laws
end

