-- ==== Sys2Proof/Tests/Slice0.lean ====
section
/-! SUPPORT. The model's own tests: ill-formed terms, words written out bit by bit, one-step tests with values from
95_test_vectors.md, and a witness for the hypotheses of every statement that has any. -/

namespace Sys2Proof.Tests

open Sys2Proof Sys2Proof.Machine

/-! ## WellFormed refuses each ill-formed term (30_encoding.md R88) -/

theorem test_diff_dr_low : Instr.wellFormed (.diff (-3) 0 0) = false := by decide
theorem test_diff_dr_high : Instr.wellFormed (.diff 2 0 0) = false := by decide
theorem test_diff_dg_low : Instr.wellFormed (.diff 0 (-3) 0) = false := by decide
theorem test_diff_dg_high : Instr.wellFormed (.diff 0 2 0) = false := by decide
theorem test_diff_db_low : Instr.wellFormed (.diff 0 0 (-3)) = false := by decide
theorem test_diff_db_high : Instr.wellFormed (.diff 0 0 2) = false := by decide
theorem test_luma_dg_low : Instr.wellFormed (.luma (-33) 0 0) = false := by decide
theorem test_luma_dg_high : Instr.wellFormed (.luma 32 0 0) = false := by decide
theorem test_luma_drDg_low : Instr.wellFormed (.luma 0 (-9) 0) = false := by decide
theorem test_luma_drDg_high : Instr.wellFormed (.luma 0 8 0) = false := by decide
theorem test_luma_dbDg_low : Instr.wellFormed (.luma 0 0 (-9)) = false := by decide
theorem test_luma_dbDg_high : Instr.wellFormed (.luma 0 0 8) = false := by decide
theorem test_run_low : Instr.wellFormed (.run 0) = false := by decide
theorem test_run_high : Instr.wellFormed (.run 63) = false := by decide
theorem test_bounds_wellFormed :
    Instr.wellFormed (.diff (-2) 1 (-2)) = true ∧ Instr.wellFormed (.luma (-32) 7 (-8)) = true ∧
      Instr.wellFormed (.luma 31 (-8) 7) = true ∧ Instr.wellFormed (.run 1) = true ∧
      Instr.wellFormed (.run 62) = true := by decide

/-! ## Words written out from the encodings (R82 to R87, R93), first byte in bits 7..0 -/

/-- `11111110 11001000 01100100 00110010`: `FE C8 64 32`. -/
theorem test_word_rgb : decodeTableWord 32 0b00110010011001001100100011111110 = some (.rgb 200#8 100#8 50#8) := by decide
/-- `11111111` and the bytes 1, 2, 3, 4. -/
theorem test_word_rgba :
    decodeTableWord 40 0b0000010000000011000000100000000111111111 = some (.rgba 1#8 2#8 3#8 4#8) := by decide
/-- `00 001011`. -/
theorem test_word_index : decodeTableWord 8 0b00001011 = some (.index 11) := by decide
/-- `01 11 01 10`: fields 3, 1, 2. -/
theorem test_word_diff : decodeTableWord 8 0b01110110 = some (.diff 1 (-1) 0) := by decide
/-- `10 011111`, `1010 1011`: `9F AB`. -/
theorem test_word_luma : decodeTableWord 16 0b1010101110011111 = some (.luma (-1) 2 3) := by decide
/-- `11 000011`. -/
theorem test_word_run : decodeTableWord 8 0b11000011 = some (.run 4) := by decide
/-- `11 111101`, the last RUN before the two 8-bit tags. -/
theorem test_word_run_62 : decodeTableWord 8 0b11111101 = some (.run 62) := by decide
/-- Seven bytes 0, one byte 1. -/
theorem test_word_end : decodeTableWord 64 0x0100000000000000 = some .endMarker := by decide
/-- An RGB tag alone, operand bytes of zeros. -/
theorem test_word_short : decodeTableWord 8 0xFE = some (.rgb 0#8 0#8 0#8) := by decide

/-! ## One chunk from the start state (95_test_vectors.md 2.5) -/

/-- A DECODE in its chunk loop at `ip = 14`, from the state after START, over a row of `w` pixels and the given chunk bytes. -/
def decoding (w : BitVec 32) (channels : Byte) (bytes : List Byte) : State :=
  { withFetchBytes State.reset bytes with prev := Config.prevInit, width := w, channels := channels }

/-- What one step leaves of the decoder: `prev`, one cache slot, `OUT`, `px_pos`, `ip`. -/
def decoded (s : State) (slot : Fin 64) : Option (Pixel × Pixel × List Host.Cell × Nat × Nat) :=
  match step s with
  | .next t => some (t.prev, t.cache[slot], t.outMem, t.pxPos, t.ip)
  | _ => none

theorem test_index_unwritten_slot :
    decoded (decoding 1#32 3#8 [0x11#8]) 0 =
      some (⟨0#8, 0#8, 0#8, 0#8⟩, ⟨0#8, 0#8, 0#8, 0#8⟩, [(0, 0#8), (1, 0#8), (2, 0#8)], 1, 15) := by decide

/-- The lower bound wraps, and DIFF{0,0,0} is cached. -/
theorem test_diff :
    decoded (decoding 1#32 4#8 [0x40#8]) 23 =
      some (⟨254#8, 254#8, 254#8, 255#8⟩, ⟨254#8, 254#8, 254#8, 255#8⟩,
        [(0, 0xFE#8), (1, 0xFE#8), (2, 0xFE#8), (3, 0xFF#8)], 1, 15) ∧
    decoded (decoding 1#32 4#8 [0x6A#8]) 53 =
      some (⟨0#8, 0#8, 0#8, 255#8⟩, ⟨0#8, 0#8, 0#8, 255#8⟩,
        [(0, 0#8), (1, 0#8), (2, 0#8), (3, 0xFF#8)], 1, 15) :=
  ⟨by decide, by decide⟩

/-- All fields at minimum and at maximum. -/
theorem test_luma :
    decoded (decoding 1#32 4#8 [0x80#8, 0x00#8]) 5 =
      some (⟨216#8, 224#8, 216#8, 255#8⟩, ⟨216#8, 224#8, 216#8, 255#8⟩,
        [(0, 0xD8#8), (1, 0xE0#8), (2, 0xD8#8), (3, 0xFF#8)], 1, 16) ∧
    decoded (decoding 1#32 4#8 [0xBF#8, 0xFF#8]) 12 =
      some (⟨38#8, 31#8, 38#8, 255#8⟩, ⟨38#8, 31#8, 38#8, 255#8⟩,
        [(0, 0x26#8), (1, 0x1F#8), (2, 0x26#8), (3, 0xFF#8)], 1, 16) :=
  ⟨by decide, by decide⟩

/-- RUN{1} writes no cache slot, and RUN{62} is clipped to 3 pixels. -/
theorem test_run :
    decoded (decoding 1#32 4#8 [0xC0#8]) 53 =
      some (⟨0#8, 0#8, 0#8, 255#8⟩, ⟨0#8, 0#8, 0#8, 0#8⟩,
        [(0, 0#8), (1, 0#8), (2, 0#8), (3, 0xFF#8)], 1, 15) ∧
    decoded (decoding 3#32 3#8 [0xFD#8]) 53 =
      some (⟨0#8, 0#8, 0#8, 255#8⟩, ⟨0#8, 0#8, 0#8, 0#8⟩,
        [(0, 0#8), (1, 0#8), (2, 0#8), (3, 0#8), (4, 0#8), (5, 0#8), (6, 0#8), (7, 0#8), (8, 0#8)], 3, 15) :=
  ⟨by decide, by decide⟩

theorem test_rgb :
    decoded (decoding 1#32 4#8 [0xFE#8, 0xC8#8, 0x64#8, 0x32#8]) 31 =
      some (⟨200#8, 100#8, 50#8, 255#8⟩, ⟨200#8, 100#8, 50#8, 255#8⟩,
        [(0, 0xC8#8), (1, 0x64#8), (2, 0x32#8), (3, 0xFF#8)], 1, 18) := by decide

theorem test_rgba :
    decoded (decoding 1#32 4#8 [0xFF#8, 0x01#8, 0x02#8, 0x03#8, 0x04#8]) 14 =
      some (⟨1#8, 2#8, 3#8, 4#8⟩, ⟨1#8, 2#8, 3#8, 4#8⟩, [(0, 1#8), (1, 2#8), (2, 3#8), (3, 4#8)], 1, 19) := by decide

/-- What one step leaves in `STATUS.STATE` and `ERR`. -/
def ended (s : State) : Option (CallState × ErrCode) :=
  match step s with
  | .next t => some (t.callState, t.err)
  | _ => none

/-- The end marker while a pixel is owed (95_test_vectors.md E12), and as the host's word. -/
theorem test_end :
    ended (decoding 1#32 3#8 [0#8, 0#8, 0#8, 0#8, 0#8, 0#8, 0#8, 1#8]) = some (.error, .truncatedStream) ∧
    ended (State.reset.withFetchWord 64 0x0100000000000000) = some (.error, .truncatedStream) :=
  ⟨by decide, by decide⟩

/-- Without END_MARKER_DETECT its first byte runs as INDEX{0} (E13). -/
theorem test_end_marker_undetected :
    decoded { decoding 1#32 3#8 [0#8, 0#8, 0#8, 0#8, 0#8, 0#8, 0#8, 1#8] with
      config := { Config.default with endMarkerDetect := false } } 0 =
      some (⟨0#8, 0#8, 0#8, 0#8⟩, ⟨0#8, 0#8, 0#8, 0#8⟩, [(0, 0#8), (1, 0#8), (2, 0#8)], 1, 15) := by decide

/-- The RGB payload cut short (E10). -/
theorem test_payload_short : ended (decoding 1#32 3#8 [0xFE#8, 0xC8#8, 0x64#8]) = some (.error, .truncatedStream) := by
  decide

/-! ## One pixel of the encoder (95_test_vectors.md 2.3, 2.4) -/

/-- An ENCODE in its pixel loop at pixel 0 of a 2 x 1 RGBA image whose first pixel is `px`. -/
def encoding (prev px : Pixel) : State :=
  { State.reset with
    callState := .busy
    mode := .encode
    phase := .loop
    width := 2#32
    height := 1#32
    channels := 4#8
    inLen := 8#64
    inMem := [(0, px.r), (1, px.g), (2, px.b), (3, px.a)]
    prev := prev }

/-- What one step leaves of the encoder: `OUT`, `prev`, `run`. -/
def encoded (s : State) : Option (List Byte × Pixel × Nat) :=
  match step s with
  | .next t => some (t.outMem.map Prod.snd, t.prev, t.run)
  | _ => none

/-- A grey pixel of alpha 255. -/
def grey (v : Byte) : Pixel := ⟨v, v, v, 255#8⟩

theorem test_encode_diff : encoded (encoding (grey 255#8) (grey 0#8)) = some ([0x7F#8], grey 0#8, 0) := by decide

theorem test_encode_luma : encoded (encoding (grey 100#8) (grey 131#8)) = some ([0xBF#8, 0x88#8], grey 131#8, 0) := by
  decide

theorem test_encode_rgb :
    encoded (encoding (grey 100#8) (grey 132#8)) = some ([0xFE#8, 0x84#8, 0x84#8, 0x84#8], grey 132#8, 0) := by decide

theorem test_encode_rgba :
    encoded (encoding (grey 100#8) ⟨100#8, 100#8, 100#8, 254#8⟩) =
      some ([0xFF#8, 0x64#8, 0x64#8, 0x64#8, 0xFE#8], ⟨100#8, 100#8, 100#8, 254#8⟩, 0) := by decide

/-- Slot 0, never written, hits; the alpha differs, yet INDEX wins. -/
theorem test_encode_index :
    encoded (encoding (grey 100#8) ⟨0#8, 0#8, 0#8, 0#8⟩) = some ([0x00#8], ⟨0#8, 0#8, 0#8, 0#8⟩, 0) := by decide

/-- A run of 4 broken by another pixel, and the 62nd pixel of a run. -/
theorem test_encode_run :
    encoded { encoding ⟨5#8, 5#8, 5#8, 255#8⟩ ⟨6#8, 5#8, 5#8, 255#8⟩ with run := 4 } =
      some ([0xC3#8, 0x7A#8], ⟨6#8, 5#8, 5#8, 255#8⟩, 0) ∧
    encoded { encoding (grey 5#8) (grey 5#8) with run := 61 } = some ([0xFD#8], grey 5#8, 0) :=
  ⟨by decide, by decide⟩

/-! ## The index cache's hash (95_test_vectors.md 2.1) -/

theorem test_lookup :
    lookup ⟨0#8, 0#8, 0#8, 255#8⟩ = 53 ∧ lookup ⟨64#8, 0#8, 0#8, 255#8⟩ = 53 ∧ lookup ⟨11#8, 9#8, 10#8, 255#8⟩ = 9 ∧
      lookup ⟨255#8, 255#8, 255#8, 255#8⟩ = 38 := by decide

/-! ## The host's word as the first instruction -/

theorem test_withFetchWord_runs_rgb :
    decoded (State.reset.withFetchWord 32 0x3264C8FE) 42 =
      some (⟨200#8, 100#8, 50#8, 0#8⟩, ⟨200#8, 100#8, 50#8, 0#8⟩,
        [(0, 0xC8#8), (1, 0x64#8), (2, 0x32#8), (3, 0#8)], 1, 18) := by decide

/-! ## Witnesses: a state and operands that meet all the hypotheses of a statement, clause by clause -/

/-- The end marker's bytes. -/
def marker : List Byte := [0#8, 0#8, 0#8, 0#8, 0#8, 0#8, 0#8, 1#8]

/-- A DECODE in its loop, one 3-channel pixel owed. -/
def owing (bytes : List Byte) : State := decoding 1#32 3#8 bytes

/-- The same with the pixel written. -/
def filled (bytes : List Byte) : State := { owing bytes with pxPos := 1 }

/-- Without END_MARKER_DETECT. -/
def undetecting (s : State) : State := { s with config := { s.config with endMarkerDetect := false } }

theorem owing_decoding (bytes : List Byte) : DecodingChunk (owing bytes) :=
  ⟨⟨rfl, rfl, rfl, rfl⟩, by show 0 < 1 * 1; decide⟩

theorem witness_EndWhileOwedIsTruncatedStream :
    ∃ s : State, s.pxPos < pixelCount s ∧ s.config.endMarkerDetect = true := ⟨owing marker, by decide⟩

theorem witness_EndUndetectedRunsAsIndex :
    ∃ s : State, s.pxPos < pixelCount s ∧ s.config.endMarkerDetect = false := ⟨undetecting (owing marker), by decide⟩

theorem witness_EndWhenFullIsTheTrailer :
    ∃ s : State, s.pxPos = pixelCount s ∧ s.ip + 8 ≤ s.inLen.toNat ∧ InHolds s s.ip Config.endMarker :=
  ⟨filled marker, by decide, by decide, by unfold InHolds; decide⟩

/-- A chunk with fewer than 8 bytes left. -/
theorem witness_StepRunsTheDecodedChunk_last :
    ∃ (s : State) (i : Instr), DecodingChunk s ∧ i.WellFormed ∧ i ≠ .endMarker ∧ InHolds s s.ip (encode i) ∧
      s.ip + (encode i).length ≤ s.inLen.toNat ∧
      (s.config.endMarkerDetect = true → s.ip + 8 ≤ s.inLen.toNat →
        ∃ w : List Byte, w.length = 8 ∧ InHolds s s.ip w ∧ w ≠ Config.endMarker) :=
  ⟨owing [0xC0#8], .run 1, owing_decoding _, by decide, by decide, by unfold InHolds; decide, by decide,
    fun _ h => absurd h (by decide)⟩

/-- A chunk with the look-ahead, whose eight bytes differ from the marker in the last only. -/
theorem witness_StepRunsTheDecodedChunk_lookAhead :
    ∃ (s : State) (i : Instr), DecodingChunk s ∧ i.WellFormed ∧ i ≠ .endMarker ∧ InHolds s s.ip (encode i) ∧
      s.ip + (encode i).length ≤ s.inLen.toNat ∧ s.config.endMarkerDetect = true ∧ s.ip + 8 ≤ s.inLen.toNat ∧
      ∃ w : List Byte, w.length = 8 ∧ InHolds s s.ip w ∧ w ≠ Config.endMarker :=
  ⟨owing (List.replicate 8 0#8), .index 0, owing_decoding _, by decide, by decide, by unfold InHolds; decide,
    by decide, rfl, by decide, List.replicate 8 0#8, by decide, by unfold InHolds; decide, by decide⟩

theorem owing_marker : MarkerDetected (owing marker) := ⟨rfl, by decide, by unfold InHolds; decide⟩

theorem witness_StepRunsTheDecodedChunk_marker : ∃ s : State, DecodingChunk s ∧ MarkerDetected s :=
  ⟨owing marker, owing_decoding _, owing_marker⟩

/-- No tag byte is left. -/
theorem witness_TruncatedStreamExactly_noTag :
    ∃ s t : State, DecodingChunk s ∧ s.err = .none ∧ s.ip ≤ s.inLen.toNat ∧ step s = .next t ∧ s.ip = s.inLen.toNat :=
  ⟨owing [], _, owing_decoding _, rfl, by decide, rfl, by decide⟩

/-- The last payload byte of an RGB chunk is missing. -/
theorem witness_TruncatedStreamExactly_payload :
    ∃ s t : State, DecodingChunk s ∧ s.err = .none ∧ s.ip ≤ s.inLen.toNat ∧ step s = .next t ∧
      ∃ b0, inByte s s.ip = some b0 ∧ s.inLen.toNat < s.ip + 1 + payloadLen b0 :=
  ⟨owing [0xFE#8, 1#8, 2#8], _, owing_decoding _, rfl, by decide, rfl, 0xFE#8, by decide, by decide⟩

theorem witness_TruncatedStreamExactly_marker :
    ∃ s t : State, DecodingChunk s ∧ s.err = .none ∧ s.ip ≤ s.inLen.toNat ∧ step s = .next t ∧ MarkerDetected s :=
  ⟨owing marker, _, owing_decoding _, rfl, by decide, rfl, owing_marker⟩

/-- And none of the three. -/
theorem witness_TruncatedStreamExactly_chunk :
    ∃ s t : State, DecodingChunk s ∧ s.err = .none ∧ s.ip ≤ s.inLen.toNat ∧ step s = .next t ∧ t.err = .none :=
  ⟨owing [0xC0#8], _, owing_decoding _, rfl, by decide, rfl, rfl⟩

theorem witness_DecodeOfEncodeIsTheChunk :
    ∃ (i : Instr) (detect : Bool) (rest : List Byte), i.WellFormed ∧ i ≠ .endMarker ∧
      ¬ (detect = true ∧ (encode i ++ rest).take 8 = Config.endMarker) :=
  ⟨.index 0, true, List.replicate 7 0#8, by decide⟩

theorem witness_DecodedBytesAreTheEncoding :
    (∃ bytes rest i, decode false bytes = .ok (i, rest) ∧ i ≠ .endMarker) ∧
      ∃ bytes rest i, decode true bytes = .ok (i, rest) ∧ i = .endMarker :=
  ⟨⟨marker, marker.drop 1, .index 0, rfl, by decide⟩, ⟨marker, [], .endMarker, rfl, rfl⟩⟩

/-- Both ends of each range of the first-byte map. -/
theorem witness_EveryFirstByteStartsItsChunk :
    ([] : List Byte).length = payloadLen 0x00#8 ∧ ([] : List Byte).length = payloadLen 0x3F#8 ∧
      ([] : List Byte).length = payloadLen 0x40#8 ∧ ([] : List Byte).length = payloadLen 0x7F#8 ∧
      [0#8].length = payloadLen 0x80#8 ∧ [0#8].length = payloadLen 0xBF#8 ∧
      ([] : List Byte).length = payloadLen 0xC0#8 ∧ ([] : List Byte).length = payloadLen 0xFD#8 ∧
      [0#8, 0#8, 0#8].length = payloadLen 0xFE#8 ∧ [0#8, 0#8, 0#8, 0#8].length = payloadLen 0xFF#8 := by decide

/-- An ENCODE before its precondition check, with the given descriptor and length. -/
def checking (w h : BitVec 32) (channels colorspace : Byte) (len : BitVec 64) : State :=
  { State.reset with
    callState := .busy
    mode := .encode
    phase := .check
    width := w
    height := h
    channels := channels
    colorspace := colorspace
    inLen := len }

theorem witness_EncodeChecksDescriptorThenLength :
    (∃ s : State, Running .encode .check s ∧ s.width = 0#32) ∧
      (∃ s : State, Running .encode .check s ∧ s.width ≠ 0#32 ∧ s.height ≠ 0#32 ∧ s.channels = 3#8 ∧
        s.colorspace = 1#8 ∧ s.width.toNat * s.height.toNat * s.channels.toNat ≠ s.inLen.toNat) ∧
      ∃ s : State, Running .encode .check s ∧ s.width ≠ 0#32 ∧ s.height ≠ 0#32 ∧ s.channels = 4#8 ∧
        s.colorspace = 0#8 ∧ s.width.toNat * s.height.toNat * s.channels.toNat = s.inLen.toNat :=
  ⟨⟨checking 0#32 2#32 3#8 1#8 0#64, ⟨rfl, rfl, rfl, rfl⟩, rfl⟩,
    ⟨checking 2#32 2#32 3#8 1#8 11#64, ⟨rfl, rfl, rfl, rfl⟩, by decide⟩,
    ⟨checking 2#32 2#32 4#8 0#8 16#64, ⟨rfl, rfl, rfl, rfl⟩, by decide⟩⟩

theorem witness_EncodeEmitsTheHeader : ∃ s : State, Running .encode .header s :=
  ⟨{ checking 2#32 2#32 3#8 1#8 12#64 with phase := .header }, ⟨rfl, rfl, rfl, rfl⟩⟩

theorem witness_EncodeCompletes :
    (∃ s : State, Running .encode .loop s ∧ s.pxPos = pixelCount s ∧ s.run = 0) ∧
      ∃ s : State, Running .encode .loop s ∧ s.pxPos = pixelCount s ∧ s.run = 62 :=
  ⟨⟨{ encoding (grey 1#8) (grey 1#8) with pxPos := 2 }, ⟨rfl, rfl, rfl, rfl⟩, by decide, rfl⟩,
    ⟨{ encoding (grey 1#8) (grey 1#8) with pxPos := 2, run := 62 }, ⟨rfl, rfl, rfl, rfl⟩, by decide, rfl⟩⟩

/-- A DECODE before its header, over the given bytes. -/
def parsing (bytes : List Byte) : State :=
  { State.reset with
    callState := .busy
    mode := .decode
    phase := .header
    inLen := BitVec.ofNat 64 bytes.length
    inMem := memWriteList [] 0 bytes }

/-- A 2 x 2 header with the given first and last two bytes, and the given last byte of the width. -/
def header (m w c cs : Byte) : List Byte :=
  [m, 0x6F#8, 0x69#8, 0x66#8, 0#8, 0#8, 0#8, w, 0#8, 0#8, 0#8, 2#8, c, cs]

theorem witness_ShortHeaderIsMalformed : ∃ s : State, Running .decode .header s ∧ s.inLen.toNat < 14 :=
  ⟨parsing ((header 0x71#8 2#8 3#8 1#8).take 13), ⟨rfl, rfl, rfl, rfl⟩, by decide⟩

theorem parsing_holds (bytes : List Byte) : InHolds (parsing bytes) 0 bytes := fun j hj => by
  show memRead (memWriteList [] 0 bytes) (0 + j) = bytes[j]?
  rw [memRead_memWriteList, if_pos (by omega), Nat.zero_add, Nat.sub_zero]

theorem parsing_header (m w c cs : Byte) :
    Running .decode .header (parsing (header m w c cs)) ∧ 14 ≤ (parsing (header m w c cs)).inLen.toNat ∧
      InHolds (parsing (header m w c cs)) 0 (header m w c cs) :=
  ⟨⟨rfl, rfl, rfl, rfl⟩, by show 14 ≤ (BitVec.ofNat 64 14).toNat; decide, parsing_holds _⟩

/-- One header for each of the five outcomes; `parsing_header` gives the other hypotheses. -/
theorem witness_DecodeHeaderFirstFailingTestWins :
    (∃ m0 : Byte, m0 ≠ (parsing (header m0 2#8 3#8 1#8)).config.magic[0]) ∧
      (∃ m0 w3 : Byte, m0 = (parsing (header m0 w3 3#8 1#8)).config.magic[0] ∧ w3.toNat = 0) ∧
      (∃ m0 c : Byte, m0 = (parsing (header m0 2#8 c 1#8)).config.magic[0] ∧ ¬ (c = 3#8 ∨ c = 4#8)) ∧
      (∃ m0 cs : Byte, m0 = (parsing (header m0 2#8 4#8 cs)).config.magic[0] ∧ ¬ (cs = 0#8 ∨ cs = 1#8)) ∧
      ∃ m0 c cs : Byte, m0 = (parsing (header m0 2#8 c cs)).config.magic[0] ∧ (c = 3#8 ∨ c = 4#8) ∧
        (cs = 0#8 ∨ cs = 1#8) :=
  ⟨⟨0x67#8, by decide⟩, ⟨0x71#8, 0#8, by decide⟩, ⟨0x71#8, 5#8, by decide⟩, ⟨0x71#8, 2#8, by decide⟩,
    ⟨0x71#8, 3#8, 1#8, by decide⟩⟩

/-- A DECODE of a 2 x 2 x 3 image before its size check, with the given `MAX_OUT_BYTES`. -/
def sizing (limit : Nat) : State :=
  { checking 2#32 2#32 3#8 1#8 23#64 with
    mode := .decode
    ip := 14
    config := { Config.default with maxOutBytes := limit } }

theorem witness_DecodeGuardsTheOutputSize :
    (∃ s : State, Running .decode .check s ∧
      s.width.toNat * s.height.toNat * s.channels.toNat > s.config.maxOutBytes) ∧
      ∃ s : State, Running .decode .check s ∧
        s.width.toNat * s.height.toNat * s.channels.toNat ≤ s.config.maxOutBytes :=
  ⟨⟨sizing 11, ⟨rfl, rfl, rfl, rfl⟩, by decide⟩, ⟨sizing 12, ⟨rfl, rfl, rfl, rfl⟩, by decide⟩⟩

theorem witness_DecodeCompletesWithTrailerCheck :
    (∃ s : State, Running .decode .loop s ∧ s.pxPos = pixelCount s ∧ s.inLen.toNat < s.ip + 8) ∧
      (∃ s : State, Running .decode .loop s ∧ s.pxPos = pixelCount s ∧ s.ip + 8 ≤ s.inLen.toNat ∧
        InHolds s s.ip marker) ∧
      ∃ s : State, Running .decode .loop s ∧ s.pxPos = pixelCount s ∧ s.ip + 8 ≤ s.inLen.toNat ∧
        InHolds s s.ip (List.replicate 8 0#8) :=
  ⟨⟨filled (marker.take 7), ⟨rfl, rfl, rfl, rfl⟩, by decide, by decide⟩,
    ⟨filled marker, ⟨rfl, rfl, rfl, rfl⟩, by decide, by decide, by unfold InHolds; decide⟩,
    ⟨filled (List.replicate 8 0#8), ⟨rfl, rfl, rfl, rfl⟩, by decide, by decide, by unfold InHolds; decide⟩⟩

theorem encoding_pixel (prev px : Pixel) : PixelAtCursor (encoding prev px) px :=
  .inl ⟨rfl, fun j hj => by
    have : j < 4 := hj
    interval_cases j <;> rfl⟩

theorem encoding_breaks (prev px : Pixel) (h : px ≠ prev) : EncodingPixel (encoding prev px) px :=
  ⟨⟨rfl, rfl, rfl, rfl⟩, by show 0 < 2 * 1; decide, encoding_pixel _ _, h⟩

/-- A run that reaches 62, one that the image ends, one that goes on. -/
theorem witness_EncoderCountsRuns :
    (∃ s : State, Running .encode .loop s ∧ s.pxPos < pixelCount s ∧ PixelAtCursor s s.prev ∧ s.run + 1 = 62) ∧
      (∃ s : State, Running .encode .loop s ∧ s.pxPos < pixelCount s ∧ PixelAtCursor s s.prev ∧
        s.pxPos = pixelCount s - 1) ∧
      ∃ s : State, Running .encode .loop s ∧ s.pxPos < pixelCount s ∧ PixelAtCursor s s.prev ∧
        ¬ (s.run + 1 = 62 ∨ s.pxPos = pixelCount s - 1) :=
  ⟨⟨{ encoding (grey 1#8) (grey 1#8) with run := 61 }, ⟨rfl, rfl, rfl, rfl⟩, by decide,
      encoding_pixel (grey 1#8) (grey 1#8), rfl⟩,
    ⟨{ encoding (grey 1#8) (grey 1#8) with width := 1#32 }, ⟨rfl, rfl, rfl, rfl⟩, by decide,
      encoding_pixel (grey 1#8) (grey 1#8), by decide⟩,
    ⟨encoding (grey 1#8) (grey 1#8), ⟨rfl, rfl, rfl, rfl⟩, by decide, encoding_pixel _ _, by decide⟩⟩

theorem witness_EncoderIndexesOnHit : ∃ (s : State) (px : Pixel), EncodingPixel s px ∧ s.cache[lookup px] = px :=
  ⟨encoding (grey 100#8) ⟨0#8, 0#8, 0#8, 0#8⟩, _, encoding_breaks _ _ (by decide), by decide⟩

/-- Both ends of DIFF's range. -/
theorem witness_EncoderEmitsDiff :
    (∃ (s : State) (px : Pixel), EncodingPixel s px ∧ s.cache[lookup px] ≠ px ∧ px.a = s.prev.a ∧
      AreDeltas px s.prev 1 1 1 ∧ FitsDiff 1 1 1) ∧
      ∃ (s : State) (px : Pixel), EncodingPixel s px ∧ s.cache[lookup px] ≠ px ∧ px.a = s.prev.a ∧
        AreDeltas px s.prev (-2) (-2) (-2) ∧ FitsDiff (-2) (-2) (-2) :=
  ⟨⟨encoding (grey 255#8) (grey 0#8), grey 0#8, encoding_breaks _ _ (by decide), by decide, rfl,
      by unfold AreDeltas IsDelta; decide, by unfold FitsDiff; decide⟩,
    ⟨encoding (grey 0#8) (grey 254#8), grey 254#8, encoding_breaks _ _ (by decide), by decide, rfl,
      by unfold AreDeltas IsDelta; decide, by unfold FitsDiff; decide⟩⟩

/-- Both ends of LUMA's range of dg. -/
theorem witness_EncoderEmitsLuma :
    (∃ (s : State) (px : Pixel), EncodingPixel s px ∧ s.cache[lookup px] ≠ px ∧ px.a = s.prev.a ∧
      AreDeltas px s.prev 31 31 31 ∧ ¬ FitsDiff 31 31 31 ∧ FitsLuma 31 31 31) ∧
      ∃ (s : State) (px : Pixel), EncodingPixel s px ∧ s.cache[lookup px] ≠ px ∧ px.a = s.prev.a ∧
        AreDeltas px s.prev (-32) (-32) (-32) ∧ ¬ FitsDiff (-32) (-32) (-32) ∧ FitsLuma (-32) (-32) (-32) :=
  ⟨⟨encoding (grey 100#8) (grey 131#8), grey 131#8, encoding_breaks _ _ (by decide), by decide, rfl,
      by unfold AreDeltas IsDelta; decide, by unfold FitsDiff; decide, by unfold FitsLuma; decide⟩,
    ⟨encoding (grey 100#8) (grey 68#8), grey 68#8, encoding_breaks _ _ (by decide), by decide, rfl,
      by unfold AreDeltas IsDelta; decide, by unfold FitsDiff; decide, by unfold FitsLuma; decide⟩⟩

theorem witness_EncoderEmitsRgb :
    ∃ (s : State) (px : Pixel), EncodingPixel s px ∧ s.cache[lookup px] ≠ px ∧ px.a = s.prev.a ∧
      AreDeltas px s.prev 32 32 32 ∧ ¬ FitsDiff 32 32 32 ∧ ¬ FitsLuma 32 32 32 :=
  ⟨encoding (grey 100#8) (grey 132#8), grey 132#8, encoding_breaks _ _ (by decide), by decide, rfl,
    by unfold AreDeltas IsDelta; decide, by unfold FitsDiff; decide, by unfold FitsLuma; decide⟩

theorem witness_EncoderEmitsRgba :
    ∃ (s : State) (px : Pixel), EncodingPixel s px ∧ s.cache[lookup px] ≠ px ∧ px.a ≠ s.prev.a :=
  ⟨encoding (grey 100#8) ⟨100#8, 100#8, 100#8, 254#8⟩, ⟨100#8, 100#8, 100#8, 254#8⟩,
    encoding_breaks _ _ (by decide), by decide, by decide⟩

theorem witness_EncoderNeverEmits_chunk :
    (∃ px prev : Pixel, px ≠ prev ∧ px.a = 255#8 ∧ prev.a = 255#8) ∧
      ∃ px prev : Pixel, px ≠ prev ∧ missChunk px prev = .luma 31 0 0 :=
  ⟨⟨grey 1#8, grey 0#8, by decide⟩, ⟨grey 131#8, grey 100#8, by decide⟩⟩

/-- A 2 x 1 image whose second pixel hits slot 0. -/
def twoPixels : State :=
  { encoding (grey 100#8) (grey 101#8) with
    inMem := [(0, 101#8), (1, 101#8), (2, 101#8), (3, 255#8), (4, 0#8), (5, 0#8), (6, 0#8), (7, 0#8)] }

theorem witness_NoIndexTwiceInARow :
    ∃ (s t : State) (px next : Pixel), EncodingPixel s px ∧ step s = .next t ∧ EncodingPixel t next ∧
      t.cache[lookup next] = next :=
  ⟨twoPixels, breakRun (grey 101#8) twoPixels, grey 101#8, ⟨0#8, 0#8, 0#8, 0#8⟩,
    ⟨⟨rfl, rfl, rfl, rfl⟩, by decide, .inl ⟨rfl, by unfold InHolds; decide⟩, by decide⟩, rfl,
    ⟨⟨rfl, rfl, rfl, rfl⟩, by decide, .inl ⟨rfl, by unfold InHolds; decide⟩, by decide⟩, by decide⟩

theorem witness_DecoderFollowsTheEncoder :
    ∃ (e d : State) (px : Pixel), px ≠ e.prev ∧ e.prev = d.prev ∧ e.cache = d.cache ∧ e.channels = d.channels :=
  ⟨encoding Config.prevInit (grey 10#8), decoding 2#32 4#8 [0xAA#8, 0x88#8], grey 10#8, by decide, rfl, rfl, rfl⟩

theorem witness_CacheSetThenGet : ∃ slot other : Fin 64, other ≠ slot := ⟨0, 63, by decide⟩

/-- A machine after power-on with one move of the host to come. -/
def moved (m : HostMove) : State := { State.reset with host := [m] }

/-- The same while a DECODE runs. -/
def movedBusy (m : HostMove) : State := { owing [0xC0#8] with host := [m] }

theorem witness_HostAndEngineTakeTurns :
    (owing [0xC0#8]).host = [] ∧ (movedBusy .letRun).host = [.letRun] ∧
      ((movedBusy .await).host = [.await] ∧ (movedBusy .await).callState = .busy) ∧
      ((moved .await).host = [.await] ∧ (moved .await).callState ≠ .busy) := by decide

theorem witness_NoCallNoStep : State.reset.callState ≠ .busy ∧ State.reset.host = [] := by decide

theorem witness_EachDirectionHasItsErrors :
    (∃ s t : State, s.callState = .busy ∧ s.host = [] ∧ step s = .next t ∧ t.callState = .error ∧ s.mode = .encode) ∧
      ∃ s t : State, s.callState = .busy ∧ s.host = [] ∧ step s = .next t ∧ t.callState = .error ∧ s.mode = .decode :=
  ⟨⟨checking 0#32 2#32 3#8 1#8 0#64, _, rfl, rfl, rfl, rfl, rfl⟩, ⟨owing marker, _, rfl, rfl, rfl, rfl, rfl⟩⟩

theorem witness_FailedCallShowsNoOutput :
    ∃ s t : State, s.callState = .busy ∧ step s = .next t ∧ t.callState = .error ∧ s.outMem ≠ [] :=
  ⟨{ owing marker with outMem := [(0, 7#8)] }, _, rfl, rfl, rfl, by decide⟩

/-- A machine whose host wrote all the inputs of a call and makes one more move. -/
def ready (m : HostMove) : State :=
  { moved m with inLen := 2#64, inMem := [(0, 7#8), (1, 8#8)], written := ⟨true, true, true, true, true⟩ }

/-- One whose host wrote the inputs of a DECODE alone. -/
def readyStream (m : HostMove) : State := { ready m with written := ⟨false, false, false, false, true⟩ }

/-- START of either kind. -/
theorem witness_StartInitialisesTheCall :
    (∃ (s : State) (v : BitVec 2) (rest : List HostMove), s.host = .writeCtrl v :: rest ∧ v.getLsbD 1 = true ∧
      s.callState ≠ .busy ∧ s.overlap = false ∧ Memory.wf s.inMem = true ∧ s.written.inLen = true ∧ InputFilled s ∧
      v.getLsbD 0 = false ∧ s.written.width = true ∧ s.written.height = true ∧ s.written.channels = true ∧
      s.written.colorspace = true) ∧
      ∃ (s : State) (v : BitVec 2) (rest : List HostMove), s.host = .writeCtrl v :: rest ∧ v.getLsbD 1 = true ∧
        s.callState ≠ .busy ∧ s.overlap = false ∧ Memory.wf s.inMem = true ∧ s.written.inLen = true ∧ InputFilled s ∧
        v.getLsbD 0 = true :=
  ⟨⟨ready (.writeCtrl 0b10#2), 0b10#2, [], by unfold InputFilled; decide⟩,
    ⟨readyStream (.writeCtrl 0b11#2), 0b11#2, [], by unfold InputFilled; decide⟩⟩

/-- Nothing written, the last byte of `IN` missing, no descriptor. -/
theorem witness_UnwrittenInputsAreRefused :
    ((moved (.writeCtrl 0b11#2)).host = [.writeCtrl 0b11#2] ∧ (0b11#2).getLsbD 1 = true ∧
      (moved (.writeCtrl 0b11#2)).callState ≠ .busy ∧ (moved (.writeCtrl 0b11#2)).overlap = false ∧
      (moved (.writeCtrl 0b11#2)).written.inLen = false) ∧
      ({ ready (.writeCtrl 0b11#2) with inLen := 3#64 }.callState ≠ .busy ∧
        ({ ready (.writeCtrl 0b11#2) with inLen := 3#64 } : State).overlap = false ∧
        ∃ a, a < ({ ready (.writeCtrl 0b11#2) with inLen := 3#64 } : State).inLen.toNat ∧
          inByte { ready (.writeCtrl 0b11#2) with inLen := 3#64 } a = none) ∧
      ((0b10#2).getLsbD 1 = true ∧ (readyStream (.writeCtrl 0b10#2)).callState ≠ .busy ∧
        (readyStream (.writeCtrl 0b10#2)).overlap = false ∧ (0b10#2).getLsbD 0 = false ∧
        (readyStream (.writeCtrl 0b10#2)).written.colorspace = false) :=
  ⟨by decide, ⟨by decide, rfl, 2, by decide, rfl⟩, by decide⟩

/-- The ENCODE starts with its inputs written; with one descriptor register missing it does not. -/
theorem test_start_needs_inputs :
    ended (ready (.writeCtrl 0b10#2)) = some (.busy, .none) ∧ ended (readyStream (.writeCtrl 0b11#2)) = some (.busy, .none) ∧
      step (readyStream (.writeCtrl 0b10#2)) = .refused .inputsNeverWritten :=
  ⟨by decide, by decide, rfl⟩

theorem witness_StartWhileBusyIsIgnored :
    ∃ (s : State) (v : BitVec 2) (rest : List HostMove), s.host = .writeCtrl v :: rest ∧ v.getLsbD 1 = true ∧
      s.callState = .busy :=
  ⟨movedBusy (.writeCtrl 0b10#2), 0b10#2, [], by decide⟩

theorem witness_OverlappingLaunchIsRefused :
    ∃ (s : State) (v : BitVec 2) (rest : List HostMove), s.host = .writeCtrl v :: rest ∧ v.getLsbD 1 = true ∧
      s.callState ≠ .busy ∧ s.overlap = true :=
  ⟨{ moved (.writeCtrl 0b10#2) with overlap := true }, 0b10#2, [], by decide⟩

theorem witness_AbortClearsTheStatus :
    (∃ (s : State) (rest : List HostMove), s.host = .writeAbort 1#1 :: rest ∧ s.callState = .busy) ∧
      ∃ (s : State) (rest : List HostMove), s.host = .writeAbort 1#1 :: rest ∧ s.callState ≠ .busy :=
  ⟨⟨movedBusy (.writeAbort 1#1), [], by decide⟩, ⟨moved (.writeAbort 1#1), [], by decide⟩⟩

/-- One move of each kind the statement names. -/
theorem witness_HostWritesAreRefusedWhileBusy :
    (movedBusy (.writeWidth 1#32)).callState = .busy ∧ (movedBusy (.writeHeight 1#32)).callState = .busy ∧
      (movedBusy (.writeChannels 3#8)).callState = .busy ∧ (movedBusy (.writeColorspace 0#8)).callState = .busy ∧
      (movedBusy (.writeInLen 1#64)).callState = .busy ∧ (movedBusy (.writeIn 0 0#8)).callState = .busy ∧
      (movedBusy (.writeCtrl 0b01#2)).callState = .busy ∧ (0b01#2).getLsbD 1 = false := by decide

theorem witness_HostWritesLand :
    (moved (.writeWidth 1#32)).callState ≠ .busy ∧ (moved (.writeHeight 1#32)).callState ≠ .busy ∧
      (moved (.writeChannels 3#8)).callState ≠ .busy ∧ (moved (.writeColorspace 0#8)).callState ≠ .busy ∧
      (moved (.writeInLen 1#64)).callState ≠ .busy ∧ (moved (.writeIn 0 0#8)).callState ≠ .busy ∧
      ((moved (.writeCtrl 0b01#2)).callState ≠ .busy ∧ (0b01#2).getLsbD 1 = false) := by decide

/-- A machine with one byte in each buffer. -/
def holding (m : HostMove) : State := { moved m with inMem := [(1, 7#8)], outMem := [(2, 9#8)] }

theorem witness_HostReadsWithinItsWindow :
    (moved (.readReg .status)).host = [.readReg .status] ∧ (movedBusy (.readReg .status)).host = [.readReg .status] ∧
      (movedBusy (.readReg .width)).callState = .busy ∧ (movedBusy (.readReg .err)).callState = .busy ∧
      (movedBusy (.readIn 14)).callState = .busy ∧ (movedBusy (.readOut 0)).callState = .busy ∧
      (moved (.readReg .colorspace)).callState ≠ .busy ∧ (moved (.readReg .ctrl)).callState ≠ .busy ∧
      (holding (.readIn 1)).callState ≠ .busy ∧ inByte (holding (.readIn 1)) 1 = some 7#8 ∧
      inByte (holding (.readIn 2)) 2 = none ∧ outByte (holding (.readOut 2)) 2 = some 9#8 ∧
      outByte (holding (.readOut 1)) 1 = none := by decide

/-- While BUSY the host reads `STATUS` and nothing else. -/
theorem test_reads_while_busy :
    ended (movedBusy (.readReg .status)) = some (.busy, .none) ∧
      step (movedBusy (.readReg .inLen)) = .refused .hostReadWhileBusy :=
  ⟨by decide, rfl⟩

theorem witness_OnlyStartOrAbortLeavesAFinishedCall :
    (∃ s t : State, s.callState = .done ∧ step s = .next t ∧ t.callState ≠ s.callState) ∧
      ∃ s t : State, s.callState = .error ∧ step s = .next t ∧ t.callState ≠ s.callState :=
  ⟨⟨{ moved (.writeAbort 1#1) with callState := .done }, _, rfl, rfl, by decide⟩,
    ⟨{ ready (.writeCtrl 0b10#2) with callState := .error, err := .malformedHeader }, _, rfl, rfl, by decide⟩⟩

/-- An ENCODE of the 1 x 1 RGBA image (0,0,0,255), just started. -/
def tiny : State :=
  { checking 1#32 1#32 4#8 0#8 4#64 with inMem := [(0, 0#8), (1, 0#8), (2, 0#8), (3, 255#8)] }

theorem tiny_filled : InputFilled tiny := by unfold InputFilled; decide

theorem tiny_cache : CacheOk tiny := fun slot => .inl (by simp [tiny, checking, State.reset, Config.slotInit])

theorem tiny_invariant : Invariant tiny := by
  refine ⟨by decide, by decide, by decide, by decide, by decide, ?_, by decide, fun _ => tiny_filled, fun _ => tiny_cache, ?_⟩
  · intro h; cases h
  · intro _; exact (rfl : tiny.outMem = [])

/-- The same when its one pixel is encoded. -/
def tinyDone : State :=
  emit (headerBytes tiny.config.magic 1#32 1#32 4#8 0#8 ++ [0xC0#8])
    { tiny with phase := .loop, pxPos := 1, ip := 4, prev := Config.prevInit }

theorem tinyDone_invariant : Invariant tinyDone := by
  have hd : OutDense tinyDone :=
    dense_append (s := { tiny with phase := .loop, pxPos := 1, ip := 4, prev := Config.prevInit })
      (fun a => rfl) (emit_stored _ _) rfl
  refine ⟨by decide, by decide, by decide, by decide, by decide, ?_, by decide, fun _ => tiny_filled, fun _ => tiny_cache,
    fun _ => ?_⟩
  · intro h; cases h
  · exact
      { descriptor := by decide
        inLen := by decide
        cursor := by decide
        ip := by decide
        run := by decide
        flushed := fun _ => rfl
        alpha := fun h => absurd h (by decide)
        out := hd
        upper := by decide
        lower := by decide }

/-- An ENCODE of the 1 x 1 RGB image (5,5,5) after its header. -/
def tinyRgb : State :=
  emit (headerBytes Config.default.magic 1#32 1#32 3#8 0#8)
    { checking 1#32 1#32 3#8 0#8 3#64 with
      inMem := [(0, 5#8), (1, 5#8), (2, 5#8)]
      phase := .loop
      prev := Config.prevInit }

theorem tinyRgb_filled : InputFilled tinyRgb := by unfold InputFilled; decide

theorem tinyRgb_invariant : Invariant tinyRgb := by
  have hs : ∀ slot : Fin 64, tinyRgb.cache[slot] = Config.slotInit := fun slot => by
    simp [tinyRgb, checking, State.reset, Config.slotInit]
  have hd : OutDense tinyRgb :=
    dense_append (s := { checking 1#32 1#32 3#8 0#8 3#64 with phase := .loop }) (fun a => rfl) (emit_stored _ _) rfl
  refine ⟨by decide, by decide, by decide, by decide, by decide, ?_, by decide, fun _ => tinyRgb_filled,
    fun _ slot => .inl (hs slot), fun _ => ?_⟩
  · intro h; cases h
  · exact
      { descriptor := by decide
        inLen := by decide
        cursor := by decide
        ip := by decide
        run := by decide
        flushed := fun _ => rfl
        alpha := fun _ => ⟨rfl, fun slot => .inl (hs slot)⟩
        out := hd
        upper := by decide
        lower := by decide }

theorem witness_EncoderNeverEmits_step :
    ∃ (s : State) (px : Pixel), EncodingPixel s px ∧ Invariant s ∧ s.channels = 3#8 :=
  ⟨tinyRgb, grey 5#8,
    ⟨⟨rfl, rfl, rfl, rfl⟩, by decide, .inr ⟨rfl, by unfold InHolds; decide, rfl⟩, by decide⟩, tinyRgb_invariant, rfl⟩

theorem witness_StepKeepsTheInvariant :
    (∃ s t : State, Invariant s ∧ step s = .next t ∧ t.callState = .busy) ∧
      ∃ s t : State, Invariant s ∧ step s = .next t ∧ t.callState = .done :=
  ⟨⟨tiny, _, tiny_invariant, rfl, rfl⟩, ⟨tinyDone, _, tinyDone_invariant, rfl, rfl⟩⟩

theorem witness_OnlyTheHostWritesInput :
    (∃ s t : State, step s = .next t ∧ t.inMem = s.inMem) ∧ ∃ s t : State, step s = .next t ∧ t.inMem ≠ s.inMem :=
  ⟨⟨tiny, _, rfl, rfl⟩, ⟨moved (.writeIn 0 0#8), _, rfl, by decide⟩⟩

theorem witness_OutputIsAppendOnly :
    ∃ s t : State, s.callState = .busy ∧ s.phase = .loop ∧ s.host = [] ∧ step s = .next t ∧ t.callState ≠ .error ∧
      s.op < t.op :=
  ⟨tinyDone, _, rfl, rfl, rfl, rfl, by decide, by decide⟩

theorem witness_EncodedSizeBounds :
    ∃ s t : State, Invariant s ∧ Running .encode .loop s ∧ step s = .next t ∧ t.callState = .done :=
  ⟨tinyDone, _, tinyDone_invariant, ⟨rfl, rfl, rfl, rfl⟩, rfl, rfl⟩

theorem witness_ColorspaceReachesNoPixel :
    ∃ s t : State, s.callState = .busy ∧ s.phase = .loop ∧ s.host = [] ∧ step s = .next t ∧ t.callState ≠ .error :=
  ⟨encoding (grey 1#8) (grey 2#8), _, rfl, rfl, rfl, rfl, by decide⟩

theorem witness_EveryCallEnds :
    (∃ s : State, Invariant s ∧ s.callState = .busy ∧ s.host = [] ∧ s.phase = .check) ∧
      ∃ s : State, Invariant s ∧ s.callState = .busy ∧ s.host = [] ∧ s.phase = .loop :=
  ⟨⟨tiny, tiny_invariant, rfl, rfl, rfl⟩, ⟨tinyDone, tinyDone_invariant, rfl, rfl, rfl⟩⟩

/-- What the ENCODE of `tiny` ends in. -/
def tinyEncoded : State :=
  match steps 4 (startCall .encode tiny) with
  | .next t => t
  | _ => tiny

/-- Two machines that differ in what an earlier call left, and an ENCODE that ends DONE. -/
theorem witness_StartForgetsEarlierCalls :
    ∃ s s' : State, s.config = s'.config ∧ s.inLen = s'.inLen ∧ s.inMem = s'.inMem ∧ s.overlap = s'.overlap ∧
      s.host = s'.host ∧ s.host = [] ∧ s.width = s'.width ∧ s.height = s'.height ∧ s.channels = s'.channels ∧
      s.colorspace = s'.colorspace ∧ s.prev ≠ s'.prev ∧ s.err ≠ s'.err ∧
      ∃ k t, steps k (startCall .encode s) = .next t ∧ t.callState = .done :=
  ⟨tiny, { tiny with prev := grey 1#8, callState := .error, err := .truncatedStream, op := 9 },
    rfl, rfl, rfl, rfl, rfl, rfl, rfl, rfl, rfl, rfl, by decide, by decide, 4, tinyEncoded, rfl, by decide⟩

/-- A machine that holds that stream, about to decode it. -/
def tinyStream : State := { State.reset with inLen := 23#64, inMem := tinyEncoded.outMem }

theorem witness_DecodeOfEncodeIsTheBitmap :
    (tiny.host = [] ∧ descriptorOk tiny ∧ rawLen tiny = tiny.inLen.toNat ∧ InputFilled tiny) ∧
      steps 4 (startCall .encode tiny) = .next tinyEncoded ∧ tinyEncoded.callState = .done ∧
      tinyStream.host = [] ∧ tinyStream.config.magic = tiny.config.magic ∧
      rawLen tiny ≤ tinyStream.config.maxOutBytes ∧ tinyStream.inLen.toNat = tinyEncoded.outLen ∧
      ∀ a, a < tinyEncoded.outLen → inByte tinyStream a = outByte tinyEncoded a :=
  ⟨⟨rfl, by decide, by decide, tiny_filled⟩, rfl, by decide, rfl, rfl, by decide, by decide, fun _ _ => rfl⟩

theorem witness_UniformImageIsRuns :
    tiny.host = [] ∧ descriptorOk tiny ∧ rawLen tiny = tiny.inLen.toNat ∧
      ∀ i, i < pixelCount tiny → PixelAtCursor { tiny with pxPos := i } ⟨0#8, 0#8, 0#8, 255#8⟩ := by
  refine ⟨rfl, by decide, by decide, fun i hi => ?_⟩
  have h1 : i < 1 := hi
  interval_cases i
  exact .inl ⟨rfl, by unfold InHolds; decide⟩

end Sys2Proof.Tests
end

/-! ## The tag parser reads back what the serialiser wrote -/

namespace Sys2Proof.Machine

theorem bits_tag (b : Byte) : bits b 6 2 = b.toNat / 64 := by
  have := b.isLt
  unfold bits; omega

theorem ne_fullPixelTags {b : Byte} (h : b.toNat < 0xFE) : b ≠ 0xFE#8 ∧ b ≠ 0xFF#8 :=
  ⟨(byte_ne_iff (by decide)).2 (by omega), (byte_ne_iff (by decide)).2 (by omega)⟩

/-! The first-byte map of the 2-bit tags (30_encoding.md R89). -/

theorem decodeChunk_indexTag {b0 : Byte} (rest : List Byte) (h : b0.toNat < 0x40) :
    decodeChunk (b0 :: rest) = .ok (decodeIndex b0, rest) := by
  obtain ⟨h1, h2⟩ := ne_fullPixelTags (b := b0) (by omega)
  simp only [decodeChunk, h1, h2, if_false, show bits b0 6 2 = 0 by rw [bits_tag]; omega, if_true]

theorem decodeChunk_diffTag {b0 : Byte} (rest : List Byte) (h : 0x40 ≤ b0.toNat) (h' : b0.toNat < 0x80) :
    decodeChunk (b0 :: rest) = .ok (decodeDiff b0, rest) := by
  obtain ⟨h1, h2⟩ := ne_fullPixelTags (b := b0) (by omega)
  simp [decodeChunk, h1, h2, show bits b0 6 2 = 1 by rw [bits_tag]; omega]

theorem decodeChunk_lumaTag {b0 : Byte} (b1 : Byte) (rest : List Byte) (h : 0x80 ≤ b0.toNat) (h' : b0.toNat < 0xC0) :
    decodeChunk (b0 :: b1 :: rest) = .ok (decodeLuma b0 b1, rest) := by
  obtain ⟨h1, h2⟩ := ne_fullPixelTags (b := b0) (by omega)
  simp [decodeChunk, h1, h2, show bits b0 6 2 = 2 by rw [bits_tag]; omega]

theorem decodeChunk_runTag {b0 : Byte} (rest : List Byte) (h : 0xC0 ≤ b0.toNat) (h' : b0.toNat < 0xFE) :
    decodeChunk (b0 :: rest) = .ok (decodeRun b0, rest) := by
  obtain ⟨h1, h2⟩ := ne_fullPixelTags (b := b0) h'
  simp [decodeChunk, h1, h2, show bits b0 6 2 = 3 by rw [bits_tag]; omega]

/-- Every well-formed chunk is parsed from its encoding, whatever bytes follow (R82 to R87). -/
theorem decodeChunk_encode {i : Instr} (hw : i.WellFormed) (hne : i ≠ .endMarker) (rest : List Byte) :
    decodeChunk (encode i ++ rest) = .ok (i, rest) := by
  cases i with
  | rgb r g b => rfl
  | rgba r g b a => rfl
  | index slot =>
    have hs := slot.isLt
    have hb : (BitVec.ofNat 8 slot.val).toNat = slot.val := ofNat_byte_toNat (by omega)
    simp only [encode, List.singleton_append]
    rw [decodeChunk_indexTag _ (by omega)]
    simp only [decodeIndex, bits, hb]
    congr; omega
  | diff dr dg db =>
    simp only [Instr.WellFormed, Instr.wellFormed, Bool.and_eq_true, inRange_eq_true] at hw
    have hb := @ofInt_byte_toNat (0x40 + (dr + 2) * 16 + (dg + 2) * 4 + (db + 2)) (by omega) (by omega)
    simp only [encode, List.singleton_append]
    generalize BitVec.ofInt 8 (0x40 + (dr + 2) * 16 + (dg + 2) * 4 + (db + 2)) = b0 at hb ⊢
    rw [decodeChunk_diffTag _ (by omega) (by omega)]
    simp only [decodeDiff, bits]
    congr <;> omega
  | luma dg drDg dbDg =>
    simp only [Instr.WellFormed, Instr.wellFormed, Bool.and_eq_true, inRange_eq_true] at hw
    have hb0 := @ofInt_byte_toNat (0x80 + (dg + 32)) (by omega) (by omega)
    have hb1 := @ofInt_byte_toNat ((drDg + 8) * 16 + (dbDg + 8)) (by omega) (by omega)
    simp only [encode, List.cons_append, List.nil_append]
    generalize BitVec.ofInt 8 (0x80 + (dg + 32)) = b0 at hb0 ⊢
    generalize BitVec.ofInt 8 ((drDg + 8) * 16 + (dbDg + 8)) = b1 at hb1 ⊢
    rw [decodeChunk_lumaTag _ _ (by omega) (by omega)]
    simp only [decodeLuma, bits]
    congr <;> omega
  | run count =>
    simp only [Instr.WellFormed, Instr.wellFormed, Bool.and_eq_true, decide_eq_true_eq] at hw
    have hb : (BitVec.ofNat 8 (0xC0 + (count - 1))).toNat = 0xC0 + (count - 1) := ofNat_byte_toNat (by omega)
    simp only [encode, List.singleton_append]
    rw [decodeChunk_runTag _ (by omega) (by omega)]
    simp only [decodeRun, bits, hb]
    congr; omega
  | endMarker => exact absurd rfl hne

/-- The same at a chunk boundary, where the bytes are no detected end marker (43_decoder.md R183). -/
theorem decode_encode {i : Instr} {detect : Bool} {rest : List Byte} (hw : i.WellFormed) (hne : i ≠ .endMarker)
    (hm : ¬ (detect = true ∧ (encode i ++ rest).take Config.endLen = Config.endMarker)) :
    decode detect (encode i ++ rest) = .ok (i, rest) := by
  rw [decode, if_neg hm, decodeChunk_encode hw hne]

/-- `EncodeLength.Statement` for every item. -/
theorem encodeLength (i : Instr) : Laws.EncodeLength.Statement i := by
  cases i with
  | rgb r g b => exact Laws.EncodeLength.rgb r g b
  | rgba r g b a => exact Laws.EncodeLength.rgba r g b a
  | index slot => exact Laws.EncodeLength.index slot
  | diff dr dg db => exact Laws.EncodeLength.diff dr dg db
  | luma dg drDg dbDg => exact Laws.EncodeLength.luma dg drDg dbDg
  | run count => exact Laws.EncodeLength.run count
  | endMarker => exact Laws.EncodeLength.endMarker

/-- A chunk's encoding is a first byte and the payload that byte announces (43_decoder.md R172). -/
theorem encode_eq_cons {i : Instr} (hw : i.WellFormed) (hne : i ≠ .endMarker) :
    ∃ b0 payload, encode i = b0 :: payload ∧ (encode i).length = 1 + payloadLen b0 := by
  obtain ⟨hlen, hpay⟩ := encodeLength i
  cases he : encode i with
  | nil => have := (chunkLength_le hne).1; rw [he] at hlen; simp at hlen; omega
  | cons b0 payload => exact ⟨b0, payload, rfl, by rw [← he, hlen, hpay hne hw b0 (by simp [he])]⟩

/-! ## Bytes held in `IN` -/

theorem inHolds_append {s : State} {base : Nat} {xs ys : List Byte} :
    InHolds s base (xs ++ ys) ↔ InHolds s base xs ∧ InHolds s (base + xs.length) ys := by
  constructor
  · intro h
    refine ⟨fun j hj => ?_, fun j hj => ?_⟩
    · rw [h j (by simp; omega), List.getElem?_append_left hj]
    · rw [Nat.add_assoc, h _ (by simp; omega), List.getElem?_append_right (by omega), Nat.add_sub_cancel_left]
  · rintro ⟨hx, hy⟩ j hj
    rw [List.length_append] at hj
    by_cases hl : j < xs.length
    · rw [hx j hl, List.getElem?_append_left hl]
    · rw [List.getElem?_append_right (by omega), ← hy (j - xs.length) (by omega)]
      congr 1; omega

/-- Two lists held at one address agree as far as both go. -/
theorem inHolds_extends {s : State} {base : Nat} {xs ys : List Byte} (hx : InHolds s base xs) (hy : InHolds s base ys)
    (hl : xs.length ≤ ys.length) : ∃ rest, ys = xs ++ rest := by
  refine ⟨ys.drop xs.length, ?_⟩
  conv_lhs => rw [← List.take_append_drop xs.length ys]
  congr 1
  apply List.ext_getElem?
  intro j
  by_cases hj : j < xs.length
  · rw [List.getElem?_take_of_lt hj, ← hx j hj, ← hy j (by omega)]
  · rw [List.getElem?_eq_none (by simp; omega), List.getElem?_eq_none (by omega)]

/-! ## One step of the decoder is the chunk at `ip` -/

/-- The chunk fetch yields the chunk's bytes, with more after them where the look-ahead reads them, and these are no detected end
marker (43_decoder.md R172, R173, R183). -/
theorem fetchBytes_chunk {s : State} {i : Instr} (hw : i.WellFormed) (hne : i ≠ .endMarker)
    (hi : InHolds s s.ip (encode i)) (hl : s.ip + (encode i).length ≤ s.inLen.toNat)
    (hm : s.config.endMarkerDetect = true → s.ip + 8 ≤ s.inLen.toNat →
      ∃ w : List Byte, w.length = 8 ∧ InHolds s s.ip w ∧ w ≠ Config.endMarker) :
    ∃ rest, fetchBytes s = some (encode i ++ rest) ∧
      ¬ (s.config.endMarkerDetect = true ∧ (encode i ++ rest).take Config.endLen = Config.endMarker) := by
  have hlen := chunkLength_le hne
  rw [← encode_length] at hlen
  unfold fetchBytes
  by_cases hd : s.config.endMarkerDetect = true ∧ Config.endLen ≤ s.inLen.toNat - s.ip
  · obtain ⟨hdet, hleft⟩ := hd
    simp only [Config.endLen] at hleft
    obtain ⟨w, hw8, hin, hwm⟩ := hm hdet (by omega)
    obtain ⟨rest, rfl⟩ := inHolds_extends hi hin (by omega)
    refine ⟨rest, ?_, ?_⟩
    · rw [if_pos ⟨hdet, hleft⟩, show Config.endLen = _ from hw8.symm]
      exact memReadN_of_inHolds _ _ _ hin
    · rw [show Config.endLen = _ from hw8.symm, List.take_length]
      exact fun h => hwm h.2
  · obtain ⟨b0, payload, he, hpay⟩ := encode_eq_cons hw hne
    have h0 : memRead s.inMem s.ip = some b0 := by simpa [he, inByte] using hi 0 (by omega)
    refine ⟨[], ?_, ?_⟩
    · simp only [if_neg hd, if_neg (show ¬ s.inLen.toNat - s.ip = 0 by omega), h0]
      rw [← hpay, Nat.min_eq_right (by omega), List.append_nil]
      exact memReadN_of_inHolds _ _ _ hi
    · rintro ⟨-, hmark⟩
      have := congrArg List.length hmark
      simp [Config.endMarker] at this
      omega

/-- Where the bytes at `ip` encode a chunk and are no detected end marker, an iteration of the chunk loop is `exec` of it
(43_decoder.md R186). -/
theorem decodeStep_eq_exec {s : State} {i : Instr} (hw : i.WellFormed) (hne : i ≠ .endMarker)
    (hi : InHolds s s.ip (encode i)) (hl : s.ip + (encode i).length ≤ s.inLen.toNat)
    (hm : s.config.endMarkerDetect = true → s.ip + 8 ≤ s.inLen.toNat →
      ∃ w : List Byte, w.length = 8 ∧ InHolds s s.ip w ∧ w ≠ Config.endMarker) :
    decodeStep s = exec i s := by
  obtain ⟨rest, hf, hmark⟩ := fetchBytes_chunk hw hne hi hl hm
  simp only [decodeStep, hf, decode_encode hw hne hmark]

/-- A step in the chunk loop with pixels owed. -/
theorem step_decode_owed {s : State} (h : Running .decode .loop s) (ho : s.pxPos < pixelCount s) :
    step s = decodeStep s := by
  simp [step_of_no_move h.host, engineStep, decodeCall, h.busy, h.mode, h.phase, ho]

/-! ## What the decoder does with the encoder's chunks -/

/-- The chunk picked for a pixel is of the ranges of 30_encoding.md R88. -/
theorem pickedChunk_wellFormed (px : Pixel) (s : State) : (pickedChunk px s).WellFormed := by
  unfold pickedChunk missChunk
  split
  · rfl
  · split
    · split
      · rename_i hd
        obtain ⟨hr, hg, hb⟩ := (diffOk_iff _ _).1 hd
        simp only [Instr.WellFormed, Instr.wellFormed, Bool.and_eq_true, inRange_eq_true]
        exact ⟨⟨hr, hg⟩, hb⟩
      · split
        · rename_i hl
          obtain ⟨hg, hr, hb⟩ := (lumaOk_iff _ _).1 hl
          simp only [Instr.WellFormed, Instr.wellFormed, Bool.and_eq_true, inRange_eq_true]
          exact ⟨⟨hg, hr⟩, hb⟩
        · rfl
    · rfl

theorem pickedChunk_ne_endMarker (px : Pixel) (s : State) : pickedChunk px s ≠ .endMarker := by
  unfold pickedChunk missChunk
  split
  · simp
  · split
    · split
      · simp
      · split <;> simp
    · simp

/-- Lock step (41_index_cache.md R136): a decoder that agrees with the encoder on `prev` and the cache rebuilds the pixel from the
chunk the encoder picked for it. -/
theorem exec_pickedChunk {e d : State} (px : Pixel) (hp : d.prev = e.prev) (hc : d.cache = e.cache) :
    exec (pickedChunk px e) d = .next (resolve (encode (pickedChunk px e)).length px d) := by
  unfold pickedChunk
  split
  · rename_i hit
    rw [← hc] at hit
    simp only [exec, execIndex, indexChunk, cacheGet, hit]; rfl
  · unfold missChunk
    rw [← hp]
    split
    · rename_i ha
      rw [alphaSame_iff] at ha
      have hmove := movePixel_deltas px d.prev ha
      split
      · simp only [exec, execDiff, hmove]; rfl
      · split
        · simp only [exec, execLuma, Int.sub_add_cancel, hmove]; rfl
        · simp only [exec, execRgb, ← ha]; rfl
    · rfl

/-- A RUN chunk that fits the image (43_decoder.md R177). -/
theorem exec_run_fits {count : Nat} {s : State} (h : s.pxPos + count ≤ pixelCount s) :
    exec (.run count) s = .next (repeatedState count s) := by
  have hk : clippedCount count s = count := by unfold clippedCount; omega
  simp only [exec, execRun, hk]; rfl

end Sys2Proof.Machine

/-! ## Runs of the machine, and what its frame keeps -/

namespace Sys2Proof.Machine

/-- Some number of steps lead from `s` to `t`. -/
def Reaches (s t : State) : Prop := ∃ k, steps k s = .next t

theorem Reaches.refl (s : State) : Reaches s s := ⟨0, rfl⟩

theorem Reaches.head {s t u : State} (h : step s = .next t) (hr : Reaches t u) : Reaches s u := by
  obtain ⟨k, hk⟩ := hr
  exact ⟨k + 1, by simp only [steps, h, hk]⟩

theorem Reaches.of_step {s t : State} (h : step s = .next t) : Reaches s t := .head h (.refl t)

theorem Reaches.trans {s t u : State} (h : Reaches s t) (hr : Reaches t u) : Reaches s u := by
  obtain ⟨k, hk⟩ := h
  induction k generalizing s with
  | zero => cases hk; exact hr
  | succ k ih =>
    unfold steps at hk
    split at hk
    · rename_i s' hs
      exact .head hs (ih hk)
    · cases hk
    · cases hk

section
variable {s t : State} (c : SameControl s t)
include c

theorem SameControl.running {m : Mode} {p : Phase} (h : Running m p s) : Running m p t :=
  ⟨c.callState.trans h.busy, c.mode.trans h.mode, c.phase.trans h.phase, c.host.trans h.host⟩

theorem SameControl.pixelCount : pixelCount t = pixelCount s := by
  simp [Machine.pixelCount, c.width, c.height]

theorem SameControl.rawLen : rawLen t = rawLen s := by
  simp [Machine.rawLen, c.width, c.height, c.channels]

theorem SameControl.inByte (a : Nat) : inByte t a = inByte s a := by
  simp [Machine.inByte, c.inMem]

theorem SameControl.inHolds {base : Nat} {bytes : List Byte} (h : InHolds s base bytes) : InHolds t base bytes :=
  fun j hj => by rw [c.inByte, h j hj]

end

/-- One store after another at `op` is the store of both. -/
theorem Stored.append {s t u : State} {xs ys : List Byte} {base : Nat} (h : Stored s t base xs)
    (k : Stored t u (base + xs.length) ys) : Stored s u base (xs ++ ys) := by
  intro a
  rw [k a, h a, List.length_append]
  by_cases hx : base ≤ a ∧ a < base + xs.length
  · rw [if_neg (by omega), if_pos hx, if_pos (by omega), List.getElem?_append_left (by omega)]
  · rw [if_neg hx]
    by_cases hy : base + xs.length ≤ a ∧ a < base + xs.length + ys.length
    · rw [if_pos hy, if_pos (by omega), List.getElem?_append_right (by omega)]
      congr 1; omega
    · rw [if_neg hy, if_neg (by omega)]

/-! ## The decoder at the front of a byte stream -/

/-- The bytes of `IN` from `ip` to its end. -/
structure BytesLeft (d : State) (bytes : List Byte) : Prop where
  holds : InHolds d d.ip bytes
  len : d.inLen.toNat = d.ip + bytes.length

/-- What is left after the first bytes were read. -/
theorem BytesLeft.after {d t : State} {xs ys : List Byte} (h : BytesLeft d (xs ++ ys)) (c : SameControl d t)
    (hip : t.ip = d.ip + xs.length) : BytesLeft t ys where
  holds := by rw [hip]; exact c.inHolds (inHolds_append.1 h.holds).2
  len := by rw [c.inLen, h.len, hip, List.length_append, Nat.add_assoc]

/-- Only `INDEX{0}` begins with a byte 0 (30_encoding.md R89). -/
theorem eq_index_zero {i : Instr} {payload : List Byte} (hw : i.WellFormed) (hne : i ≠ .endMarker)
    (h : encode i = 0#8 :: payload) : i = .index 0 := by
  have hi := decodeChunk_encode hw hne []
  rw [h, List.cons_append, decodeChunk_indexTag _ (by decide)] at hi
  injection hi with hi
  exact (congrArg Prod.fst hi).symm

/-- At a chunk that is not the start of the end marker the decoder's step is `exec` of it. -/
theorem step_runs_chunk {d : State} {i : Instr} {rest : List Byte} (h : Running .decode .loop d)
    (ho : d.pxPos < pixelCount d) (hw : i.WellFormed) (hne : i ≠ .endMarker) (hb : BytesLeft d (encode i ++ rest))
    (hm : i = .index 0 → (encode i ++ rest).take 8 ≠ Config.endMarker) : step d = exec i d := by
  have hlen := hb.len
  rw [List.length_append] at hlen
  rw [step_decode_owed h ho]
  refine decodeStep_eq_exec hw hne (inHolds_append.1 hb.holds).1 (by omega) fun _ h8 => ?_
  refine ⟨(encode i ++ rest).take 8, by rw [List.length_take, List.length_append]; omega, ?_, fun hmark => ?_⟩
  · have := hb.holds
    rw [← List.take_append_drop 8 (encode i ++ rest)] at this
    exact (inHolds_append.1 this).1
  · obtain ⟨b0, payload, he, -⟩ := encode_eq_cons hw hne
    have h0 : b0 = 0#8 := by
      rw [he] at hmark
      simpa [Config.endMarker] using congrArg List.head? hmark
    exact hm (eq_index_zero hw hne (h0 ▸ he)) hmark

/-! ## The decoder in lock step with the encoder -/

/-- `OUT` of the decoder is the raw image as far as it goes. -/
def Copies (d e : State) : Prop := ∀ a, a < d.op → outByte d a = inByte e a

theorem Copies.append {d t e : State} {bytes : List Byte} (h : Copies d e) (hs : Stored d t d.op bytes)
    (hop : t.op = d.op + bytes.length) (hin : InHolds e d.op bytes) : Copies t e := by
  intro a ha
  rw [hs a]
  split
  · rename_i hr
    rw [← hin (a - d.op) (by omega), Nat.add_sub_cancel' hr.1]
  · exact h a (by omega)

/-- A running DECODE of the image that the encoder holds. -/
structure SameImage (d e : State) : Prop where
  running : Running .decode .loop d
  err : d.err = .none
  width : d.width = e.width
  height : d.height = e.height
  channels : d.channels = e.channels
  colorspace : d.colorspace = e.colorspace

theorem SameImage.pixelCount {d e : State} (h : SameImage d e) : pixelCount d = pixelCount e := by
  simp [Machine.pixelCount, h.width, h.height]

theorem SameImage.of_control {d e d' e' : State} (h : SameImage d e) (cd : SameControl d d') (ce : SameControl e e') :
    SameImage d' e' where
  running := cd.running h.running
  err := cd.err.trans h.err
  width := by rw [cd.width, ce.width, h.width]
  height := by rw [cd.height, ce.height, h.height]
  channels := by rw [cd.channels, ce.channels, h.channels]
  colorspace := by rw [cd.colorspace, ce.colorspace, h.colorspace]

/-- The decoder `d` has read all the encoder `e` has emitted: they agree on `prev` and the cache (41_index_cache.md R136), and the
pixels of the pending run are all that `d` lacks. -/
structure Follows (d e : State) : Prop where
  image : SameImage d e
  prev : d.prev = e.prev
  cache : d.cache = e.cache
  pxPos : d.pxPos + e.run = e.pxPos
  op : d.op = d.pxPos * pixelSize e.channels
  copies : Copies d e
  /-- The pixels of the pending run equal `prev`. -/
  pending : InHolds e d.op (repeatBytes e.channels e.prev e.run)

/-- What the encoder has emitted is not looked at. -/
theorem Follows.congr {d e e' : State} (h : Follows d e) (c : SameControl e e') (hprev : e'.prev = e.prev)
    (hcache : e'.cache = e.cache) (hpx : e'.pxPos = e.pxPos) (hrun : e'.run = e.run) : Follows d e' where
  image := h.image.of_control (.refl d) c
  prev := h.prev.trans hprev.symm
  cache := h.cache.trans hcache.symm
  pxPos := by rw [hrun, hpx, h.pxPos]
  op := by rw [c.channels, h.op]
  copies := fun a ha => by rw [c.inByte, h.copies a ha]
  pending := by rw [c.channels, hprev, hrun]; exact c.inHolds h.pending

/-- Pixel `px` stands at the cursor of the raw image. -/
def AtCursor (e : State) (px : Pixel) : Prop :=
  InHolds e (e.pxPos * pixelSize e.channels) (pixelBytes e.channels px)

/-- The pixel fetch reads the bytes of its pixel (42_encoder.md R141). -/
theorem fetchPixel_atCursor {e : State} {px : Pixel} (hd : descriptorOk e) (h : fetchPixel e = some px) :
    AtCursor e px := by
  have hch := descriptorOk_channels e hd
  unfold fetchPixel at h
  rw [← pixelSize_eq _ hch] at h
  split at h
  · cases h
  · rename_i bytes hb
    obtain ⟨hl, hin⟩ := inHolds_of_memReadN _ _ _ _ hb
    have hbytes : bytes = pixelBytes e.channels px := by
      rcases hch with hc | hc <;> rw [hc] at hl ⊢
      · match bytes, hl with
        | [r, g, b], _ => cases h; rfl
      · match bytes, hl with
        | [r, g, b, a], _ => cases h; rfl
    rwa [hbytes] at hin

theorem repeatBytes_succ (c : Byte) (p : Pixel) (k : Nat) :
    repeatBytes c p (k + 1) = repeatBytes c p k ++ pixelBytes c p := by
  simp [repeatBytes_eq, List.replicate_succ']

/-- A pixel that joins the run leaves the decoder one pixel further behind. -/
theorem Follows.counted {d e : State} (h : Follows d e) (hp : AtCursor e e.prev) :
    Follows d (advance { e with run := e.run + 1 }) where
  image := h.image.of_control (.refl d) (by constructor <;> rfl)
  prev := h.prev
  cache := h.cache
  pxPos := congrArg (· + 1) h.pxPos
  op := h.op
  copies := h.copies
  pending := by
    show InHolds e d.op (repeatBytes e.channels e.prev (e.run + 1))
    rw [repeatBytes_succ]
    refine inHolds_append.2 ⟨h.pending, ?_⟩
    rw [repeatBytes_length, h.op, ← Nat.add_mul, h.pxPos]
    exact hp

theorem repeatedState_control (k : Nat) (d : State) : SameControl d (repeatedState k d) := by constructor <;> rfl

/-- A RUN chunk makes up the pixels of the run (43_decoder.md R177). -/
theorem Follows.flushed {d e : State} (h : Follows d e) : Follows (repeatedState e.run d) { e with run := 0 } where
  image := h.image.of_control (repeatedState_control _ d) (by constructor <;> rfl)
  prev := h.prev
  cache := h.cache
  pxPos := h.pxPos
  op := by
    show d.op + (repeatBytes d.channels d.prev e.run).length = (d.pxPos + e.run) * pixelSize e.channels
    rw [repeatBytes_length, h.op, h.image.channels, Nat.add_mul]
  copies := by
    have hs : Stored d (repeatedState e.run d) d.op (repeatBytes d.channels d.prev e.run) := emit_stored _ d
    refine Copies.append (e := e) h.copies hs rfl ?_
    rw [h.image.channels, h.prev]
    exact h.pending
  pending := fun j hj => by simp [repeatBytes] at hj

/-- The chunk of a pixel makes up that pixel (43_decoder.md R180, R181). -/
theorem Follows.resolved {d e e' : State} {px : Pixel} (len : Nat) (h : Follows d e) (hr : e.run = 0)
    (hp : AtCursor e px) (c : SameControl e e') (hprev : e'.prev = px) (hcache : e'.cache = e.cache.set (lookup px) px)
    (hpx : e'.pxPos = e.pxPos + 1) (hrun : e'.run = 0) : Follows (resolve len px d) e' where
  image := h.image.of_control (resolve_resolves len px d).control c
  prev := hprev.symm
  cache := by rw [resolve_cache, h.cache, hcache]
  pxPos := by rw [hrun, hpx, ← h.pxPos, hr]; rfl
  op := by rw [resolve_op, pixelBytes_length, h.op, h.image.channels, c.channels, resolve_pxPos, Nat.succ_mul]
  copies := by
    have hin : InHolds e d.op (pixelBytes d.channels px) := by
      rw [h.op, h.image.channels, show d.pxPos = e.pxPos by rw [← h.pxPos, hr]; rfl]; exact hp
    intro a ha
    rw [c.inByte]
    exact h.copies.append (resolve_resolves len px d).out rfl hin a ha
  pending := by rw [hrun]; exact fun j hj => by simp [repeatBytes] at hj

theorem pendingRun_eq {e : State} (h : e.run ≠ 0) : pendingRun e = encode (.run e.run) := if_neg h

theorem run_wellFormed {k : Nat} (h : k ≠ 0) (h' : k ≤ 62) : (Instr.run k).WellFormed := by
  simp [Instr.WellFormed, Instr.wellFormed]; omega

/-- The decoder reads the pending run, if there is one, and then agrees with the encoder that has flushed it. -/
theorem Follows.reads_pendingRun {d e : State} {rest : List Byte} (h : Follows d e) (hk : e.run ≤ 62)
    (hcur : e.pxPos ≤ pixelCount e) (hb : BytesLeft d (pendingRun e ++ rest)) :
    ∃ d', Reaches d d' ∧ Follows d' { e with run := 0 } ∧ BytesLeft d' rest := by
  by_cases h0 : e.run = 0
  · refine ⟨d, .refl d, h.congr (by constructor <;> rfl) rfl rfl rfl h0.symm, ?_⟩
    rwa [pendingRun, if_pos h0] at hb
  · rw [pendingRun_eq h0] at hb
    have hpx := h.pxPos
    have hn := h.image.pixelCount
    have hstep : step d = .next (repeatedState e.run d) := by
      rw [step_runs_chunk h.image.running (by omega) (run_wellFormed h0 hk) (by simp) hb (by simp),
        exec_run_fits (by omega)]
    exact ⟨_, .of_step hstep, h.flushed, hb.after (repeatedState_control _ d) rfl⟩

/-- The decoder reads the chunk of a pixel that broke the run. -/
theorem Follows.reads_pickedChunk {d e e' : State} {px : Pixel} {rest : List Byte} (h : Follows d e) (hr : e.run = 0)
    (ho : e.pxPos < pixelCount e) (hp : AtCursor e px) (hb : BytesLeft d (encode (pickedChunk px e) ++ rest))
    (hm : pickedChunk px e = .index 0 → (encode (pickedChunk px e) ++ rest).take 8 ≠ Config.endMarker)
    (c : SameControl e e') (hprev : e'.prev = px) (hcache : e'.cache = e.cache.set (lookup px) px)
    (hpx : e'.pxPos = e.pxPos + 1) (hrun : e'.run = 0) :
    ∃ d', Reaches d d' ∧ Follows d' e' ∧ BytesLeft d' rest := by
  have hpos := h.pxPos
  have hn := h.image.pixelCount
  have hstep := step_runs_chunk h.image.running (by omega) (pickedChunk_wellFormed px e)
    (pickedChunk_ne_endMarker px e) hb hm
  rw [exec_pickedChunk px h.prev h.cache] at hstep
  exact ⟨_, .of_step hstep, h.resolved _ hr hp c hprev hcache hpx hrun, hb.after (resolve_resolves _ px d).control rfl⟩

end Sys2Proof.Machine

/-! ## The ENCODE to its end, and the DECODE of what it emits from any point on -/

namespace Sys2Proof.Machine

/-- An ENCODE between pixels, with its image in `IN`. -/
structure EncodeReady (e : State) : Prop where
  running : Running .encode .loop e
  descriptor : descriptorOk e
  inLen : e.inLen.toNat = rawLen e
  input : InputFilled e
  cursor : e.pxPos ≤ pixelCount e
  run : e.run ≤ 61
  /-- The final pixel flushed the run (42_encoder.md R143). -/
  flushed : e.pxPos = pixelCount e → e.run = 0

theorem EncodeReady.next {e t : State} (h : EncodeReady e) (c : SameControl e t) (ho : e.pxPos < pixelCount e)
    (hpx : t.pxPos = e.pxPos + 1) (hrun : t.run ≤ 61) (hf : e.pxPos + 1 = pixelCount e → t.run = 0) : EncodeReady t where
  running := c.running h.running
  descriptor := by rw [descriptorOk, c.width, c.height, c.channels, c.colorspace]; exact h.descriptor
  inLen := by rw [c.inLen, c.rawLen, h.inLen]
  input := fun a ha => by rw [c.inByte]; exact h.input a (c.inLen ▸ ha)
  cursor := by rw [c.pixelCount, hpx]; exact ho
  run := hrun
  flushed := fun heq => hf (by rw [← hpx, heq, c.pixelCount])

/-- The DECODE ended DONE with the image that `e` holds. -/
structure RoundTrip (e t : State) : Prop where
  callState : t.callState = .done
  err : t.err = .none
  trailerOk : t.trailerOk = true
  width : t.width = e.width
  height : t.height = e.height
  channels : t.channels = e.channels
  colorspace : t.colorspace = e.colorspace
  outLen : t.outLen = rawLen e
  out : ∀ a, a < rawLen e → outByte t a = inByte e a

theorem RoundTrip.of_control {e e' t : State} (h : RoundTrip e' t) (c : SameControl e e') : RoundTrip e t where
  callState := h.callState
  err := h.err
  trailerOk := h.trailerOk
  width := h.width.trans c.width
  height := h.height.trans c.height
  channels := h.channels.trans c.channels
  colorspace := h.colorspace.trans c.colorspace
  outLen := h.outLen.trans c.rawLen
  out := fun a ha => (h.out a (c.rawLen ▸ ha)).trans (c.inByte a)

/-- A decoder that is as far as the encoder and reads `rest` ends with the image. -/
def Decodes (e : State) (rest : List Byte) : Prop :=
  ∀ d, Follows d e → BytesLeft d rest → ∃ t, Reaches d t ∧ RoundTrip e t

/-- A byte 0 where the encoder's next output begins is the end marker's or the `INDEX{0}` of a pixel other than `prev`; so
`INDEX{0}` never comes twice in a row (42_encoder.md R159 (a)), and no chunks look like the end marker. -/
def ZeroStart (e : State) (rest : List Byte) : Prop :=
  rest.head? = some 0#8 → rest = Config.endMarker ∨ e.cache[(0 : Fin 64)] ≠ e.prev

/-- From `e` the ENCODE ends in `t` after appending `rest`, and `rest` decodes to the pixels still to come. -/
structure EncodesTo (e t : State) (rest : List Byte) : Prop where
  callState : t.callState = .done
  outLen : t.outLen = e.op + rest.length
  out : Stored e t e.op rest
  zeroStart : ZeroStart e rest
  decodes : Decodes e rest

/-! ### The closing step -/

theorem step_decode_full {d : State} (h : Running .decode .loop d) (hf : pixelCount d ≤ d.pxPos) :
    step d = decodeClose d := by
  simp [step_of_no_move h.host, engineStep, decodeCall, h.busy, h.mode, h.phase, Nat.not_lt.2 hf]

theorem step_encode_full {e : State} (h : Running .encode .loop e) (hf : pixelCount e ≤ e.pxPos) :
    step e = .next (encodeClosedState e) := by
  simp [step_of_no_move h.host, engineStep, encodeCall, h.busy, h.mode, h.phase, encodeClose_eq, Nat.not_lt.2 hf]

/-- The trailer is seen where it is all that is left (40_header_codec.md R117). -/
theorem trailerTest_endMarker {d : State} (h : BytesLeft d Config.endMarker) : trailerTest d = some true := by
  have hr := memReadN_of_inHolds _ _ _ h.holds
  rw [trailerTest, if_pos (show d.ip + Config.endLen ≤ _ from h.len.ge)]
  simp only [show Config.endLen = Config.endMarker.length from rfl, hr, decide_true]

theorem decodes_endMarker {e : State} (h : EncodeReady e) (hf : e.pxPos = pixelCount e) : Decodes e Config.endMarker := by
  intro d hd hb
  have hpx : d.pxPos = pixelCount e := by rw [← hf, ← hd.pxPos, h.flushed hf]; rfl
  have hop : d.op = rawLen e := by
    rw [hd.op, hpx, pixelSize_eq _ (descriptorOk_channels e h.descriptor)]; rfl
  have hstep := step_decode_full hd.image.running (by rw [hpx, hd.image.pixelCount])
  simp only [decodeClose, trailerTest_endMarker hb] at hstep
  exact ⟨_, .of_step hstep,
    { callState := rfl
      err := hd.image.err
      trailerOk := rfl
      width := hd.image.width
      height := hd.image.height
      channels := hd.image.channels
      colorspace := hd.image.colorspace
      outLen := hop
      out := fun a ha => hd.copies a (hop ▸ ha) }⟩

/-- With every pixel taken the ENCODE closes with the end marker (42_encoder.md R158). -/
theorem encodesTo_closed {e : State} (h : EncodeReady e) (hf : e.pxPos = pixelCount e) :
    ∃ t, Reaches e t ∧ EncodesTo e t Config.endMarker := by
  have hp : pendingRun e = [] := if_pos (h.flushed hf)
  refine ⟨_, .of_step (step_encode_full h.running hf.ge), rfl, ?_, ?_, fun _ => .inl rfl, decodes_endMarker h hf⟩
  · show e.op + (pendingRun e).length + 8 = _
    rw [hp]; rfl
  · have hs : Stored e (encodeClosedState e) e.op (pendingRun e ++ Config.endMarker) := emit_stored _ e
    rwa [hp] at hs

/-! ### A pixel that joins the run -/

theorem step_encode_same {e : State} (h : Running .encode .loop e) (ho : e.pxPos < pixelCount e)
    (hf : fetchPixel e = some e.prev) : step e = .next (joinRun e) := by
  simp [step_of_no_move h.host, engineStep, encodeCall, h.busy, h.mode, h.phase, ho, encodePixel, hf]

theorem step_encode_other {e : State} {px : Pixel} (h : Running .encode .loop e) (ho : e.pxPos < pixelCount e)
    (hf : fetchPixel e = some px) (hne : px ≠ e.prev) : step e = .next (breakRun px e) := by
  simp [step_of_no_move h.host, engineStep, encodeCall, h.busy, h.mode, h.phase, ho, encodePixel, hf, hne]

/-- The run is flushed at this pixel (42_encoder.md R143). -/
def FlushesHere (e : State) : Prop := e.run + 1 = 62 ∨ e.pxPos + 1 = pixelCount e

theorem joinRun_of_flush {e : State} (h : FlushesHere e) :
    joinRun e = advance (flushRun { e with run := e.run + 1 }) := by
  unfold joinRun; exact congrArg advance (if_pos h)

theorem joinRun_of_no_flush {e : State} (h : ¬ FlushesHere e) : joinRun e = advance { e with run := e.run + 1 } := by
  unfold joinRun; exact congrArg advance (if_neg h)

theorem EncodeReady.joinRun {e : State} (h : EncodeReady e) (ho : e.pxPos < pixelCount e) : EncodeReady (joinRun e) := by
  by_cases hf : FlushesHere e
  · rw [joinRun_of_flush hf]
    exact h.next (by constructor <;> rfl) ho rfl (Nat.zero_le _) fun _ => rfl
  · rw [joinRun_of_no_flush hf]
    have hr := h.run
    obtain ⟨h62, hlast⟩ := not_or.1 hf
    exact h.next (by constructor <;> rfl) ho rfl (by show e.run + 1 ≤ 61; omega) fun heq => absurd heq hlast

/-- No first byte of a RUN chunk is 0. -/
theorem head_run_ne_zero {k : Nat} {rest : List Byte} (h : k ≠ 0) (h' : k ≤ 62) :
    (encode (.run k) ++ rest).head? ≠ some 0#8 := by
  intro h0
  have hz : BitVec.ofNat 8 (0xC0 + (k - 1)) = 0#8 := by simpa [encode] using h0
  exact absurd (eq_index_zero (payload := []) (run_wellFormed h h') (by simp) (congrArg (· :: []) hz)) (by simp)

/-- A pixel that only counts emits nothing (42_encoder.md R142). -/
theorem EncodesTo.of_counted {e t : State} {rest : List Byte} (hp : AtCursor e e.prev)
    (h : EncodesTo (advance { e with run := e.run + 1 }) t rest) : EncodesTo e t rest where
  callState := h.callState
  outLen := h.outLen
  out := h.out
  zeroStart := h.zeroStart
  decodes := fun d hd hb => by
    obtain ⟨t', hr, ht⟩ := h.decodes d (hd.counted hp) hb
    exact ⟨t', hr, ht.of_control (by constructor <;> rfl)⟩

/-- A flush emits the RUN chunk, which the decoder reads first (42_encoder.md R143). -/
theorem EncodesTo.of_flushed {e t : State} {rest : List Byte} (hr : e.run ≤ 61) (ho : e.pxPos < pixelCount e)
    (hp : AtCursor e e.prev) (h : EncodesTo (advance (flushRun { e with run := e.run + 1 })) t rest) :
    EncodesTo e t (encode (.run (e.run + 1)) ++ rest) where
  callState := h.callState
  outLen := by rw [h.outLen, List.length_append, ← Nat.add_assoc]; rfl
  out := Stored.append (emit_stored _ { e with run := e.run + 1 }) h.out
  zeroStart := fun h0 => absurd h0 (head_run_ne_zero (by simp) (by omega))
  decodes := fun d hd hb => by
    obtain ⟨d', hdd, hd', hb'⟩ := (hd.counted hp).reads_pendingRun (rest := rest) (by show e.run + 1 ≤ 62; omega) ho hb
    obtain ⟨t', hrt, ht⟩ := h.decodes d' (hd'.congr (by constructor <;> rfl) rfl rfl rfl rfl) hb'
    exact ⟨t', hdd.trans hrt, ht.of_control (by constructor <;> rfl)⟩

theorem encodesTo_joinRun {e t : State} {rest : List Byte} (hr : e.run ≤ 61) (ho : e.pxPos < pixelCount e)
    (hp : AtCursor e e.prev) (h : EncodesTo (joinRun e) t rest) : ∃ rest', EncodesTo e t rest' := by
  by_cases hf : FlushesHere e
  · rw [joinRun_of_flush hf] at h
    exact ⟨_, h.of_flushed hr ho hp⟩
  · rw [joinRun_of_no_flush hf] at h
    exact ⟨_, h.of_counted hp⟩

/-! ### A pixel that breaks the run -/

theorem pickedChunk_eq_index {px : Pixel} {e : State} {slot : Fin 64} (h : pickedChunk px e = .index slot) :
    lookup px = slot ∧ e.cache[slot] = px := by
  unfold pickedChunk at h
  split at h
  · rename_i hit
    injection h with h
    exact ⟨h, h ▸ hit⟩
  · unfold missChunk at h
    split at h
    · split at h
      · cases h
      · split at h <;> cases h
    · cases h

/-- `INDEX{0}` and what the encoder emits after it are not the end marker (42_encoder.md R159 (a), 43_decoder.md R183). -/
theorem index_zero_take_ne_endMarker {e : State} {rest : List Byte} (h : ZeroStart e rest)
    (hc : e.cache[(0 : Fin 64)] = e.prev) : (encode (.index 0) ++ rest).take 8 ≠ Config.endMarker := by
  intro hm
  match rest with
  | [] => exact absurd hm (by decide)
  | b :: tl =>
    have hb : b = 0#8 := by
      have := congrArg (·[1]?) hm
      simpa [encode, Config.endMarker] using this
    rcases h (by simp [hb]) with hmark | hne
    · rw [hmark] at hm
      exact absurd hm (by decide)
    · exact hne hc

/-- A chunk whose bytes begin with 0 is `INDEX{0}`, and its pixel is the one in slot 0. -/
theorem zeroStart_pickedChunk {px : Pixel} {e : State} (hne : px ≠ e.prev) (rest : List Byte) :
    ZeroStart e (encode (pickedChunk px e) ++ rest) := by
  intro h0
  obtain ⟨b0, payload, he, -⟩ := encode_eq_cons (pickedChunk_wellFormed px e) (pickedChunk_ne_endMarker px e)
  have hb : b0 = 0#8 := by simpa [he] using h0
  obtain ⟨-, hc⟩ := pickedChunk_eq_index
    (eq_index_zero (pickedChunk_wellFormed px e) (pickedChunk_ne_endMarker px e) (hb ▸ he))
  exact .inr (hc ▸ hne)

theorem EncodeReady.breakRun {e : State} (h : EncodeReady e) (ho : e.pxPos < pixelCount e) (px : Pixel) :
    EncodeReady (breakRun px e) := by
  obtain ⟨henc, -⟩ := breakRun_encoded px e
  exact h.next henc.control ho henc.pxPos (by rw [henc.run]; omega) fun _ => henc.run

/-- A pixel that breaks the run emits the pending run and its chunk, which the decoder reads first (42_encoder.md R144). -/
theorem encodesTo_breakRun {e t : State} {px : Pixel} {rest : List Byte} (hr : e.run ≤ 61) (ho : e.pxPos < pixelCount e)
    (hp : AtCursor e px) (hne : px ≠ e.prev) (h : EncodesTo (breakRun px e) t rest) :
    EncodesTo e t (pendingRun e ++ (encode (pickedChunk px e) ++ rest)) := by
  obtain ⟨henc, hcache⟩ := breakRun_encoded px e
  have hmark : pickedChunk px e = .index 0 → (encode (pickedChunk px e) ++ rest).take 8 ≠ Config.endMarker := by
    intro hi
    obtain ⟨hl, -⟩ := pickedChunk_eq_index hi
    rw [hi]
    refine index_zero_take_ne_endMarker h.zeroStart ?_
    rw [hcache, henc.prev, cache_set_get, if_pos hl]
  exact
    { callState := h.callState
      outLen := by rw [h.outLen, henc.op]; simp only [List.length_append]; omega
      out := by
        rw [← List.append_assoc]
        exact henc.out.append (by rw [List.length_append, ← Nat.add_assoc, ← henc.op]; exact h.out)
      zeroStart := by
        by_cases h0 : e.run = 0
        · rw [pendingRun, if_pos h0]
          exact zeroStart_pickedChunk hne rest
        · rw [pendingRun_eq h0]
          exact fun hz => absurd hz (head_run_ne_zero h0 (by omega))
      decodes := fun d hd hb => by
        obtain ⟨d1, hd1, hf1, hb1⟩ := hd.reads_pendingRun (by omega) ho.le hb
        obtain ⟨d2, hd2, hf2, hb2⟩ := hf1.reads_pickedChunk rfl ho hp hb1 hmark
          (.trans (by constructor <;> rfl) henc.control) henc.prev hcache henc.pxPos henc.run
        obtain ⟨t', hrt, ht⟩ := h.decodes d2 hf2 hb2
        exact ⟨t', hd1.trans (hd2.trans hrt), ht.of_control henc.control⟩ }

/-- From every point of its loop the ENCODE ends, and what it emits from there on decodes to the pixels from there on. By induction
on the pixels to come. -/
theorem encodesTo_end (n : Nat) : ∀ e, EncodeReady e → e.pxPos + n = pixelCount e →
    ∃ t rest, Reaches e t ∧ EncodesTo e t rest := by
  induction n with
  | zero =>
    intro e h hn
    obtain ⟨t, hr, ht⟩ := encodesTo_closed h hn
    exact ⟨t, _, hr, ht⟩
  | succ n ih =>
    intro e h hn
    have ho : e.pxPos < pixelCount e := by omega
    obtain ⟨px, hf⟩ := fetchPixel_isSome h.input h.inLen h.descriptor ho
    have hp := fetchPixel_atCursor h.descriptor hf
    by_cases hs : px = e.prev
    · subst hs
      obtain ⟨t, rest, hr, ht⟩ := ih (joinRun e) (h.joinRun ho)
        (by rw [(joinRun_control e).pixelCount, (joinRun_counts e).2.2.1]; omega)
      obtain ⟨rest', ht'⟩ := encodesTo_joinRun h.run ho hp ht
      exact ⟨t, rest', .head (step_encode_same h.running ho hf) hr, ht'⟩
    · obtain ⟨henc, -⟩ := breakRun_encoded px e
      obtain ⟨t, rest, hr, ht⟩ := ih (breakRun px e) (h.breakRun ho px)
        (by rw [henc.control.pixelCount, henc.pxPos]; omega)
      exact ⟨t, _, .head (step_encode_other h.running ho hf hs) hr, encodesTo_breakRun h.run ho hp hs ht⟩

/-! ## The header -/

@[simp] theorem headerBytes_length (magic : Vector Byte 4) (w h : BitVec 32) (c cs : Byte) :
    (headerBytes magic w h c cs).length = 14 := by
  simp [headerBytes, be32]

/-- An ENCODE at its first pixel, the header emitted (42_encoder.md R140, 40_header_codec.md R112). -/
def encodeLoopStart (e : State) : State :=
  { emit (headerBytes e.config.magic e.width e.height e.channels e.colorspace) (startCall .encode e) with phase := .loop }

/-- The precondition check of a valid image passes (40_header_codec.md R111). -/
theorem step_encode_check_valid {s : State} (h : Running .encode .check s) (hd : descriptorOk s)
    (hl : rawLen s = s.inLen.toNat) : step s = .next { s with phase := .header } := by
  simp [step_of_no_move h.host, engineStep, encodeCall, h.busy, h.mode, h.phase, encodeCheck, hd, hl]

/-- The ENCODE of a valid image passes its check and emits the header (40_header_codec.md R111, R112). -/
theorem encode_reaches_loop {e : State} (hh : e.host = []) (hd : descriptorOk e) (hl : rawLen e = e.inLen.toNat) :
    Reaches (startCall .encode e) (encodeLoopStart e) := by
  have hcheck : step (startCall .encode e) = .next { startCall .encode e with phase := .header } :=
    step_encode_check_valid ⟨rfl, rfl, rfl, hh⟩ hd hl
  have hheader : step { startCall .encode e with phase := .header } = .next (encodeLoopStart e) :=
    step_of_no_move (s := { startCall .encode e with phase := .header }) hh
  exact .head hcheck (.of_step hheader)

@[simp] theorem encodeLoopStart_op (e : State) : (encodeLoopStart e).op = 14 := by simp [encodeLoopStart]

theorem encodeLoopStart_ready {e : State} (hh : e.host = []) (hd : descriptorOk e) (hl : rawLen e = e.inLen.toNat)
    (hf : InputFilled e) : EncodeReady (encodeLoopStart e) where
  running := ⟨rfl, rfl, rfl, hh⟩
  descriptor := hd
  inLen := hl.symm
  input := hf
  cursor := Nat.zero_le _
  run := Nat.zero_le _
  flushed := fun _ => rfl

/-- The header's fields are read back (30_encoding.md R92, 40_header_codec.md R114). -/
theorem parseHeader_headerBytes (magic : Vector Byte 4) (w h : BitVec 32) (c cs : Byte) :
    parseHeader (headerBytes magic w h c cs) = some ⟨magic.toList, w, h, c, cs⟩ := by
  have hl : magic.toList.length = 4 := by simp
  unfold headerBytes
  match magic.toList, hl with
  | [m0, m1, m2, m3], _ =>
    show some (Header.mk _ (fromBE32 _ _ _ _) (fromBE32 _ _ _ _) _ _) = _
    rw [fromBE32_be32, fromBE32_be32]

/-- A DECODE at its first chunk, the header with the given descriptor read (43_decoder.md R170, R171). -/
def decodeLoopStart (w h : BitVec 32) (c cs : Byte) (d : State) : State :=
  { startCall .decode d with
    width := w
    height := h
    channels := c
    colorspace := cs
    written := (startCall .decode d).written.setDescriptor true
    ip := Config.hdrLen
    phase := .loop }

/-- A header that passes all tests of `decodeHeader` (40_header_codec.md R113, R114). -/
theorem acceptHeader_valid {w h : BitVec 32} {c cs : Byte} {d : State} (hv : validDescriptor w h c cs = true) :
    acceptHeader ⟨d.config.magic.toList, w, h, c, cs⟩ (startCall .decode d) =
      { decodeLoopStart w h c cs d with phase := .check } := by
  obtain ⟨hw, hh, hc, hcs⟩ := (validDescriptor_iff _ _ _ _).1 hv
  have hzero : ¬ (w = 0#32 ∨ h = 0#32) := by rintro (rfl | rfl) <;> simp at hw hh
  have hchannels : ¬ (c ≠ 3#8 ∧ c ≠ 4#8) := by tauto
  have hcolorspace : ¬ (cs ≠ 0#8 ∧ cs ≠ 1#8) := by tauto
  simp only [acceptHeader, startCall_config, ne_eq, not_true_eq_false, if_false, if_neg hzero]
  rw [if_neg hchannels, if_neg hcolorspace]
  rfl

/-- A DECODE of a stream with a valid header for which there is room reaches its first chunk (40_header_codec.md R113 to R115). -/
theorem decode_reaches_loop {w h : BitVec 32} {c cs : Byte} {d : State} (hh : d.host = [])
    (hv : validDescriptor w h c cs = true) (hroom : w.toNat * h.toNat * c.toNat ≤ d.config.maxOutBytes)
    (hin : InHolds d 0 (headerBytes d.config.magic w h c cs)) (hlen : 14 ≤ d.inLen.toNat) :
    Reaches (startCall .decode d) (decodeLoopStart w h c cs d) := by
  have hread : memReadN d.inMem 0 Config.hdrLen = some (headerBytes d.config.magic w h c cs) := by
    have := memReadN_of_inHolds _ _ _ hin
    rwa [headerBytes_length] at this
  have hheader : step (startCall .decode d) = .next { decodeLoopStart w h c cs d with phase := .check } := by
    rw [step_of_no_move (by simpa using hh)]
    show decodeHeader (startCall .decode d) = _
    simp only [decodeHeader, startCall_inLen, startCall_inMem, hread, parseHeader_headerBytes, acceptHeader_valid hv]
    exact if_neg (Nat.not_lt.2 hlen)
  have hcheck : step { decodeLoopStart w h c cs d with phase := .check } = .next (decodeLoopStart w h c cs d) := by
    rw [step_of_no_move (by exact hh)]
    exact if_neg (Nat.not_lt.2 hroom)
  exact .head hheader (.of_step hcheck)

/-- At its first chunk the decoder is in lock step with the encoder at its first pixel (43_decoder.md R171). -/
theorem decodeLoopStart_follows {d e : State} (hh : d.host = []) :
    Follows (decodeLoopStart e.width e.height e.channels e.colorspace d) (encodeLoopStart e) where
  image := ⟨⟨rfl, rfl, rfl, hh⟩, rfl, rfl, rfl, rfl, rfl⟩
  prev := rfl
  cache := rfl
  pxPos := rfl
  op := (Nat.zero_mul _).symm
  copies := fun a ha => absurd ha (Nat.not_lt_zero a)
  pending := fun j hj => absurd hj (Nat.not_lt_zero j)

/-! ## The round trip -/

/-- Settles O57. The encoder's loop ends with a stream that a decoder in lock step turns back into the image (`encodesTo_end`); the
two headers bring both to the start of their loops. -/
theorem decodeOfEncodeIsTheBitmap : Obligations.DecodeOfEncodeIsTheBitmap := by
  unfold Obligations.DecodeOfEncodeIsTheBitmap
  intro e hhost hd hl hf
  obtain ⟨t, rest, hrt, ht⟩ :=
    encodesTo_end (pixelCount e) (encodeLoopStart e) (encodeLoopStart_ready hhost hd hl hf) (Nat.zero_add _)
  obtain ⟨k, hk⟩ := (encode_reaches_loop hhost hd hl).trans hrt
  refine ⟨k, t, hk, ht.callState, fun d hdhost hmagic hroom hlen hbytes => ?_⟩
  have hout : Stored (startCall .encode e) t 0
      (headerBytes d.config.magic e.width e.height e.channels e.colorspace ++ rest) := by
    rw [hmagic]
    exact Stored.append (emit_stored _ (startCall .encode e)) ht.out
  have hlen' : d.inLen.toNat = 14 + rest.length := by rw [hlen, ht.outLen, encodeLoopStart_op]
  have hin : InHolds d 0 (headerBytes d.config.magic e.width e.height e.channels e.colorspace ++ rest) := by
    intro j hj
    rw [Nat.zero_add, hbytes j (by simpa [← hlen, hlen'] using hj), hout j, if_pos (by omega), Nat.sub_zero]
  obtain ⟨hheader, hrest⟩ := inHolds_append.1 hin
  rw [headerBytes_length] at hrest
  have hstart := decode_reaches_loop hdhost hd hroom hheader (by omega)
  obtain ⟨t', hrt', hround⟩ := ht.decodes _ (decodeLoopStart_follows hdhost) ⟨hrest, hlen'⟩
  obtain ⟨k', hk'⟩ := hstart.trans hrt'
  exact ⟨k', t', hk', hround.callState, hround.err, hround.trailerOk, hround.width, hround.height, hround.channels,
    hround.colorspace, hround.outLen, hround.out⟩

end Sys2Proof.Machine

/-! ## What every step keeps: the machine's invariant -/

namespace Sys2Proof.Machine

/-- With no call running the invariant speaks of the two memories and the status registers alone. -/
theorem Invariant.of_not_busy {s : State} (hb : s.callState ≠ .busy) (hin : Memory.wf s.inMem = true)
    (hout : Memory.wf s.outMem = true) (herr : s.err ≠ .none ↔ s.callState = .error)
    (hlen : s.callState ≠ .done → s.outLen = 0) (htrailer : s.callState ≠ .done → s.trailerOk = false)
    (hres : s.callState = .done → ∀ a, a < s.outLen → (outByte s a).isSome = true) : Invariant s where
  inMem := hin
  outMem := hout
  err := herr
  outLen := hlen
  trailerOk := htrailer
  result := hres
  apart := fun h => absurd h hb
  input := fun h => absurd h hb
  cache := fun h => absurd h hb
  call := fun h => absurd h hb

theorem Invariant.err_none {s : State} (hi : Invariant s) (hb : s.callState = .busy) : s.err = .none := by
  by_contra h
  have := hi.err.1 h
  simp [hb] at this

/-- The call's part of the invariant says nothing of the host's coming moves and of what it last read. -/
theorem CallInvAt.with_host {m : Mode} {p : Phase} {s : State} (h : CallInvAt m p s) (moves : List HostMove) (n : Nat) :
    CallInvAt m p { s with host := moves, hostData := n } := by
  match m, p, h with
  | .encode, .check, h => exact h
  | .encode, .header, h => exact h
  | .encode, .loop, h => exact { (show EncodeLoopInv s from h) with }
  | .decode, .header, h => exact h
  | .decode, .check, h => exact h
  | .decode, .loop, h => exact { (show DecodeLoopInv s from h) with }

theorem Invariant.with_host {s : State} (hi : Invariant s) (moves : List HostMove) (n : Nat) :
    Invariant { s with host := moves, hostData := n } :=
  { hi with call := fun hb => CallInvAt.with_host (hi.call hb) moves n }

/-- The status registers are as before. -/
structure StatusKept (s t : State) : Prop where
  callState : t.callState = s.callState
  err : t.err = s.err
  outLen : t.outLen = s.outLen
  trailerOk : t.trailerOk = s.trailerOk

theorem SameControl.status {s t : State} (c : SameControl s t) : StatusKept s t :=
  ⟨c.callState, c.err, c.outLen, c.trailerOk⟩

/-- A step within a call keeps the invariant if it keeps the call's own part of it. -/
theorem Invariant.of_running {s t : State} {m : Mode} {p : Phase} (hi : Invariant s) (h : EngineTo s t)
    (hb : s.callState = .busy) (hs : StatusKept s t) (hcache : CacheOk t) (hm : t.mode = m) (hp : t.phase = p)
    (hcall : CallInvAt m p t) : Invariant t := by
  obtain ⟨-, hin, hlen, hov, -⟩ := engineTo_frame h
  have hbt : t.callState = .busy := hs.callState.trans hb
  have hnd : s.callState ≠ .done := by simp [hb]
  exact
    { inMem := hin ▸ hi.inMem
      outMem := engineTo_outMem_wf h hi.outMem
      err := by rw [hs.err, hs.callState]; exact hi.err
      outLen := fun _ => by rw [hs.outLen, hi.outLen hnd]
      trailerOk := fun _ => by rw [hs.trailerOk, hi.trailerOk hnd]
      result := fun hd => by simp [hbt] at hd
      apart := fun _ => by rw [hov, hi.apart hb]
      input := fun _ a ha => by
        rw [inByte, hin]
        exact hi.input hb a (hlen ▸ ha)
      cache := fun _ => hcache
      call := fun _ => (callInv_at hm hp).2 hcall }

/-- A closing step keeps it if the result is there to be read. -/
theorem Invariant.of_closed {s t : State} (hi : Invariant s) (h : EngineTo s t) (hb : s.callState = .busy)
    (hd : t.callState = .done) (he : t.err = s.err) (hlen : t.outLen = t.op) (hout : OutDense t) : Invariant t := by
  obtain ⟨-, hin, -⟩ := engineTo_frame h
  refine .of_not_busy (by simp [hd]) (hin ▸ hi.inMem) (engineTo_outMem_wf h hi.outMem) ?_ (absurd hd) (absurd hd) ?_
  · simp [he, hi.err_none hb, hd]
  · intro _ a ha
    rw [hout a, ← hlen, decide_eq_true ha]

/-- Nothing is stored yet. -/
theorem outDense_empty {s : State} (hm : s.outMem = []) (ho : s.op = 0) : OutDense s := by
  intro a
  simp [outByte, hm, ho]

/-- The cache of a call's start (70_reset_and_hazards.md R251). -/
theorem cacheOk_init {s : State} (h : s.cache = Vector.replicate 64 Config.slotInit) : CacheOk s := by
  intro slot
  left
  simp [h]

/-! ### The ENCODE's loop -/

/-- A pixel keeps the loop's descriptor and cursors; what is left is about the run and the output. -/
theorem EncodeLoopInv.next {s t : State} (h : EncodeLoopInv s) (c : SameControl s t) (ho : s.pxPos < pixelCount s)
    (hpx : t.pxPos = s.pxPos + 1) (hip : t.ip = (s.pxPos + 1) * s.channels.toNat) (hrun : t.run ≤ 61)
    (hflush : s.pxPos + 1 = pixelCount s → t.run = 0) (halpha : AlphaFixed t) (hout : OutDense t)
    (hup : t.op + (if t.run = 0 then 0 else 1) ≤ Config.hdrLen + (s.pxPos + 1) * (s.channels.toNat + 1))
    (hlow : Config.hdrLen ≤ t.op ∧ s.pxPos + 1 ≤ 62 * (t.op - Config.hdrLen) + t.run) : EncodeLoopInv t where
  descriptor := by rw [descriptorOk, c.width, c.height, c.channels, c.colorspace]; exact h.descriptor
  inLen := by rw [c.inLen, c.rawLen, h.inLen]
  cursor := by rw [c.pixelCount, hpx]; exact ho
  ip := by rw [hip, hpx, c.channels]
  run := hrun
  flushed := fun heq => hflush (by rw [← hpx, heq, c.pixelCount])
  alpha := halpha
  out := hout
  upper := by rw [hpx, c.channels]; exact hup
  lower := by rw [hpx]; exact hlow

theorem EncodeLoopInv.joinRun {s : State} (h : EncodeLoopInv s) (ho : s.pxPos < pixelCount s) :
    EncodeLoopInv (joinRun s) := by
  have c := joinRun_control s
  obtain ⟨v, hv, hop⟩ := joinRun_stored s
  obtain ⟨hprev, hcache, hpx, hip, hcount⟩ := joinRun_counts s
  have hrun := h.run
  have hup := h.upper
  obtain ⟨hhdr, hlow⟩ := h.lower
  have halpha : AlphaFixed (Machine.joinRun s) := by
    rw [AlphaFixed, c.channels, hprev, hcache]; exact h.alpha
  have hout := dense_append h.out hv hop
  obtain ⟨hf, hr, hop'⟩ | ⟨hf, hr, hop', -⟩ := hcount
  · refine h.next c ho hpx hip (by omega) (fun _ => hr) halpha hout ?_ ?_
    · rw [hr, hop', Nat.succ_mul, if_pos rfl]
      omega
    · omega
  · obtain ⟨h62, hlast⟩ := not_or.1 hf
    refine h.next c ho hpx hip (by omega) (fun heq => absurd heq hlast) halpha hout ?_ ?_
    · rw [hr, hop', Nat.succ_mul, if_neg (Nat.succ_ne_zero _)]
      omega
    · omega

/-- A pixel with alpha 255 keeps the alphas of a 3-channel ENCODE (42_encoder.md R141). -/
theorem AlphaFixed.set {s t : State} {px : Pixel} (h : AlphaFixed s) (hc : t.channels = s.channels) (hp : t.prev = px)
    (hcache : t.cache = s.cache.set (lookup px) px) (ha : s.channels = 3#8 → px.a = 255#8) : AlphaFixed t := by
  intro h3
  rw [hc] at h3
  refine ⟨hp ▸ ha h3, fun slot => ?_⟩
  rw [hcache, cache_set_get]
  split
  · exact .inr (ha h3)
  · exact (h h3).2 slot

theorem EncodeLoopInv.breakRun {s : State} {px : Pixel} (h : EncodeLoopInv s) (ho : s.pxPos < pixelCount s)
    (hf : fetchPixel s = some px) : EncodeLoopInv (breakRun px s) := by
  obtain ⟨henc, hcache⟩ := breakRun_encoded px s
  have halpha : s.channels = 3#8 → px.a = 255#8 := fun h3 => fetchPixel_alpha h3 hf
  obtain ⟨hlen1, hlen2⟩ := pickedChunk_length (px := px) (descriptorOk_channels s h.descriptor)
    fun h3 => ⟨halpha h3, (h.alpha h3).1⟩
  have hop := henc.op
  have hpend := pendingRun_length s
  have hrun := h.run
  have hup := h.upper
  obtain ⟨hhdr, hlow⟩ := h.lower
  refine h.next henc.control ho henc.pxPos henc.ip (by simp [henc.run]) (fun _ => henc.run)
    (h.alpha.set henc.control.channels henc.prev hcache halpha)
    (dense_append h.out henc.out (by rw [hop, List.length_append, Nat.add_assoc])) ?_ ?_
  · rw [henc.run, Nat.succ_mul, if_pos rfl]
    omega
  · rw [henc.run]
    by_cases h0 : s.run = 0
    · omega
    · rw [if_neg h0] at hpend
      omega

/-- The header's 14 bytes start the loop (42_encoder.md R140, 40_header_codec.md R112). -/
theorem encodeLoopInv_headerEmitted {s : State} (hm : s.outMem = []) (hd : descriptorOk s) (hl : s.inLen.toNat = rawLen s) :
    EncodeLoopInv
      { emit (headerBytes s.config.magic s.width s.height s.channels s.colorspace) (initWorking s) with phase := .loop } where
  descriptor := hd
  inLen := hl
  cursor := Nat.zero_le _
  ip := (Nat.zero_mul _).symm
  run := Nat.zero_le _
  flushed := fun _ => rfl
  alpha := fun _ => ⟨rfl, fun slot => .inl (by simp)⟩
  out := dense_append (outDense_empty (s := initWorking s) hm rfl) (emit_stored _ _) rfl
  upper := by simp [Config.hdrLen]
  lower := by simp [Config.hdrLen]

theorem EncodeLoopInv.closed_dense {s : State} (h : EncodeLoopInv s) : OutDense (encodeClosedState s) :=
  dense_append (s := s) h.out (emit_stored (pendingRun s ++ Config.endMarker) s) rfl

/-! ### The DECODE's loop -/

/-- A chunk of `k` pixels keeps the loop's descriptor and cursors (10_state.md R23, R24). -/
theorem DecodeLoopInv.next {s t : State} {v : List Byte} (k : Nat) (h : DecodeLoopInv s) (c : SameControl s t)
    (hpx : t.pxPos = s.pxPos + k) (hk : s.pxPos + k ≤ pixelCount s) (hip : s.ip ≤ t.ip ∧ t.ip ≤ s.inLen.toNat)
    (hv : Stored s t s.op v) (hop : t.op = s.op + v.length) (hlen : v.length = k * pixelSize s.channels) :
    DecodeLoopInv t where
  descriptor := by rw [descriptorOk, c.width, c.height, c.channels, c.colorspace]; exact h.descriptor
  size := by rw [c.rawLen, c.config]; exact h.size
  cursor := by rw [c.pixelCount, hpx]; exact hk
  op := by
    rw [hop, hlen, hpx, c.channels, h.op, pixelSize_eq _ (descriptorOk_channels s h.descriptor), Nat.add_mul]
  ip := ⟨h.ip.1.trans hip.1, by rw [c.inLen]; exact hip.2⟩
  out := dense_append h.out hv hop

theorem DecodeLoopInv.resolve {s : State} (h : DecodeLoopInv s) (ho : s.pxPos < pixelCount s) (len : Nat) (px : Pixel)
    (hl : s.ip + len ≤ s.inLen.toNat) : DecodeLoopInv (resolve len px s) :=
  h.next (v := pixelBytes s.channels px) 1 (resolve_resolves len px s).control rfl ho ⟨Nat.le_add_right _ _, hl⟩
    (resolve_resolves len px s).out rfl (by simp)

theorem DecodeLoopInv.repeated {s : State} (h : DecodeLoopInv s) {k : Nat} (hk : s.pxPos + k ≤ pixelCount s)
    (hl : s.ip + 1 ≤ s.inLen.toNat) : DecodeLoopInv (repeatedState k s) :=
  h.next (v := repeatBytes s.channels s.prev k) k (repeatedState_control k s) rfl hk ⟨Nat.le_add_right _ _, hl⟩
    (emit_stored _ s) rfl (by simp)

/-- The size check starts the loop with nothing written (43_decoder.md R171). -/
theorem decodeLoopInv_checked {s : State} (hm : s.outMem = []) (hd : descriptorOk s) (hip : s.ip = Config.hdrLen)
    (hl : Config.hdrLen ≤ s.inLen.toNat) (hs : rawLen s ≤ s.config.maxOutBytes) :
    DecodeLoopInv { initWorking s with ip := s.ip, phase := .loop } where
  descriptor := hd
  size := hs
  cursor := Nat.zero_le _
  op := (Nat.zero_mul _).symm
  ip := ⟨hip.ge, hip ▸ hl⟩
  out := outDense_empty hm rfl

/-! ### Every step -/

/-- The call's part of the invariant, in the phase that runs. -/
theorem Invariant.callInvAt {s : State} {m : Mode} {p : Phase} (hi : Invariant s) (h : InPhase m p s) : CallInvAt m p s :=
  (callInv_at h.mode h.phase).1 (hi.call h.busy)

/-- Every step of the engine keeps the invariant. -/
theorem Invariant.engineTo {s t : State} (hi : Invariant s) (h : EngineTo s t) : Invariant t := by
  have hto := h
  cases h with
  | halted => exact hi
  | raised e hb he =>
    exact .of_not_busy (by simp) (by simpa using hi.inMem) (by simp [Memory.wf]) (by simpa using raises_ne_none he)
      (fun _ => rfl) (fun _ => rfl) (by simp)
  | encodeChecked h hd hl =>
    exact hi.of_running hto h.busy (by constructor <;> rfl) (hi.cache h.busy) h.mode rfl ⟨hi.callInvAt h, hd, hl.symm⟩
  | headerEmitted h =>
    obtain ⟨hm, hd, hl⟩ := hi.callInvAt h
    exact hi.of_running hto h.busy (by constructor <;> rfl) (cacheOk_init rfl)
      h.mode rfl (encodeLoopInv_headerEmitted hm hd hl)
  | joined h ho hf =>
    have c := joinRun_control s
    obtain ⟨-, hcache, -⟩ := joinRun_counts s
    have hloop : EncodeLoopInv s := hi.callInvAt h
    exact hi.of_running hto h.busy c.status (fun slot => by rw [hcache]; exact hi.cache h.busy slot)
      (c.mode.trans h.mode) (c.phase.trans h.phase) (hloop.joinRun ho)
  | broke px h ho hf hp =>
    obtain ⟨henc, hcache⟩ := breakRun_encoded px s
    have hloop : EncodeLoopInv s := hi.callInvAt h
    exact hi.of_running hto h.busy henc.control.status (cacheOk_set (hi.cache h.busy) hcache)
      (henc.control.mode.trans h.mode) (henc.control.phase.trans h.phase) (hloop.breakRun ho hf)
  | encodeClosed h ho =>
    have hloop : EncodeLoopInv s := hi.callInvAt h
    refine hi.of_closed hto h.busy rfl rfl ?_ hloop.closed_dense
    simp [encodeClosedState, Config.endMarker, Nat.add_assoc]
  | headerParsed w ht c cs h hl hd =>
    exact hi.of_running hto h.busy (by constructor <;> rfl) (hi.cache h.busy) h.mode rfl ⟨hi.callInvAt h, hd, rfl, hl⟩
  | decodeChecked h hs =>
    obtain ⟨hm, hd, hip, hl⟩ := hi.callInvAt h
    exact hi.of_running hto h.busy (by constructor <;> rfl) (cacheOk_init rfl)
      h.mode rfl (decodeLoopInv_checked hm hd hip hl hs)
  | resolved len px h ho h1 hl =>
    have hloop : DecodeLoopInv s := hi.callInvAt h
    exact hi.of_running hto h.busy (by constructor <;> rfl) (cacheOk_set (hi.cache h.busy) rfl)
      h.mode h.phase (hloop.resolve ho len px hl)
  | repeated k h ho h1 hk hl =>
    have hloop : DecodeLoopInv s := hi.callInvAt h
    exact hi.of_running hto h.busy (by constructor <;> rfl) (hi.cache h.busy) h.mode h.phase (hloop.repeated hk hl)
  | decodeClosed ok h ho hk =>
    have hloop : DecodeLoopInv s := hi.callInvAt h
    exact hi.of_closed hto h.busy rfl rfl rfl hloop.out

/-- A START that is admitted starts a call of the invariant (44_control.md R201). -/
theorem Invariant.started {s : State} (hi : Invariant s) (m : Mode) (ho : s.overlap = false) (hf : InputFilled s) :
    Invariant (startCall m s) where
  inMem := by simpa using hi.inMem
  outMem := by simp [Memory.wf]
  err := by simp
  outLen := by simp
  trailerOk := by simp
  result := by simp
  apart := by simpa using ho
  input := fun _ a ha => by simpa [inByte] using hf a (by simpa using ha)
  cache := fun _ => cacheOk_init (by simp)
  call := fun _ => by
    cases m
    · exact (callInv_at (startCall_mode _ s) (startCall_encode_phase s)).2 (startCall_outMem _ s)
    · exact (callInv_at (startCall_mode _ s) (startCall_decode_phase s)).2 (startCall_outMem _ s)

theorem clearStatus_invariant {s : State} (hin : Memory.wf s.inMem = true) : Invariant (clearStatus s) :=
  .of_not_busy (by simp) hin rfl (by simp) (fun _ => rfl) (fun _ => rfl) (by simp)

/-- ABORT ends in IDLE with the status registers cleared, whatever ran (44_control.md R206). -/
theorem Invariant.aborted {s : State} (hi : Invariant s) : Invariant (abortCall s) := by
  unfold abortCall
  split <;> exact clearStatus_invariant (by simpa using hi.inMem)

/-- Every move of the host keeps the invariant. -/
theorem Invariant.hostTo {m : HostMove} {s t : State} (hi : Invariant s) (h : HostTo m s t) : Invariant t := by
  cases h with
  | engine moves _ _ h => exact (hi.with_host moves s.hostData).engineTo h
  | nothing => exact hi
  | wroteDescriptor w ht c cs flags hb =>
    exact .of_not_busy hb hi.inMem hi.outMem hi.err hi.outLen hi.trailerOk hi.result
  | wroteInput a b _ hb =>
    exact .of_not_busy hb (memWrite_wf _ a b hi.inMem) hi.outMem hi.err hi.outLen hi.trailerOk hi.result
  | wroteControl n md o flags hb =>
    exact .of_not_busy hb hi.inMem hi.outMem hi.err hi.outLen hi.trailerOk hi.result
  | started v _ _ _ ho hw => exact hi.started _ ho (inputsWritten_filled hw)
  | aborted => exact hi.aborted
  | read n => exact hi.with_host s.host n

/-- Settles O51: the engine keeps the invariant case by case (`Invariant.engineTo`), and so does each move of the host
(`Invariant.hostTo`). -/
theorem stepKeepsTheInvariant : Obligations.StepKeepsTheInvariant := by
  unfold Obligations.StepKeepsTheInvariant
  intro s t hi h
  cases hh : s.host with
  | nil => exact hi.engineTo (engineStep_to (step_of_no_move hh ▸ h))
  | cons m rest => exact (hi.with_host rest s.hostData).hostTo (hostMove_to (step_of_move hh ▸ h))

end Sys2Proof.Machine

/-! ## The host's reads and writes -/

namespace Sys2Proof.Machine

theorem isBusy_of_busy {s : State} (h : s.callState = .busy) : isBusy s = true := (isBusy_iff s).2 h

theorem isBusy_of_not_busy {s : State} (h : s.callState ≠ .busy) : isBusy s = false :=
  Bool.eq_false_iff.2 fun hb => h ((isBusy_iff s).1 hb)

theorem hostWrite_of_not_busy {s : State} (s' : State) (h : s.callState ≠ .busy) : hostWrite s' s = .next s' := by
  simp [hostWrite, isBusy_of_not_busy h]

theorem hostRead_of_not_busy {s : State} (n : Nat) (h : s.callState ≠ .busy) :
    hostRead n s = .next { s with hostData := n } := by
  simp [hostRead, isBusy_of_not_busy h]

theorem hostRead_of_busy {s : State} (n : Nat) (h : s.callState = .busy) : hostRead n s = .refused .hostReadWhileBusy := by
  simp [hostRead, isBusy_of_busy h]

theorem hostReadReg_of_ne_status {r : ReadReg} (s : State) (h : r ≠ .status) :
    hostReadReg r s = hostRead (readValue r s) s := by
  simp [hostReadReg, readableWhileBusy, h]

theorem hostReadByte_of_busy {s : State} (m : Memory) (missing : Fault) (a : Nat) (h : s.callState = .busy) :
    hostReadByte m missing a s = .refused .hostReadWhileBusy := by
  unfold hostReadByte
  split
  · simp [isBusy_of_busy h]
  · exact hostRead_of_busy _ h

theorem hostReadByte_written {s : State} {m : Memory} {a : Nat} {b : Byte} (missing : Fault) (h : s.callState ≠ .busy)
    (hb : memRead m a = some b) : hostReadByte m missing a s = .next { s with hostData := b.toNat } := by
  simp [hostReadByte, hb, hostRead_of_not_busy _ h]

theorem hostReadByte_unwritten {s : State} {m : Memory} {a : Nat} (missing : Fault) (h : s.callState ≠ .busy)
    (hb : memRead m a = none) : hostReadByte m missing a s = .fault missing := by
  simp [hostReadByte, hb, isBusy_of_not_busy h]

/-- `STATUS`: `STATE` in the two low bits, `TRAILER_OK` above them (10_state.md R32). -/
theorem statusWord_toNat (s : State) :
    (statusWord s).toNat = (if s.trailerOk then 1 else 0) * 4 + (stateCode s.callState).toNat := by
  unfold statusWord
  cases s.trailerOk <;> cases s.callState <;> rfl

theorem ctrlWord_toNat (s : State) : (ctrlWord s).toNat = match s.mode with | .encode => 0 | .decode => 1 := by
  unfold ctrlWord
  cases s.mode <;> rfl

theorem errWord_toNat (e : ErrCode) : (errWord e).toNat = match e with
    | .none => 0 | .invalidDescriptor => 1 | .dataLengthMismatch => 2 | .malformedHeader => 3
    | .unsupportedChannelCount => 4 | .unsupportedColorspace => 5 | .truncatedStream => 6 := by
  cases e <;> rfl

/-- Settles O41: START = 1 is looked at first, BUSY next. -/
theorem startWhileBusyIsIgnored : Obligations.StartWhileBusyIsIgnored := by
  unfold Obligations.StartWhileBusyIsIgnored
  intro s v rest hh hv hb
  rw [step_of_move hh, hostMove, hostWriteCtrl, if_pos (show ctrlStart v = true from hv)]
  exact if_pos (isBusy_of_busy (s := { s with host := rest }) hb)

/-- Settles O45: each write is `hostWrite`, which lands while not BUSY. -/
theorem hostWritesLand : Obligations.HostWritesLand := by
  unfold Obligations.HostWritesLand
  intro s rest hb
  have hlands : ∀ (m : HostMove) (s' : State), s.host = m :: rest →
      hostMove m { s with host := rest } = hostWrite s' { s with host := rest } → step s = .next s' := by
    intro m s' hh hm
    rw [step_of_move hh, hm]
    exact hostWrite_of_not_busy s' hb
  refine ⟨fun v hh => hlands _ _ hh rfl, fun v hh => hlands _ _ hh rfl, fun v hh => hlands _ _ hh rfl,
    fun v hh => hlands _ _ hh rfl, fun v hh => hlands _ _ hh rfl, fun a b hh => ?_, fun v hv hh => ?_⟩
  · exact ⟨_, hlands _ _ hh rfl, fun x => memRead_memWrite s.inMem a x b, rfl⟩
  · refine hlands _ _ hh ?_
    rw [hostMove, hostWriteCtrl, if_neg (show ¬ ctrlStart v = true from Bool.eq_false_iff.1 hv)]
    rfl

/-- Settles O46: STATUS is read in every state; the other reads are refused while BUSY and give their value otherwise. -/
theorem hostReadsWithinItsWindow : Obligations.HostReadsWithinItsWindow := by
  unfold Obligations.HostReadsWithinItsWindow
  intro s rest
  refine ⟨fun hh => ?_, fun hb => ⟨fun r hr hh => ?_, fun a hh => ?_⟩, fun hb => ⟨fun r v hv hh => ?_, ?_, ?_, ?_, ?_⟩⟩
  · refine ⟨(statusWord s).toNat, step_of_move hh, ?_⟩
    rw [statusWord_toNat]
    cases s.callState <;> cases s.trailerOk <;> decide
  · rw [step_of_move hh, hostMove, hostReadReg_of_ne_status _ hr]
    exact hostRead_of_busy _ hb
  · rcases hh with hh | hh <;> rw [step_of_move hh] <;> exact hostReadByte_of_busy _ _ a hb
  · have hval : r ≠ .status ∧ readValue r s = v := by
      rcases hv with ⟨rfl, rfl⟩ | ⟨rfl, rfl⟩ | ⟨rfl, rfl⟩ | ⟨rfl, rfl⟩ | ⟨rfl, rfl⟩ | ⟨rfl, rfl⟩ | ⟨rfl, rfl⟩ | ⟨rfl, rfl⟩
      iterate 6 exact ⟨by decide, rfl⟩
      · exact ⟨by decide, ctrlWord_toNat s⟩
      · exact ⟨by decide, errWord_toNat s.err⟩
    obtain ⟨hr, rfl⟩ := hval
    rw [step_of_move hh, hostMove, hostReadReg_of_ne_status _ hr]
    exact hostRead_of_not_busy _ hb
  · intro a b hh hr
    rw [step_of_move hh]
    exact hostReadByte_written _ hb hr
  · intro a b hh hr
    rw [step_of_move hh]
    exact hostReadByte_written _ hb hr
  · intro a hh hr
    rw [step_of_move hh]
    exact hostReadByte_unwritten _ hb hr
  · intro a hh hr
    rw [step_of_move hh]
    exact hostReadByte_unwritten _ hb hr

end Sys2Proof.Machine

/-! ## What a call does not read: COLORSPACE and what earlier calls left -/

namespace Sys2Proof.Machine

/-- Other contents for the registers that no pixel computation reads: COLORSPACE (10_state.md R29) and the model's own count of
free values, last read of the host and record of its writes. -/
structure Unread where
  colorspace : Byte → Byte
  freeCount : Nat → Nat
  hostData : Nat → Nat
  written : Written → Written

/-- The machine with these contents. -/
def Unread.on (u : Unread) (s : State) : State :=
  { s with
    colorspace := u.colorspace s.colorspace
    freeCount := u.freeCount s.freeCount
    hostData := u.hostData s.hostData
    written := u.written s.written }

/-- What a step of `s` answers and what it answers with the other contents: the same next state but for these contents, the same
error, or the same fault. -/
inductive Mirrors (u : Unread) (s : State) : Result → Result → Prop
  | next (t : State) : Mirrors u s (.next t) (.next (u.on t))
  | raised (e : ErrCode) : Mirrors u s (.next (raise e s)) (.next (raise e (u.on s)))
  | fault (f : Fault) : Mirrors u s (.fault f) (.fault f)

theorem Mirrors.of_next {u : Unread} {s t : State} {r : Result} (h : Mirrors u s (.next t) r) :
    r = .next (u.on t) ∨ ∃ e, t = raise e s ∧ r = .next (raise e (u.on s)) := by
  cases h with
  | next => exact .inl rfl
  | raised e => exact .inr ⟨e, rfl, rfl⟩

section
variable (u : Unread) (s : State)

/-! The tests and fetches of a call read none of these registers. -/

@[simp] theorem owed_on : owed (u.on s) = owed s := rfl
@[simp] theorem rawLen_on : rawLen (u.on s) = rawLen s := rfl
@[simp] theorem fetchPixel_on : fetchPixel (u.on s) = fetchPixel s := rfl
@[simp] theorem fetchBytes_on : fetchBytes (u.on s) = fetchBytes s := rfl
@[simp] theorem trailerTest_on : trailerTest (u.on s) = trailerTest s := rfl

/-! ### The ENCODE -/

theorem joinRun_on : joinRun (u.on s) = u.on (joinRun s) := by
  by_cases hf : FlushesHere s
  · rw [joinRun_of_flush hf, joinRun_of_flush (e := u.on s) hf]; rfl
  · rw [joinRun_of_no_flush hf, joinRun_of_no_flush (e := u.on s) hf]; rfl

theorem emitPixel_on (px : Pixel) : emitPixel px (u.on s) = u.on (emitPixel px s) := by
  unfold emitPixel
  rw [apply_ite u.on]; rfl

theorem breakRun_on (px : Pixel) : breakRun px (u.on s) = u.on (breakRun px s) := by
  unfold breakRun
  simp only [flush_pending]
  show advance { emitPixel px (u.on { emit (pendingRun s) s with run := 0 }) with prev := px } = _
  rw [emitPixel_on]; rfl

theorem encodePixel_mirrors : Mirrors u s (encodePixel s) (encodePixel (u.on s)) := by
  unfold encodePixel
  rw [fetchPixel_on]
  cases fetchPixel s with
  | none => exact .fault _
  | some px =>
    show Mirrors u s (if same px s.prev then _ else _) (if same px s.prev then _ else _)
    split
    · rw [joinRun_on]; exact .next _
    · rw [breakRun_on]; exact .next _

theorem encodeClose_mirrors : Mirrors u s (encodeClose s) (encodeClose (u.on s)) := by
  rw [encodeClose_eq, encodeClose_eq]
  exact .next _

/-- The check and the header read COLORSPACE, the loop does not. -/
theorem encodeCall_mirrors (h : s.phase = .loop ∨ u.colorspace s.colorspace = s.colorspace) :
    Mirrors u s (encodeCall s) (encodeCall (u.on s)) := by
  unfold encodeCall
  rw [show (u.on s).phase = s.phase from rfl, owed_on]
  cases hp : s.phase with
  | check =>
    have hv : validDescriptor (u.on s).width (u.on s).height (u.on s).channels (u.on s).colorspace =
        validDescriptor s.width s.height s.channels s.colorspace :=
      congrArg _ (h.resolve_left (by simp [hp]))
    show Mirrors u s (encodeCheck s) (encodeCheck (u.on s))
    unfold encodeCheck
    rw [hv, rawLen_on, show (u.on s).inLen = s.inLen from rfl]
    split
    · exact .raised _
    · split
      · exact .raised _
      · exact .next _
  | header =>
    have hc : (u.on s).colorspace = s.colorspace := h.resolve_left (by simp [hp])
    simp only [encodeHeader, hc]
    exact .next _
  | loop =>
    show Mirrors u s (if owed s = true then _ else _) (if owed s = true then _ else _)
    split
    · exact encodePixel_mirrors u s
    · exact encodeClose_mirrors u s

/-! ### The DECODE -/

theorem decodeClose_mirrors : Mirrors u s (decodeClose s) (decodeClose (u.on s)) := by
  unfold decodeClose
  rw [trailerTest_on]
  cases trailerTest s with
  | none => exact .fault _
  | some ok => exact .next _

theorem execEnd_mirrors : Mirrors u s (execEnd s) (execEnd (u.on s)) := by
  unfold execEnd
  rw [owed_on, show (u.on s).config = s.config from rfl]
  split
  · split
    · exact .raised _
    · exact .next _
  · exact decodeClose_mirrors u s

theorem exec_mirrors (i : Instr) : Mirrors u s (exec i s) (exec i (u.on s)) := by
  cases i with
  | endMarker => exact execEnd_mirrors u s
  | _ => exact .next _

theorem decodeStep_mirrors : Mirrors u s (decodeStep s) (decodeStep (u.on s)) := by
  unfold decodeStep
  rw [fetchBytes_on, show (u.on s).config = s.config from rfl]
  cases fetchBytes s with
  | none => exact .fault _
  | some bytes =>
    dsimp only
    cases decode s.config.endMarkerDetect bytes with
    | ok r => exact exec_mirrors u s r.1
    | error => exact .raised _

theorem decodeCheck_mirrors : Mirrors u s (decodeCheck s) (decodeCheck (u.on s)) := by
  unfold decodeCheck
  rw [rawLen_on, show (u.on s).config = s.config from rfl]
  split
  · exact .raised _
  · exact .next _

/-- Once the header is parsed. -/
theorem decodeCall_mirrors (h : s.phase ≠ .header) : Mirrors u s (decodeCall s) (decodeCall (u.on s)) := by
  unfold decodeCall
  rw [show (u.on s).phase = s.phase from rfl, owed_on]
  cases hp : s.phase with
  | header => exact absurd hp h
  | check => exact decodeCheck_mirrors u s
  | loop =>
    dsimp only
    split
    · exact decodeStep_mirrors u s
    · exact decodeClose_mirrors u s

/-! ### Every step of the engine -/

theorem engineStep_mirrors (hc : s.phase = .loop ∨ u.colorspace s.colorspace = s.colorspace)
    (hh : ¬ InPhase .decode .header s) : Mirrors u s (engineStep s) (engineStep (u.on s)) := by
  by_cases hb : s.callState = .busy
  · have hb' : (u.on s).callState = .busy := hb
    cases hm : s.mode with
    | encode =>
      have hm' : (u.on s).mode = .encode := hm
      simp only [engineStep, hb, hb', hm, hm']
      exact encodeCall_mirrors u s hc
    | decode =>
      have hm' : (u.on s).mode = .decode := hm
      simp only [engineStep, hb, hb', hm, hm']
      exact decodeCall_mirrors u s fun hp => hh ⟨hb, hm, hp⟩
  · rw [engineStep_not_busy hb, engineStep_not_busy (s := u.on s) hb]
    exact .next _

end

/-- Settles O55: in the loop a step reads none of the registers of `Unread`, COLORSPACE among them (`engineStep_mirrors`). -/
theorem colorspaceReachesNoPixel : Obligations.ColorspaceReachesNoPixel := by
  unfold Obligations.ColorspaceReachesNoPixel
  intro s t cs _ hp hh hs hne
  have hmirror := engineStep_mirrors ⟨fun _ => cs, id, id, id⟩ s (.inl hp) fun h => by simpa [hp] using h.phase
  rw [← step_of_no_move hh, hs] at hmirror
  rw [step_of_no_move (s := { s with colorspace := cs }) hh]
  obtain h | ⟨e, rfl, -⟩ := hmirror.of_next
  · exact h
  · exact absurd rfl hne

end Sys2Proof.Machine

/-! ## Two machines that start the same call -/

namespace Sys2Proof.Machine

/-- Both machines took the same error. What the working registers hold then is unspecified in each of them
(60_exceptions.md R232). -/
structure BothFailed (s s' : State) : Prop where
  left : s.callState = .error
  right : s'.callState = .error
  err : s.err = s'.err
  outLen : s.outLen = s'.outLen
  trailerOk : s.trailerOk = s'.trailerOk
  outMem : s.outMem = s'.outMem

/-- What the START of a DECODE may leave different: the descriptor registers that the header will write, and the model's own count
of free values, last read of the host and record of its writes. -/
structure Leftovers where
  width : BitVec 32
  height : BitVec 32
  channels : Byte
  colorspace : Byte
  freeCount : Nat
  hostData : Nat
  written : Written

/-- The machine with these contents. -/
def Leftovers.on (l : Leftovers) (s : State) : State :=
  { s with
    width := l.width
    height := l.height
    channels := l.channels
    colorspace := l.colorspace
    freeCount := l.freeCount
    hostData := l.hostData
    written := l.written }

/-- The contents that a machine has. -/
def Leftovers.of (s : State) : Leftovers :=
  ⟨s.width, s.height, s.channels, s.colorspace, s.freeCount, s.hostData, s.written⟩

/-- Two machines in the same call: until a DECODE has parsed its header they may differ in the descriptor registers, from
then on only in what no computation reads; after an error they show the host the same. -/
inductive SameCall (s : State) : State → Prop
  | unparsed (h : InPhase .decode .header s) (l : Leftovers) : SameCall s (l.on s)
  | parsed (h : ¬ InPhase .decode .header s) (u : Unread) (hu : u.colorspace = id) : SameCall s (u.on s)
  | failed {s' : State} (h : BothFailed s s') : SameCall s s'

theorem bothFailed_raise (e : ErrCode) (s s' : State) : BothFailed (raise e s) (raise e s') :=
  ⟨rfl, rfl, rfl, rfl, rfl, by simp⟩

/-- A call shows the host the same on both machines. -/
theorem SameCall.shown {s s' : State} (h : SameCall s s') :
    s.callState = s'.callState ∧ s.err = s'.err ∧ s.outLen = s'.outLen ∧ s.trailerOk = s'.trailerOk ∧
      (∀ a, outByte s a = outByte s' a) ∧
      (s.callState = .done →
        s.width = s'.width ∧ s.height = s'.height ∧ s.channels = s'.channels ∧ s.colorspace = s'.colorspace) := by
  cases h with
  | unparsed h => exact ⟨rfl, rfl, rfl, rfl, fun _ => rfl, fun hd => by simp [h.busy] at hd⟩
  | parsed h u hu => exact ⟨rfl, rfl, rfl, rfl, fun _ => rfl, fun _ => ⟨rfl, rfl, rfl, by simp [Unread.on, hu]⟩⟩
  | failed h =>
    exact ⟨h.left.trans h.right.symm, h.err, h.outLen, h.trailerOk, fun a => by rw [outByte, outByte, h.outMem],
      fun hd => by simp [h.left] at hd⟩

/-- No step leads back to the header of a DECODE. -/
theorem engineTo_not_unparsed {s t : State} (h : EngineTo s t) (hs : ¬ InPhase .decode .header s) :
    ¬ InPhase .decode .header t := by
  intro ht
  have hb := ht.busy
  have hm := ht.mode
  have hp := ht.phase
  cases h with
  | halted => exact hs ht
  | raised e => cases hb
  | encodeChecked h => cases h.mode.symm.trans hm
  | headerEmitted => cases hp
  | joined h => cases h.phase.symm.trans ((joinRun_control s).phase.symm.trans hp)
  | broke px h => cases h.phase.symm.trans ((breakRun_encoded px s).1.control.phase.symm.trans hp)
  | encodeClosed => cases hb
  | headerParsed => cases hp
  | decodeChecked => cases hp
  | resolved len px h => cases h.phase.symm.trans hp
  | repeated k h => cases h.phase.symm.trans hp
  | decodeClosed => cases hb

/-- The header is accepted, or refused with one error, whatever descriptor the registers held (40_header_codec.md R114). -/
theorem acceptHeader_sameCall (hdr : Header) (s : State) (l : Leftovers) :
    SameCall (acceptHeader hdr s) (acceptHeader hdr (l.on s)) := by
  unfold acceptHeader
  rw [show (l.on s).config = s.config from rfl]
  split
  · exact .failed (bothFailed_raise _ _ _)
  · split
    · exact .failed (bothFailed_raise _ _ _)
    · split
      · exact .failed (bothFailed_raise _ _ _)
      · split
        · exact .failed (bothFailed_raise _ _ _)
        · exact .parsed (fun h => by cases h.phase)
            ⟨id, fun _ => l.freeCount, fun _ => l.hostData, fun _ => l.written.setDescriptor true⟩ rfl

theorem decodeHeader_sameCall {s t : State} (l : Leftovers) (h : decodeHeader s = .next t) :
    ∃ t', decodeHeader (l.on s) = .next t' ∧ SameCall t t' := by
  unfold decodeHeader at h ⊢
  rw [show (l.on s).inLen = s.inLen from rfl, show (l.on s).inMem = s.inMem from rfl]
  by_cases hlen : s.inLen.toNat < Config.hdrLen
  · rw [if_pos hlen] at h ⊢
    cases h
    exact ⟨_, rfl, .failed (bothFailed_raise _ _ _)⟩
  · rw [if_neg hlen] at h ⊢
    cases hread : memReadN s.inMem 0 Config.hdrLen with
    | none => simp [hread] at h
    | some bytes =>
      simp only [hread] at h ⊢
      cases hparse : parseHeader bytes with
      | none =>
        simp only [hparse] at h ⊢
        cases h
        exact ⟨_, rfl, .failed (bothFailed_raise _ _ _)⟩
      | some hdr =>
        simp only [hparse] at h ⊢
        cases h
        exact ⟨_, rfl, acceptHeader_sameCall hdr s l⟩

theorem engineStep_unparsed {s : State} (h : InPhase .decode .header s) : engineStep s = decodeHeader s := by
  simp only [engineStep, decodeCall, h.busy, h.mode, h.phase]

/-- Where one machine steps so does the other, to the same call. -/
theorem SameCall.engineStep {s s' t : State} (h : SameCall s s') (hs : engineStep s = .next t) :
    ∃ t', engineStep s' = .next t' ∧ SameCall t t' := by
  cases h with
  | unparsed h l =>
    rw [engineStep_unparsed h] at hs
    rw [engineStep_unparsed (s := l.on s) ⟨h.busy, h.mode, h.phase⟩]
    exact decodeHeader_sameCall l hs
  | parsed h u hu =>
    have hmirror := engineStep_mirrors u s (.inr (by rw [hu]; rfl)) h
    rw [hs] at hmirror
    obtain hnext | ⟨e, rfl, hnext⟩ := hmirror.of_next
    · exact ⟨_, hnext, .parsed (engineTo_not_unparsed (engineStep_to hs) h) u hu⟩
    · exact ⟨_, hnext, .failed (bothFailed_raise _ _ _)⟩
  | failed h =>
    rw [engineStep_not_busy (by simp [h.left])] at hs
    cases hs
    exact ⟨s', engineStep_not_busy (by simp [h.right]), .failed h⟩

/-- The same for any number of steps with no move of the host pending. -/
theorem SameCall.steps {s' t : State} (k : Nat) : ∀ {s : State}, SameCall s s' → s.host = [] → s'.host = [] →
    steps k s = .next t → ∃ t', steps k s' = .next t' ∧ SameCall t t' := by
  induction k generalizing s' with
  | zero =>
    intro s h _ _ hk
    cases hk
    exact ⟨s', rfl, h⟩
  | succ k ih =>
    intro s h hh hh' hk
    rw [Machine.steps, step_of_no_move hh] at hk
    rw [Machine.steps, step_of_no_move hh']
    split at hk
    · rename_i u hu
      obtain ⟨u', hu', hsame⟩ := h.engineStep hu
      obtain ⟨-, -, -, -, hhost⟩ := engineTo_frame (engineStep_to hu)
      obtain ⟨-, -, -, -, hhost'⟩ := engineTo_frame (engineStep_to hu')
      rw [hu']
      exact ih hsame (hhost.trans hh) (hhost'.trans hh') hk
    · cases hk
    · cases hk

/-- The host's inputs agree (10_state.md R35). -/
structure SameInputs (s s' : State) : Prop where
  config : s.config = s'.config
  inLen : s.inLen = s'.inLen
  inMem : s.inMem = s'.inMem
  overlap : s.overlap = s'.overlap
  host : s.host = s'.host

theorem SameInputs.symm {s s' : State} (h : SameInputs s s') : SameInputs s' s :=
  ⟨h.config.symm, h.inLen.symm, h.inMem.symm, h.overlap.symm, h.host.symm⟩

theorem SameInputs.startCall_encode {s s' : State} (h : SameInputs s s') (hw : s.width = s'.width)
    (hh : s.height = s'.height) (hc : s.channels = s'.channels) (hcs : s.colorspace = s'.colorspace) :
    startCall .encode s =
      { startCall .encode s' with hostData := s.hostData, freeCount := s.freeCount, written := s.written } := by
  simp [startCall, freeDecodeResult, initWorking, h.config, h.inLen, h.inMem, h.overlap, h.host, hw, hh, hc, hcs]

theorem SameInputs.startCall_decode {s s' : State} (h : SameInputs s s') :
    startCall .decode s = (Leftovers.of (startCall .decode s)).on (startCall .decode s') := by
  simp [Leftovers.on, Leftovers.of, startCall, freeDecodeResult, freeDescriptor, initWorking, h.config, h.inLen,
    h.inMem, h.overlap, h.host]

theorem SameInputs.sameCall {s s' : State} (h : SameInputs s s') (m : Mode)
    (hd : m = .encode →
      s.width = s'.width ∧ s.height = s'.height ∧ s.channels = s'.channels ∧ s.colorspace = s'.colorspace) :
    SameCall (startCall m s) (startCall m s') := by
  cases m with
  | encode =>
    obtain ⟨hw, hh, hc, hcs⟩ := hd rfl
    rw [h.symm.startCall_encode hw.symm hh.symm hc.symm hcs.symm]
    exact .parsed (fun hp => by cases hp.phase) ⟨id, fun _ => s'.freeCount, fun _ => s'.hostData, fun _ => s'.written⟩ rfl
  | decode =>
    rw [h.symm.startCall_decode]
    exact .unparsed ⟨rfl, rfl, rfl⟩ _

/-- Settles O48: the two machines start the same call (`SameInputs.sameCall`), stay in it step by step (`SameCall.steps`), and show
the host the same (`SameCall.shown`). -/
theorem startForgetsEarlierCalls : Obligations.StartForgetsEarlierCalls := by
  unfold Obligations.StartForgetsEarlierCalls
  intro s s' hconfig hlen hmem hoverlap hhost
  have h : SameInputs s s' := ⟨hconfig, hlen, hmem, hoverlap, hhost⟩
  refine ⟨h.startCall_encode, ⟨_, _, _, _, _, _, h.startCall_decode⟩, fun m hh hd k t hk => ?_⟩
  obtain ⟨t', hk', hsame⟩ := SameCall.steps k (h.sameCall m hd) (by simpa using hh) (by simpa [← hhost] using hh) hk
  exact ⟨t', hk', hsame.shown⟩

end Sys2Proof.Machine

/-! ## What steps write to the buffers -/

namespace Sys2Proof.Machine

theorem hostWrite_of_busy {s : State} (s' : State) (h : s.callState = .busy) :
    hostWrite s' s = .refused .hostWriteWhileBusy := by
  simp [hostWrite, isBusy_of_busy h]

/-- A write of `CTRL` without `START` writes `MODE` (log 8). -/
theorem hostWriteCtrl_of_no_start {v : BitVec 2} (h : v.getLsbD 1 = false) (s : State) :
    hostWriteCtrl v s = hostWrite { s with mode := ctrlMode v } s :=
  if_neg (Bool.eq_false_iff.1 h)

/-- Settles O44: each of these writes is `hostWrite`, which is refused while BUSY. -/
theorem hostWritesAreRefusedWhileBusy : Obligations.HostWritesAreRefusedWhileBusy := by
  unfold Obligations.HostWritesAreRefusedWhileBusy
  intro s m rest hh hb hm
  have hrefused : ∀ s' : State, hostMove m { s with host := rest } = hostWrite s' { s with host := rest } →
      step s = .refused .hostWriteWhileBusy := by
    intro s' hw
    rw [step_of_move hh, hw]
    exact hostWrite_of_busy s' hb
  obtain ⟨v, rfl⟩ | ⟨v, rfl⟩ | ⟨v, rfl⟩ | ⟨v, rfl⟩ | ⟨v, rfl⟩ | ⟨a, b, rfl⟩ | ⟨v, hv, rfl⟩ := hm
  iterate 6 · exact hrefused _ rfl
  · exact hrefused _ (hostWriteCtrl_of_no_start hv _)

/-- Settles O42: a START that is not BUSY looks at the placement before it looks at the inputs. -/
theorem overlappingLaunchIsRefused : Obligations.OverlappingLaunchIsRefused := by
  unfold Obligations.OverlappingLaunchIsRefused
  intro s v rest hh hv hb ho
  have hidle : isBusy { s with host := rest } = false := isBusy_of_not_busy hb
  rw [step_of_move hh, hostMove, hostWriteCtrl, if_pos (show ctrlStart v = true from hv), hidle,
    if_neg Bool.false_ne_true]
  exact if_pos ho

@[simp] theorem abortCall_config (s : State) : (abortCall s).config = s.config := by
  unfold abortCall
  split <;> simp

@[simp] theorem abortCall_inMem (s : State) : (abortCall s).inMem = s.inMem := by
  unfold abortCall
  split <;> simp

/-- The host's moves keep the parameters, and `IN` but for a write of one of its bytes (20_memory.md R63). -/
theorem hostTo_input {m : HostMove} {s t : State} (h : HostTo m s t) :
    t.config = s.config ∧ (t.inMem = s.inMem ∨ ∃ a b, m = .writeIn a b) := by
  cases h with
  | engine moves _ _ h =>
    obtain ⟨hconfig, hin, -⟩ := engineTo_frame h
    exact ⟨hconfig, .inl hin⟩
  | wroteInput a b hm => exact ⟨rfl, .inr ⟨a, b, hm⟩⟩
  | started v => exact ⟨startCall_config _ s, .inl (startCall_inMem _ s)⟩
  | aborted => exact ⟨abortCall_config s, .inl (abortCall_inMem s)⟩
  | nothing | wroteDescriptor | wroteControl | read => exact ⟨rfl, .inl rfl⟩

/-- Settles O52: the engine's frame holds `IN` and the parameters (`engineTo_frame`), and so does every move of the host but a
write of `IN` (`hostTo_input`). -/
theorem onlyTheHostWritesInput : Obligations.OnlyTheHostWritesInput := by
  unfold Obligations.OnlyTheHostWritesInput
  intro s t h
  cases hh : s.host with
  | nil =>
    obtain ⟨hconfig, hin, -⟩ := engineTo_frame (engineStep_to (step_of_no_move hh ▸ h))
    exact ⟨hconfig, .inl hin⟩
  | cons m rest =>
    obtain ⟨hconfig, hin⟩ := hostTo_input (hostMove_to (step_of_move hh ▸ h))
    refine ⟨hconfig, hin.imp_right ?_⟩
    rintro ⟨a, b, rfl⟩
    exact ⟨a, b, rest, rfl⟩

/-- The step from `s` to `t` writes `OUT` by appending at `op` (20_memory.md R61). -/
def Appends (s t : State) : Prop := ∃ v, Stored s t s.op v ∧ t.op = s.op + v.length

theorem Appends.of_same {s t : State} (hm : t.outMem = s.outMem) (hop : t.op = s.op) : Appends s t := by
  refine ⟨[], fun a => ?_, hop⟩
  rw [if_neg (by simp), outByte, hm, outByte]

theorem Appends.op_le {s t : State} (h : Appends s t) : s.op ≤ t.op := by
  obtain ⟨v, -, hop⟩ := h
  omega

/-- What was written before the step, and what lies above all that is written, reads as before. -/
theorem Appends.outByte_eq {s t : State} (h : Appends s t) {a : Nat} (ha : a < s.op ∨ t.op ≤ a) :
    outByte t a = outByte s a := by
  obtain ⟨v, hv, hop⟩ := h
  rw [hv a, if_neg (by omega)]

/-- In the loop the engine appends, unless it raises. -/
theorem loop_appends {s t : State} (hb : s.callState = .busy) (hp : s.phase = .loop) (h : EngineTo s t)
    (hne : t.callState ≠ .error) : Appends s t := by
  have loop_only : ∀ {m : Mode} {p : Phase}, InPhase m p s → p = .loop := fun h => h.phase.symm.trans hp
  cases h with
  | halted h => exact absurd hb h
  | raised e => exact absurd rfl hne
  | encodeChecked h => cases loop_only h
  | headerEmitted h => cases loop_only h
  | headerParsed _ _ _ _ h => cases loop_only h
  | decodeChecked h => cases loop_only h
  | joined => exact joinRun_stored s
  | broke px =>
    obtain ⟨henc, -⟩ := breakRun_encoded px s
    exact ⟨_, henc.out, by rw [henc.op, List.length_append, Nat.add_assoc]⟩
  | encodeClosed => exact ⟨_, emit_stored (pendingRun s ++ Config.endMarker) s, rfl⟩
  | resolved len px => exact ⟨pixelBytes s.channels px, (resolve_resolves len px s).out, rfl⟩
  | repeated k => exact ⟨_, emit_stored (repeatBytes s.channels s.prev k) s, rfl⟩
  | decodeClosed => exact .of_same rfl rfl

/-- Settles O53: a step of the loop that does not raise appends at `op` (`loop_appends`). -/
theorem outputIsAppendOnly : Obligations.OutputIsAppendOnly := by
  unfold Obligations.OutputIsAppendOnly
  intro s t hb hp hh h hne
  have happ := loop_appends hb hp (engineStep_to (step_of_no_move hh ▸ h)) hne
  exact ⟨happ.op_le, fun _ ha => happ.outByte_eq ha⟩

end Sys2Proof.Machine

/-! ## Encodings: the decoder against the serialiser, and the first-byte map -/

namespace Sys2Proof.Machine

/-- Settles O12: a chunk by `decode_encode`; for END the look-ahead finds its eight bytes at the front. -/
theorem decodeOfEncodeIsTheChunk : Obligations.DecodeOfEncodeIsTheChunk := by
  unfold Obligations.DecodeOfEncodeIsTheChunk
  intro i detect rest hw
  exact ⟨fun hne hm => decode_encode hw hne hm, rfl⟩

/-- Settles O13: what `decode` yields is a detected end marker or a chunk of the tag parser (`decode_ok`). -/
theorem decodedBytesAreTheEncoding : Obligations.DecodedBytesAreTheEncoding := by
  unfold Obligations.DecodedBytesAreTheEncoding
  intro detect bytes rest i h
  rcases decode_ok h with ⟨hdetect, rfl, hbytes⟩ | hchunk
  · exact ⟨rfl, hbytes, fun _ => hdetect⟩
  · obtain ⟨hw, hne, hbytes⟩ := decodeChunk_ok hchunk
    exact ⟨hw, hbytes, fun he => absurd he hne⟩

/-! The operands of the first-byte map (30_encoding.md R89): a byte is its 2-bit tag and the fields of its format. -/

theorem byte_eq_diffFields (b : Byte) :
    b.toNat = bits b 6 2 * 64 + bits b 4 2 * 16 + bits b 2 2 * 4 + bits b 0 2 := by
  have := b.isLt
  unfold bits; omega

theorem byte_eq_nibbles (b : Byte) : b.toNat = bits b 4 4 * 16 + bits b 0 4 := by
  have := b.isLt
  unfold bits; omega

/-- INDEX, DIFF and RUN have no payload. -/
theorem payload_eq_nil {b0 : Byte} {payload : List Byte} (hlen : payload.length = payloadLen b0)
    (h : b0.toNat < 0xFE) (htag : b0.toNat / 64 ≠ 2) : payload = [] := by
  rw [Laws.EncodeLength.payload_of rfl h, if_neg htag] at hlen
  exact List.length_eq_zero_iff.1 hlen

/-- LUMA has one payload byte. -/
theorem payload_eq_singleton {b0 : Byte} {payload : List Byte} (hlen : payload.length = payloadLen b0)
    (h : b0.toNat < 0xFE) (htag : b0.toNat / 64 = 2) : ∃ b1, payload = [b1] := by
  rw [Laws.EncodeLength.payload_of rfl h, if_pos htag] at hlen
  exact List.length_eq_one_iff.1 hlen

/-- Settles O14: the tag parser answers some well-formed chunk (`decodeChunk_total`, `decodeChunk_ok`), and in each of the six
ranges the lemma about that tag says which. -/
theorem everyFirstByteStartsItsChunk : Obligations.EveryFirstByteStartsItsChunk := by
  unfold Obligations.EveryFirstByteStartsItsChunk
  intro b0 payload rest hlen
  obtain ⟨i, hi⟩ := decodeChunk_total b0 payload rest hlen
  obtain ⟨hw, -, -⟩ := decodeChunk_ok hi
  refine ⟨i, hi, fun hlt => ?index, fun hle hlt => ?diff, fun hle hlt => ?luma, fun hle hlt => ?run, fun heq => ?rgb,
    fun heq => ?rgba⟩
  case index =>
    obtain rfl := payload_eq_nil hlen (by omega) (by omega)
    cases (decodeChunk_indexTag rest hlt).symm.trans hi
    have hbyte := byte_bits b0
    exact ⟨rfl, _, rfl, by dsimp only; omega⟩
  case diff =>
    obtain rfl := payload_eq_nil hlen (by omega) (by omega)
    cases (decodeChunk_diffTag rest hle hlt).symm.trans hi
    have hbyte := byte_eq_diffFields b0
    have htag := bits_tag b0
    exact ⟨rfl, _, _, _, rfl, by omega, hw⟩
  case luma =>
    obtain ⟨b1, rfl⟩ := payload_eq_singleton hlen (by omega) (by omega)
    cases (decodeChunk_lumaTag b1 rest hle hlt).symm.trans hi
    have hbyte0 := byte_bits b0
    have htag := bits_tag b0
    have hbyte1 := byte_eq_nibbles b1
    exact ⟨b1, _, _, _, rfl, rfl, by omega, by omega, hw⟩
  case run =>
    obtain rfl := payload_eq_nil hlen (by omega) (by omega)
    cases (decodeChunk_runTag rest hle hlt).symm.trans hi
    have hbyte := byte_bits b0
    have htag := bits_tag b0
    exact ⟨rfl, congrArg Instr.run (by omega)⟩
  case rgb =>
    obtain rfl : b0 = 0xFE#8 := BitVec.eq_of_toNat_eq heq
    obtain ⟨r, g, b, rfl⟩ := List.length_eq_three.1 hlen
    cases hi
    exact ⟨r, g, b, rfl, rfl⟩
  case rgba =>
    obtain rfl : b0 = 0xFF#8 := BitVec.eq_of_toNat_eq heq
    match payload, hlen with
    | [r, g, b, a], _ =>
      cases hi
      exact ⟨r, g, b, a, rfl, rfl⟩

/-- Settles O15: each word is a closed term that the tag parser evaluates. -/
theorem writtenOutWordsDecode : Obligations.WrittenOutWordsDecode := by
  unfold Obligations.WrittenOutWordsDecode
  decide

/-- Settles O16: every byte of the end marker carries the tag of INDEX (`decodeChunk_indexTag`). -/
theorem endMarkerReadsAsIndexChunks : Obligations.EndMarkerReadsAsIndexChunks := by
  unfold Obligations.EndMarkerReadsAsIndexChunks
  refine fun rest => ⟨fun n hn => ?_, decodeChunk_indexTag rest (by decide)⟩
  have hdrop : Config.endMarker.drop n = 0#8 :: Config.endMarker.drop (n + 1) := by
    revert n; decide
  rw [hdrop]
  exact decodeChunk_indexTag (Config.endMarker.drop (n + 1) ++ rest) (by decide)

end Sys2Proof.Machine

/-! ## Framing: the header in and out, the checks and the completion of a DECODE -/

namespace Sys2Proof.Machine

theorem Running.inPhase {m : Mode} {p : Phase} {s : State} (h : Running m p s) : InPhase m p s :=
  ⟨h.busy, h.mode, h.phase⟩

/-! ### Which framing step a running call takes (44_control.md R209) -/

theorem step_encode_check {s : State} (h : Running .encode .check s) : step s = encodeCheck s := by
  simp only [step_of_no_move h.host, engineStep, encodeCall, h.busy, h.mode, h.phase]

theorem step_encode_header {s : State} (h : Running .encode .header s) : step s = encodeHeader s := by
  simp only [step_of_no_move h.host, engineStep, encodeCall, h.busy, h.mode, h.phase]

theorem step_decode_header {s : State} (h : Running .decode .header s) : step s = decodeHeader s := by
  rw [step_of_no_move h.host, engineStep_unparsed h.inPhase]

theorem step_decode_check {s : State} (h : Running .decode .check s) : step s = decodeCheck s := by
  simp only [step_of_no_move h.host, engineStep, decodeCall, h.busy, h.mode, h.phase]

/-- A step that takes error `e`. -/
theorem entered_of_raise {e : ErrCode} {s : State} (h : step s = .next (raise e s)) :
    ∃ t, step s = .next t ∧ ErrorEntered e s t :=
  ⟨raise e s, h, raise_errorEntered e s⟩

/-! ### The header read by a DECODE -/

theorem fromBE32_toNat (b0 b1 b2 b3 : Byte) :
    (fromBE32 b0 b1 b2 b3).toNat = b0.toNat * 2 ^ 24 + b1.toNat * 2 ^ 16 + b2.toNat * 2 ^ 8 + b3.toNat := by
  have h0 := b0.isLt
  have h1 := b1.isLt
  have h2 := b2.isLt
  have h3 := b3.isLt
  rw [fromBE32, BitVec.toNat_ofNat]
  exact Nat.mod_eq_of_lt (by omega)

theorem fromBE32_eq_zero_iff (b0 b1 b2 b3 : Byte) :
    fromBE32 b0 b1 b2 b3 = 0#32 ↔ b0.toNat * 2 ^ 24 + b1.toNat * 2 ^ 16 + b2.toNat * 2 ^ 8 + b3.toNat = 0 := by
  rw [← fromBE32_toNat, ← BitVec.toNat_inj]; rfl

theorem magicBytes_eq_iff (m0 m1 m2 m3 : Byte) (magic : Vector Byte 4) :
    [m0, m1, m2, m3] = magic.toList ↔ m0 = magic[0] ∧ m1 = magic[1] ∧ m2 = magic[2] ∧ m3 = magic[3] := by
  have hl : magic.toList = [magic[0], magic[1], magic[2], magic[3]] :=
    List.ext_getElem (by simp) fun i hi _ => by
      have hi4 : i < 4 := by simpa using hi
      interval_cases i <;> simp
  simp [hl]

/-- With the whole header there, `decodeHeader` tests the fields it holds (40_header_codec.md R113, R114). -/
theorem decodeHeader_of_inHolds {s : State} {bytes : List Byte} {hdr : Header} (hlen : 14 ≤ s.inLen.toNat)
    (hin : InHolds s 0 bytes) (h14 : bytes.length = 14) (hparse : parseHeader bytes = some hdr) :
    decodeHeader s = .next (acceptHeader hdr s) := by
  have hread := memReadN_of_inHolds s 0 bytes hin
  rw [h14] at hread
  rw [decodeHeader, if_neg (show ¬ s.inLen.toNat < Config.hdrLen from Nat.not_lt.2 hlen)]
  simp only [Config.hdrLen, hread, hparse]

/-! The tests on a parsed header, in their order (40_header_codec.md R114). -/

section
variable {hdr : Header} {s : State}

theorem acceptHeader_wrongMagic (hm : hdr.magic ≠ s.config.magic.toList) :
    acceptHeader hdr s = raise .malformedHeader s :=
  if_pos hm

theorem acceptHeader_zeroSize (hm : hdr.magic = s.config.magic.toList) (hz : hdr.width = 0#32 ∨ hdr.height = 0#32) :
    acceptHeader hdr s = raise .invalidDescriptor s := by
  rw [acceptHeader, if_neg (not_not.2 hm), if_pos hz]

theorem acceptHeader_badChannels (hm : hdr.magic = s.config.magic.toList)
    (hz : ¬ (hdr.width = 0#32 ∨ hdr.height = 0#32)) (hc : ¬ (hdr.channels = 3#8 ∨ hdr.channels = 4#8)) :
    acceptHeader hdr s = raise .unsupportedChannelCount s := by
  rw [acceptHeader, if_neg (not_not.2 hm), if_neg hz, if_pos (not_or.1 hc)]

theorem acceptHeader_badColorspace (hm : hdr.magic = s.config.magic.toList)
    (hz : ¬ (hdr.width = 0#32 ∨ hdr.height = 0#32)) (hc : hdr.channels = 3#8 ∨ hdr.channels = 4#8)
    (hcs : ¬ (hdr.colorspace = 0#8 ∨ hdr.colorspace = 1#8)) :
    acceptHeader hdr s = raise .unsupportedColorspace s := by
  rw [acceptHeader, if_neg (not_not.2 hm), if_neg hz, if_neg (mt not_or.2 (not_not.2 hc)), if_pos (not_or.1 hcs)]

theorem acceptHeader_accepted (hm : hdr.magic = s.config.magic.toList)
    (hz : ¬ (hdr.width = 0#32 ∨ hdr.height = 0#32)) (hc : hdr.channels = 3#8 ∨ hdr.channels = 4#8)
    (hcs : hdr.colorspace = 0#8 ∨ hdr.colorspace = 1#8) :
    acceptHeader hdr s =
      { s with
        width := hdr.width
        height := hdr.height
        channels := hdr.channels
        colorspace := hdr.colorspace
        written := s.written.setDescriptor true
        ip := 14
        phase := .check } := by
  rw [acceptHeader, if_neg (not_not.2 hm), if_neg hz, if_neg (mt not_or.2 (not_not.2 hc)),
    if_neg (mt not_or.2 (not_not.2 hcs))]
  rfl

end

/-- Settles O21: the step is `acceptHeader` of the fields the 14 bytes hold (`decodeHeader_of_inHolds`), and each outcome is the
lemma about that test. -/
theorem decodeHeaderFirstFailingTestWins : Obligations.DecodeHeaderFirstFailingTestWins := by
  unfold Obligations.DecodeHeaderFirstFailingTestWins
  intro s m0 m1 m2 m3 w0 w1 w2 w3 h0 h1 h2 h3 c cs hrun hlen hin w h magicOk channelsOk colorspaceOk
  have hstep : ∀ t, acceptHeader ⟨[m0, m1, m2, m3], fromBE32 w0 w1 w2 w3, fromBE32 h0 h1 h2 h3, c, cs⟩ s = t →
      step s = .next t := by
    rintro t rfl
    rw [step_decode_header hrun]
    exact decodeHeader_of_inHolds hlen hin rfl rfl
  have hmagic : [m0, m1, m2, m3] = s.config.magic.toList ↔ magicOk := magicBytes_eq_iff m0 m1 m2 m3 s.config.magic
  have hzero : fromBE32 w0 w1 w2 w3 = 0#32 ∨ fromBE32 h0 h1 h2 h3 = 0#32 ↔ w = 0 ∨ h = 0 :=
    or_congr (fromBE32_eq_zero_iff w0 w1 w2 w3) (fromBE32_eq_zero_iff h0 h1 h2 h3)
  have hnonzero : w ≠ 0 → h ≠ 0 → ¬ (fromBE32 w0 w1 w2 w3 = 0#32 ∨ fromBE32 h0 h1 h2 h3 = 0#32) :=
    fun hw hh => mt hzero.1 (not_or.2 ⟨hw, hh⟩)
  refine ⟨fun hm => ?magic, fun hm hz => ?size, fun hm hw hh hc => ?channels, fun hm hw hh hc hcs => ?colorspace,
    fun hm hw hh hc hcs => ?accepted⟩
  case magic => exact entered_of_raise (hstep _ (acceptHeader_wrongMagic (mt hmagic.1 hm)))
  case size => exact entered_of_raise (hstep _ (acceptHeader_zeroSize (hmagic.2 hm) (hzero.2 hz)))
  case channels => exact entered_of_raise (hstep _ (acceptHeader_badChannels (hmagic.2 hm) (hnonzero hw hh) hc))
  case colorspace =>
    exact entered_of_raise (hstep _ (acceptHeader_badColorspace (hmagic.2 hm) (hnonzero hw hh) hc hcs))
  case accepted =>
    exact ⟨s.written.setDescriptor true, rfl,
      hstep _ (acceptHeader_accepted (hmagic.2 hm) (hnonzero hw hh) hc hcs)⟩

/-- Settles O20: the length is tested before any byte is read. -/
theorem shortHeaderIsMalformed : Obligations.ShortHeaderIsMalformed := by
  unfold Obligations.ShortHeaderIsMalformed
  intro s hrun hshort
  refine entered_of_raise ?_
  rw [step_decode_header hrun, decodeHeader]
  exact if_pos hshort

/-! ### The checks and the initialisation -/

/-- `valid` with the sizes compared to the zero word (40_header_codec.md R110). -/
theorem validDescriptor_iff_ne_zero (w h : BitVec 32) (c cs : Byte) :
    validDescriptor w h c cs = true ↔
      w ≠ 0#32 ∧ h ≠ 0#32 ∧ (c = 3#8 ∨ c = 4#8) ∧ (cs = 0#8 ∨ cs = 1#8) := by
  have hpos : ∀ v : BitVec 32, 0 < v.toNat ↔ v ≠ 0#32 := fun v => by
    rw [Nat.pos_iff_ne_zero, ne_eq, ne_eq, ← BitVec.toNat_inj]; rfl
  rw [validDescriptor_iff, hpos, hpos]

/-- Settles O17: `encodeCheck` tests `valid` before the length. -/
theorem encodeChecksDescriptorThenLength : Obligations.EncodeChecksDescriptorThenLength := by
  unfold Obligations.EncodeChecksDescriptorThenLength
  intro s hrun good
  have hgood : descriptorOk s ↔ good := validDescriptor_iff_ne_zero s.width s.height s.channels s.colorspace
  refine ⟨fun hbad => entered_of_raise ?_, fun hok hlen => entered_of_raise ?_,
    fun hok hlen => step_encode_check_valid hrun (hgood.2 hok) hlen⟩
  · rw [step_encode_check hrun, encodeCheck, if_pos (Bool.eq_false_iff.2 (mt hgood.1 hbad))]
  · rw [step_encode_check hrun, encodeCheck, if_neg (by simp [hgood.2 hok])]
    exact if_pos hlen

theorem headerBytes_eq (magic : Vector Byte 4) (w h : BitVec 32) (c cs : Byte) :
    headerBytes magic w h c cs =
      [magic[0], magic[1], magic[2], magic[3],
        BitVec.ofNat 8 (w.toNat / 2 ^ 24), BitVec.ofNat 8 (w.toNat / 2 ^ 16), BitVec.ofNat 8 (w.toNat / 2 ^ 8),
        BitVec.ofNat 8 w.toNat,
        BitVec.ofNat 8 (h.toNat / 2 ^ 24), BitVec.ofNat 8 (h.toNat / 2 ^ 16), BitVec.ofNat 8 (h.toNat / 2 ^ 8),
        BitVec.ofNat 8 h.toNat, c, cs] := by
  have hmagic := (magicBytes_eq_iff magic[0] magic[1] magic[2] magic[3] magic).2 ⟨rfl, rfl, rfl, rfl⟩
  rw [headerBytes, be32_eq, be32_eq, ← hmagic]
  rfl

theorem initWorking_slot (s : State) (slot : Fin 64) : (initWorking s).cache[slot] = Config.slotInit := by
  simp

/-- Settles O18: the header is one emission at the `op = 0` that the initialisation leaves. -/
theorem encodeEmitsTheHeader : Obligations.EncodeEmitsTheHeader := by
  unfold Obligations.EncodeEmitsTheHeader
  intro s hrun
  refine ⟨_, step_encode_header hrun, rfl, rfl, rfl, initWorking_slot s, rfl, rfl, ?op, ?out, by constructor <;> rfl⟩
  case op => simp
  case out =>
    rw [← headerBytes_eq]
    exact emit_stored _ (initWorking s)

/-- Settles O22: `decodeCheck` compares the exact size, and initialises only when it fits. -/
theorem decodeGuardsTheOutputSize : Obligations.DecodeGuardsTheOutputSize := by
  unfold Obligations.DecodeGuardsTheOutputSize
  intro s hrun
  refine ⟨fun hbig => entered_of_raise ?_, fun hfits => ?_⟩
  · rw [step_decode_check hrun]
    exact if_pos hbig
  · have hstep : step s = .next { initWorking s with ip := s.ip, phase := .loop } := by
      rw [step_decode_check hrun]
      exact if_neg (Nat.not_lt.2 hfits)
    exact ⟨_, hstep, rfl, rfl, rfl, initWorking_slot s, rfl, rfl, rfl, rfl, by constructor <;> rfl⟩

/-! ### The trailer -/

theorem trailerTest_short {s : State} (h : s.inLen.toNat < s.ip + 8) : trailerTest s = some false :=
  if_neg (Nat.not_le.2 h)

theorem trailerTest_of_inHolds {s : State} {w : List Byte} (hl : s.ip + 8 ≤ s.inLen.toNat) (h8 : w.length = 8)
    (hin : InHolds s s.ip w) : trailerTest s = some (decide (w = Config.endMarker)) := by
  have hread := memReadN_of_inHolds s s.ip w hin
  rw [h8] at hread
  rw [trailerTest, if_pos (show s.ip + Config.endLen ≤ s.inLen.toNat from hl)]
  simp only [Config.endLen, hread]

theorem decodeClose_of_trailerTest {s : State} {ok : Bool} (h : trailerTest s = some ok) :
    decodeClose s = .next { s with trailerOk := ok, outLen := s.op, callState := .done } := by
  simp only [decodeClose, h]

/-- END with the output full is the completion of a DECODE (log 15). -/
theorem exec_endMarker_full {s : State} (hf : s.pxPos = pixelCount s) : exec .endMarker s = decodeClose s :=
  if_neg ((owed_false_iff s).2 hf.ge)

/-- Settles O23: with the output full the step is `decodeClose`, and the trailer test says what `TRAILER_OK` becomes. -/
theorem decodeCompletesWithTrailerCheck : Obligations.DecodeCompletesWithTrailerCheck := by
  unfold Obligations.DecodeCompletesWithTrailerCheck
  intro s hrun hf
  rw [step_decode_full hrun hf.ge]
  exact ⟨fun hshort => decodeClose_of_trailerTest (trailerTest_short hshort),
    fun w hl h8 hin => decodeClose_of_trailerTest (trailerTest_of_inHolds hl h8 hin)⟩

/-- Settles O9: the eight bytes at `ip` are the end marker, so the trailer test passes. -/
theorem endWhenFullIsTheTrailer : Obligations.EndWhenFullIsTheTrailer := by
  unfold Obligations.EndWhenFullIsTheTrailer
  intro s hf hl hin
  have htrailer : trailerTest s = some true := trailerTest_of_inHolds hl rfl hin
  refine ⟨_, (exec_endMarker_full hf).trans (decodeClose_of_trailerTest htrailer), ?_⟩
  exact ⟨rfl, rfl, rfl, rfl, rfl, rfl, rfl, rfl, rfl, fun _ => rfl, by constructor <;> rfl⟩

end Sys2Proof.Machine

/-! ## The index cache, and the decoder in lock step through it -/

namespace Sys2Proof.Machine

/-- Settles O32: the chunk is the one the encoder picked, and `exec` of it resolves to the encoder's pixel. Both machines
set the pixel's slot; on a hit the encoder's set changes nothing (`breakRun_encoded`). -/
theorem decoderFollowsTheEncoder : Obligations.DecoderFollowsTheEncoder := by
  unfold Obligations.DecoderFollowsTheEncoder
  intro e d px _ hprev hcache _
  obtain ⟨henc, hset⟩ := breakRun_encoded px e
  have hres := resolve_resolves (encode (pickedChunk px e)).length px d
  refine ⟨pickedChunk px e, _, pickedChunk_wellFormed px e, henc, exec_pickedChunk px hprev.symm hcache.symm,
    hres.prev.trans henc.prev.symm, ?cache, hres.ip, hres.out⟩
  case cache => rw [resolve_cache, hset, hcache]

theorem cacheGet_cacheSet (slot other : Fin 64) (p : Pixel) (s : State) :
    cacheGet other (cacheSet slot p s) = if slot = other then p else cacheGet other s :=
  cache_set_get s.cache slot other p

/-- Settles O33: the two cases of `get` after `set`. -/
theorem cacheSetThenGet : Obligations.CacheSetThenGet := by
  unfold Obligations.CacheSetThenGet
  intro slot other p s
  exact ⟨(cacheGet_cacheSet slot slot p s).trans (if_pos rfl),
    fun hne => (cacheGet_cacheSet slot other p s).trans (if_neg hne.symm)⟩

/-- The hash on naturals (41_index_cache.md R130). -/
theorem lookup_val (p : Pixel) :
    (lookup p).val = (p.r.toNat * 3 + p.g.toNat * 5 + p.b.toNat * 7 + p.a.toNat * 11) % 64 := rfl

/-- The 8-bit sum of the weighted channels is the exact sum modulo 256. -/
theorem wrappingHash_toNat (p : Pixel) :
    (p.r * 3#8 + p.g * 5#8 + p.b * 7#8 + p.a * 11#8).toNat =
      (p.r.toNat * 3 + p.g.toNat * 5 + p.b.toNat * 7 + p.a.toNat * 11) % 256 := by
  simp [BitVec.toNat_add, BitVec.toNat_mul]

/-- Settles O34: what a channel holds above its low six bits weighs a multiple of 64, and 64 divides 256. -/
theorem hashKeepsLowSixBits : Obligations.HashKeepsLowSixBits := by
  unfold Obligations.HashKeepsLowSixBits
  intro p
  refine ⟨?lowSix, ?wrapping⟩
  case lowSix => rw [lookup_val]; omega
  case wrapping => rw [lookup_val, wrappingHash_toNat, Nat.mod_mod_of_dvd _ (by decide)]

end Sys2Proof.Machine

/-! ## The encoder's pixel step: which chunk, and what the step leaves -/

namespace Sys2Proof.Machine

/-! ### The chunk picked on a cache miss (42_encoder.md R148 to R153) -/

section
variable {px prev : Pixel} {dr dg db : Int}

theorem areDeltas_deltas (px prev : Pixel) : AreDeltas px prev (deltaR px prev) (deltaG px prev) (deltaB px prev) :=
  ⟨delta_isDelta _ _, delta_isDelta _ _, delta_isDelta _ _⟩

/-- The three deltas are unique (R148). -/
theorem AreDeltas.eq (h : AreDeltas px prev dr dg db) :
    dr = deltaR px prev ∧ dg = deltaG px prev ∧ db = deltaB px prev := by
  obtain ⟨hr, hg, hb⟩ := h
  exact ⟨isDelta_unique _ _ _ hr, isDelta_unique _ _ _ hg, isDelta_unique _ _ _ hb⟩

/-- A pixel whose deltas are all zero is `prev` but for its alpha. -/
theorem AreDeltas.eq_of_zero (h : AreDeltas px prev 0 0 0) (ha : px.a = prev.a) : px = prev := by
  obtain ⟨hr, hg, hb⟩ := h.eq
  rw [← movePixel_deltas px prev ha, ← hr, ← hg, ← hb]
  simp [movePixel, addDelta, u8]

theorem missChunk_diff (ha : px.a = prev.a) (h : AreDeltas px prev dr dg db) (hd : FitsDiff dr dg db) :
    missChunk px prev = .diff dr dg db := by
  obtain ⟨rfl, rfl, rfl⟩ := h.eq
  rw [missChunk, if_pos ((alphaSame_iff _ _).2 ha), if_pos ((diffOk_iff _ _).2 hd)]

theorem missChunk_luma (ha : px.a = prev.a) (h : AreDeltas px prev dr dg db) (hd : ¬ FitsDiff dr dg db)
    (hl : FitsLuma dr dg db) : missChunk px prev = .luma dg (dr - dg) (db - dg) := by
  obtain ⟨rfl, rfl, rfl⟩ := h.eq
  rw [missChunk, if_pos ((alphaSame_iff _ _).2 ha), if_neg (mt (diffOk_iff _ _).1 hd), if_pos ((lumaOk_iff _ _).2 hl)]

theorem missChunk_rgb (ha : px.a = prev.a) (h : AreDeltas px prev dr dg db) (hd : ¬ FitsDiff dr dg db)
    (hl : ¬ FitsLuma dr dg db) : missChunk px prev = .rgb px.r px.g px.b := by
  obtain ⟨rfl, rfl, rfl⟩ := h.eq
  rw [missChunk, if_pos ((alphaSame_iff _ _).2 ha), if_neg (mt (diffOk_iff _ _).1 hd),
    if_neg (mt (lumaOk_iff _ _).1 hl)]

theorem missChunk_rgba (ha : px.a ≠ prev.a) : missChunk px prev = .rgba px.r px.g px.b px.a := by
  rw [missChunk, if_neg (mt (alphaSame_iff _ _).1 ha)]

end

/-! ### The step that takes a pixel (42_encoder.md R144, R146, R147, R154) -/

section
variable {s : State} {px : Pixel}

theorem EncodingPixel.step_eq (h : EncodingPixel s px) : step s = .next (breakRun px s) :=
  step_encode_other h.running h.owed (fetchPixel_of_pixelAtCursor s px h.pixel) h.breaks

/-- A hit emits INDEX, and writing the pixel over itself leaves the cache (R146). -/
theorem EncodingPixel.emits_on_hit (h : EncodingPixel s px) (hhit : s.cache[lookup px] = px) :
    ∃ t, step s = .next t ∧ PixelEncoded s t px (encode (.index (lookup px))) ∧ t.cache = s.cache := by
  obtain ⟨henc, hcache⟩ := breakRun_encoded px s
  rw [pickedChunk, if_pos hhit] at henc
  have hset : s.cache.set (lookup px) px = s.cache.set (lookup px) s.cache[lookup px] := by rw [hhit]
  exact ⟨_, h.step_eq, henc, hcache.trans (hset.trans (Vector.set_getElem_self _))⟩

/-- A miss emits the chunk that was picked, and the pixel's slot is written (R147). -/
theorem EncodingPixel.emits_on_miss {i : Instr} (h : EncodingPixel s px) (hmiss : s.cache[lookup px] ≠ px)
    (hi : missChunk px s.prev = i) :
    ∃ t, step s = .next t ∧ PixelEncoded s t px (encode i) ∧ CachedOnMiss s t px := by
  obtain ⟨henc, hcache⟩ := breakRun_encoded px s
  rw [pickedChunk, if_neg hmiss, hi] at henc
  refine ⟨_, h.step_eq, henc, ?_, fun slot hne => ?_⟩
  · rw [hcache, cache_set_get, if_pos rfl]
  · rw [hcache, cache_set_get, if_neg hne.symm]

end

/-- Settles O26: DIFF comes first among the chunks of a miss with the same alpha (`missChunk_diff`). -/
theorem encoderEmitsDiff : Obligations.EncoderEmitsDiff := by
  unfold Obligations.EncoderEmitsDiff
  intro s px dr dg db h hmiss ha hdeltas hd
  exact h.emits_on_miss hmiss (missChunk_diff ha hdeltas hd)

/-- Settles O27: LUMA comes second (`missChunk_luma`). -/
theorem encoderEmitsLuma : Obligations.EncoderEmitsLuma := by
  unfold Obligations.EncoderEmitsLuma
  intro s px dr dg db h hmiss ha hdeltas hd hl
  exact h.emits_on_miss hmiss (missChunk_luma ha hdeltas hd hl)

/-- Settles O28: RGB is what is left with the same alpha (`missChunk_rgb`). -/
theorem encoderEmitsRgb : Obligations.EncoderEmitsRgb := by
  unfold Obligations.EncoderEmitsRgb
  intro s px dr dg db h hmiss ha hdeltas hd hl
  exact h.emits_on_miss hmiss (missChunk_rgb ha hdeltas hd hl)

/-- Settles O29: with another alpha no delta is looked at (`missChunk_rgba`). -/
theorem encoderEmitsRgba : Obligations.EncoderEmitsRgba := by
  unfold Obligations.EncoderEmitsRgba
  intro s px h hmiss ha
  exact h.emits_on_miss hmiss (missChunk_rgba ha)

/-- Settles O25: the cache is asked before the alpha and the deltas. -/
theorem encoderIndexesOnHit : Obligations.EncoderIndexesOnHit := by
  unfold Obligations.EncoderIndexesOnHit
  intro s px h hhit
  exact h.emits_on_hit hhit

/-! ### What is never emitted (42_encoder.md R159) -/

/-- No chunk that a shorter one could stand for: the all-zero deltas, and a LUMA whose deltas fit DIFF (R159 (c), (d)). -/
structure NotWasteful (i : Instr) : Prop where
  diff : i ≠ .diff 0 0 0
  luma : i ≠ .luma 0 0 0
  fits : ∀ dg drDg dbDg, i = .luma dg drDg dbDg → ¬ FitsDiff (drDg + dg) dg (dbDg + dg)

theorem missChunk_notWasteful {px prev : Pixel} (hne : px ≠ prev) : NotWasteful (missChunk px prev) := by
  have hdeltas := areDeltas_deltas px prev
  by_cases ha : px.a = prev.a
  · by_cases hd : FitsDiff (deltaR px prev) (deltaG px prev) (deltaB px prev)
    · rw [missChunk_diff ha hdeltas hd]
      refine ⟨fun hz => ?_, by simp, by simp⟩
      injection hz with hr hg hb
      rw [hr, hg, hb] at hdeltas
      exact hne (hdeltas.eq_of_zero ha)
    · by_cases hl : FitsLuma (deltaR px prev) (deltaG px prev) (deltaB px prev)
      · rw [missChunk_luma ha hdeltas hd hl]
        have hfits : ∀ dg drDg dbDg, Instr.luma (deltaG px prev) (deltaR px prev - deltaG px prev)
            (deltaB px prev - deltaG px prev) = .luma dg drDg dbDg → ¬ FitsDiff (drDg + dg) dg (dbDg + dg) := by
          rintro _ _ _ ⟨⟩
          rwa [Int.sub_add_cancel, Int.sub_add_cancel]
        exact ⟨by simp, fun hz => hfits _ _ _ hz (by unfold FitsDiff; decide), hfits⟩
      · rw [missChunk_rgb ha hdeltas hd hl]
        exact ⟨by simp, by simp, by simp⟩
  · rw [missChunk_rgba ha]
    exact ⟨by simp, by simp, by simp⟩

theorem pickedChunk_notWasteful {px : Pixel} {s : State} (hne : px ≠ s.prev) : NotWasteful (pickedChunk px s) := by
  unfold pickedChunk
  split
  · exact ⟨by simp, by simp, by simp⟩
  · exact missChunk_notWasteful hne

/-- RGBA only carries a change of alpha (R152). -/
theorem missChunk_ne_rgba {px prev : Pixel} (ha : px.a = prev.a) (r g b a : Byte) : missChunk px prev ≠ .rgba r g b a := by
  rw [missChunk, if_pos ((alphaSame_iff _ _).2 ha)]
  split
  · simp
  · split <;> simp

theorem pickedChunk_ne_rgba {px : Pixel} {s : State} (ha : px.a = s.prev.a) (r g b a : Byte) :
    pickedChunk px s ≠ .rgba r g b a := by
  unfold pickedChunk
  split
  · simp
  · exact missChunk_ne_rgba ha r g b a

/-- In a 3-channel ENCODE every pixel has the alpha of `prev` (42_encoder.md R141). -/
theorem EncodingPixel.alpha_eq {s : State} {px : Pixel} (h : EncodingPixel s px) (hi : Invariant s)
    (h3 : s.channels = 3#8) : px.a = s.prev.a := by
  have hloop : EncodeLoopInv s := hi.callInvAt h.running.inPhase
  obtain ⟨hprev, -⟩ := hloop.alpha h3
  rw [hprev, fetchPixel_alpha h3 (fetchPixel_of_pixelAtCursor s px h.pixel)]

/-- Settles O30: a miss picks no wasteful chunk (`missChunk_notWasteful`), and what a step stores is the chunk picked; with three
channels the invariant holds every alpha at 255. -/
theorem encoderNeverEmits : Obligations.EncoderNeverEmits := by
  unfold Obligations.EncoderNeverEmits
  refine ⟨fun px prev hne => ?picked, fun s px h => ?stored⟩
  case picked =>
    obtain ⟨hdiff, hluma, hfits⟩ := missChunk_notWasteful hne
    exact ⟨fun ha hp => missChunk_ne_rgba (ha.trans hp.symm), hdiff, hluma, hfits⟩
  case stored =>
    obtain ⟨hdiff, hluma, hfits⟩ := pickedChunk_notWasteful h.breaks
    exact ⟨_, _, h.step_eq, pickedChunk_wellFormed px s, (breakRun_encoded px s).1, hdiff, hluma, hfits,
      fun hi h3 => pickedChunk_ne_rgba (h.alpha_eq hi h3)⟩

/-- Settles O31: the step leaves its pixel in the slot of its hash, so a hit in that slot would be that pixel again. -/
theorem noIndexTwiceInARow : Obligations.NoIndexTwiceInARow := by
  unfold Obligations.NoIndexTwiceInARow
  intro s t px next h hstep hnext hhit hslot
  obtain ⟨henc, hcache⟩ := breakRun_encoded px s
  rw [h.step_eq] at hstep
  cases hstep
  rw [hcache, cache_set_get, if_pos hslot.symm] at hhit
  exact hnext.breaks (hhit.symm.trans henc.prev.symm)

/-- Settles O24: the step is `joinRun`, which flushes the run or only counts (`joinRun_counts`). -/
theorem encoderCountsRuns : Obligations.EncoderCountsRuns := by
  unfold Obligations.EncoderCountsRuns
  intro s hrun ho hpx
  obtain ⟨hprev, hcache, hpos, hip, hcount⟩ := joinRun_counts s
  have hlast : s.pxPos = pixelCount s - 1 ↔ s.pxPos + 1 = pixelCount s := by omega
  refine ⟨_, step_encode_same hrun ho (fetchPixel_of_pixelAtCursor s _ hpx), hprev, hcache, hpos, hip,
    joinRun_control s, ?_⟩
  rw [hlast]
  obtain ⟨hf, hr, hop⟩ | ⟨hf, hr, hop, hout⟩ := hcount
  · refine ⟨fun _ => ⟨hr, hop, ?_⟩, absurd hf⟩
    rw [joinRun_of_flush hf]
    exact emit_stored (encode (.run (s.run + 1))) { s with run := s.run + 1 }
  · exact ⟨fun hf' => absurd hf' hf, fun _ => ⟨hr, hop, hout⟩⟩

end Sys2Proof.Machine

/-! ## How a call ends: the ENCODE's closing step and the errors of both directions -/

namespace Sys2Proof.Machine

/-- Settles O19: with every pixel taken the step is the closing one (`step_encode_full`). -/
theorem encodeCompletes : Obligations.EncodeCompletes := by
  unfold Obligations.EncodeCompletes
  intro s hrun hf
  refine ⟨_, step_encode_full hrun hf.ge, rfl, rfl, ?op, rfl, rfl, rfl, rfl, rfl,
    emit_stored (pendingRun s ++ Config.endMarker) s, by constructor <;> rfl⟩
  case op => simp [encodeClosedState, Config.endMarker, Nat.add_assoc]

/-- Taking a pixel does not end the call. -/
theorem encodePixel_callState {s t : State} (h : encodePixel s = .next t) : t.callState = s.callState := by
  unfold encodePixel at h
  split at h
  · cases h
  · rename_i px _
    split at h
    · cases h
      exact (joinRun_control s).callState
    · cases h
      exact (breakRun_encoded px s).1.control.callState

/-- An ENCODE ends DONE only when every pixel was taken (42_encoder.md R158). -/
theorem closed_of_encode_done {s t : State} (h : Running .encode .loop s) (hs : step s = .next t)
    (hd : t.callState = .done) : pixelCount s ≤ s.pxPos ∧ t = encodeClosedState s := by
  by_cases ho : s.pxPos < pixelCount s
  · simp only [step_of_no_move h.host, engineStep, encodeCall, h.busy, h.mode, h.phase, (owed_iff s).2 ho] at hs
    rw [encodePixel_callState hs, h.busy] at hd
    cases hd
  · rw [step_encode_full h (Nat.not_lt.1 ho)] at hs
    cases hs
    exact ⟨Nat.not_lt.1 ho, rfl⟩

/-- Settles O54: the invariant bounds `op` on both sides by the pixels taken, and at the closing step all are taken and no run is
pending. -/
theorem encodedSizeBounds : Obligations.EncodedSizeBounds := by
  unfold Obligations.EncodedSizeBounds
  intro s t hi hrun hs hd
  obtain ⟨hfull, rfl⟩ := closed_of_encode_done hrun hs hd
  have hloop : EncodeLoopInv s := hi.callInvAt hrun.inPhase
  have hpx : s.pxPos = pixelCount s := Nat.le_antisymm hloop.cursor hfull
  have hrun0 : s.run = 0 := hloop.flushed hpx
  have hlen : (encodeClosedState s).outLen = s.op + 8 := by
    simp [encodeClosedState, pendingRun, hrun0]
  have hpos := pixelCount_pos s hloop.descriptor
  have hup := hloop.upper
  obtain ⟨hhdr, hlow⟩ := hloop.lower
  simp only [hpx, hrun0, if_true, Config.hdrLen, Nat.add_zero] at hup hhdr hlow
  omega

/-- A running call ends in ERROR only by raising one of its direction's errors (60_exceptions.md R230, R231). -/
theorem raised_of_error {s t : State} (h : EngineTo s t) (hb : s.callState = .busy) (he : t.callState = .error) :
    ∃ e, Raises e s ∧ t = raise e s := by
  have still_busy : t.callState = s.callState → False := fun hc => by simp [hc, hb] at he
  cases h with
  | raised e _ hr => exact ⟨e, hr, rfl⟩
  | joined => exact (still_busy (joinRun_control s).callState).elim
  | broke px => exact (still_busy (breakRun_encoded px s).1.control.callState).elim
  | encodeClosed | decodeClosed => cases he
  | halted | encodeChecked | headerEmitted | headerParsed | decodeChecked | resolved | repeated =>
    exact (still_busy rfl).elim

/-- Settles O37: the engine's step raised the error (`raised_of_error`), and `Raises` says which and where. -/
theorem eachDirectionHasItsErrors : Obligations.EachDirectionHasItsErrors := by
  unfold Obligations.EachDirectionHasItsErrors
  intro s t hb hh hs he
  obtain ⟨e, hr, rfl⟩ := raised_of_error (engineStep_to (step_of_no_move hh ▸ hs)) hb he
  refine ⟨fun hm => ?_, fun hm => ?_⟩
  · simpa [Raises, hm] using hr
  · have hne : e ≠ .none ∧ e ≠ .dataLengthMismatch := by simpa [Raises, hm] using hr
    cases e <;> simp at hne ⊢

end Sys2Proof.Machine

/-! ## A uniform image -/

namespace Sys2Proof.Machine

/-! ### The RUN chunks of a number of equal pixels -/

/-- The RUN chunks of `n` pixels: one of 62 for each full 62, and one for the rest if there is one (42_encoder.md R161). -/
def runChunks (n : Nat) : List Byte :=
  List.replicate (n / 62) 0xFD#8 ++ if n % 62 = 0 then [] else encode (.run (n % 62))

theorem runChunks_length (n : Nat) : (runChunks n).length = (n + 61) / 62 := by
  unfold runChunks
  split <;> simp [encode] <;> omega

/-- A full RUN chunk stands for 62 pixels. -/
theorem runChunks_full (n : Nat) : runChunks (62 + n) = encode (.run 62) ++ runChunks n := by
  have hdiv : (62 + n) / 62 = n / 62 + 1 := by omega
  rw [runChunks, hdiv, Nat.add_mod_left, List.replicate_succ]
  rfl

/-- A single RUN chunk holds up to 62 pixels. -/
theorem runChunks_single {k : Nat} (h : k ≠ 0) (h' : k ≤ 62) : runChunks k = encode (.run k) := by
  by_cases h62 : k = 62
  · subst h62; rfl
  · have hdiv : k / 62 = 0 := by omega
    have hmod : k % 62 = k := by omega
    rw [runChunks, hdiv, hmod, if_neg h]
    rfl

/-- A flush after `r + 1` pixels, at 62 or with none to come, is the first of the chunks (42_encoder.md R143). -/
theorem runChunks_flush {r n : Nat} (hr : r ≤ 61) (h : r + 1 = 62 ∨ n = 0) :
    runChunks (r + (n + 1)) = encode (.run (r + 1)) ++ runChunks n := by
  obtain h62 | rfl := h
  · rw [show r + (n + 1) = 62 + n by omega, runChunks_full, h62]
  · exact runChunks_single (Nat.succ_ne_zero r) (Nat.succ_le_succ hr)

theorem runChunks_getElem?_full {n j : Nat} (h : j < n / 62) : (runChunks n)[j]? = some 0xFD#8 := by
  rw [runChunks, List.getElem?_append_left (by simpa using h), List.getElem?_replicate, if_pos h]

theorem runChunks_getElem?_rest {n : Nat} (h : n % 62 ≠ 0) :
    (runChunks n)[n / 62]? = some (BitVec.ofNat 8 (0xC0 + (n % 62 - 1))) := by
  rw [runChunks, if_neg h, List.getElem?_append_right (by simp)]
  simp [encode]

/-! ### The ENCODE of an image that is one colour -/

/-- Every pixel of the raw image is `px`. -/
def Uniform (px : Pixel) (e : State) : Prop := ∀ i, i < pixelCount e → PixelAtCursor { e with pxPos := i } px

theorem PixelAtCursor.of_control {s t : State} {px : Pixel} (h : PixelAtCursor s px) (c : SameControl s t)
    (hpx : t.pxPos = s.pxPos) : PixelAtCursor t px := by
  unfold PixelAtCursor
  rw [c.channels, hpx]
  exact h.imp (fun ⟨hc, hin⟩ => ⟨hc, c.inHolds hin⟩) fun ⟨hc, hin, ha⟩ => ⟨hc, c.inHolds hin, ha⟩

theorem Uniform.of_control {px : Pixel} {e t : State} (h : Uniform px e) (c : SameControl e t) : Uniform px t := by
  intro i hi
  rw [c.pixelCount] at hi
  exact (h i hi).of_control { c with } rfl

/-- A pixel is `channels` bytes of `IN` (42_encoder.md R141). -/
theorem PixelAtCursor.holds {s : State} {px : Pixel} (h : PixelAtCursor s px) :
    ∃ bytes : List Byte, bytes.length = s.channels.toNat ∧ InHolds s (s.pxPos * s.channels.toNat) bytes := by
  obtain ⟨hc, hin⟩ | ⟨hc, hin, -⟩ := h
  · exact ⟨[px.r, px.g, px.b, px.a], by rw [hc]; rfl, by rw [hc]; exact hin⟩
  · exact ⟨[px.r, px.g, px.b], by rw [hc]; rfl, by rw [hc]; exact hin⟩

/-- An image all of whose pixels are there fills `IN`. -/
theorem Uniform.inputFilled {px : Pixel} {e : State} (h : Uniform px e) (hl : rawLen e = e.inLen.toNat) :
    InputFilled e := by
  intro a ha
  rw [← hl, show rawLen e = e.channels.toNat * pixelCount e from Nat.mul_comm _ _] at ha
  obtain ⟨bytes, hlen, hin⟩ := (h _ (Nat.div_lt_of_lt_mul ha)).holds
  have hj : a % e.channels.toNat < bytes.length := by
    rw [hlen]
    exact Nat.mod_lt _ (Nat.pos_of_lt_mul_right ha)
  have hbyte : inByte e (a / e.channels.toNat * e.channels.toNat + a % e.channels.toNat) = _ := hin _ hj
  rw [Nat.div_add_mod', List.getElem?_eq_getElem hj] at hbyte
  rw [hbyte]
  rfl

/-- Where all the pixels to come equal `prev`, the ENCODE ends with the RUN chunks of the pending run and of those pixels. By
induction on the pixels to come. -/
theorem encodesTo_runs (n : Nat) : ∀ e, EncodeReady e → Uniform e.prev e → e.pxPos + n = pixelCount e →
    ∃ t, Reaches e t ∧ EncodesTo e t (runChunks (e.run + n) ++ Config.endMarker) := by
  induction n with
  | zero =>
    intro e h _ hn
    rw [h.flushed hn]
    exact encodesTo_closed h hn
  | succ n ih =>
    intro e h hu hn
    have ho : e.pxPos < pixelCount e := by omega
    have hf : fetchPixel e = some e.prev := fetchPixel_of_pixelAtCursor e _ (hu _ ho)
    have hp := fetchPixel_atCursor h.descriptor hf
    have c := joinRun_control e
    obtain ⟨hprev, -, hpx, -, hcount⟩ := joinRun_counts e
    obtain ⟨t, hr, ht⟩ := ih (joinRun e) (h.joinRun ho) (by rw [hprev]; exact hu.of_control c)
      (by rw [c.pixelCount, hpx]; omega)
    refine ⟨t, .head (step_encode_same h.running ho hf) hr, ?_⟩
    obtain ⟨hflush, hrun, -⟩ | ⟨hflush, hrun, -⟩ := hcount
    · rw [hrun, Nat.zero_add, joinRun_of_flush hflush] at ht
      rw [runChunks_flush h.run (hflush.imp_right fun hlast => by omega), List.append_assoc]
      exact ht.of_flushed h.run ho hp
    · rw [hrun, joinRun_of_no_flush hflush, Nat.add_assoc, Nat.add_comm 1] at ht
      exact ht.of_counted hp

/-! ### Reading back two stores in a row -/

section
variable {s t : State} {base j : Nat} {xs ys : List Byte}

theorem Stored.outByte_left (h : Stored s t base (xs ++ ys)) (hj : j < xs.length) : outByte t (base + j) = xs[j]? := by
  rw [h, List.length_append, if_pos (by omega), Nat.add_sub_cancel_left, List.getElem?_append_left hj]

theorem Stored.outByte_right (h : Stored s t base (xs ++ ys)) (hj : j < ys.length) :
    outByte t (base + xs.length + j) = ys[j]? := by
  rw [h, List.length_append, if_pos (by omega), List.getElem?_append_right (by omega)]
  congr 1
  omega

end

/-- Settles O58: after the header every pixel joins the run, so what follows is the RUN chunks and the end marker
(`encodesTo_runs`). -/
theorem uniformImageIsRuns : Obligations.UniformImageIsRuns := by
  unfold Obligations.UniformImageIsRuns
  intro e hhost hd hl huniform
  have hu : Uniform Config.prevInit e := huniform
  obtain ⟨t, hrt, ht⟩ := encodesTo_runs (pixelCount e) (encodeLoopStart e)
    (encodeLoopStart_ready hhost hd hl (hu.inputFilled hl)) hu (Nat.zero_add _)
  obtain ⟨k, hk⟩ := (encode_reaches_loop hhost hd hl).trans hrt
  have hrun : (encodeLoopStart e).run + pixelCount e = pixelCount e := Nat.zero_add _
  obtain ⟨hdone, hlen, hout, -, -⟩ := ht
  rw [hrun] at hout hlen
  have hheader : Stored (startCall .encode e) t 0
      (headerBytes e.config.magic e.width e.height e.channels e.colorspace ++
        (runChunks (pixelCount e) ++ Config.endMarker)) :=
    Stored.append (emit_stored _ (startCall .encode e)) hout
  rw [encodeLoopStart_op] at hout hlen
  have hruns : (runChunks (pixelCount e)).length = (pixelCount e + 61) / 62 := runChunks_length _
  refine ⟨k, t, hk, hdone, ?outLen, fun j hj => ?header, fun j hj => ?full, fun hrest => ?rest, fun j hj => ?marker⟩
  case outLen => rw [hlen, List.length_append, hruns, Nat.add_assoc]; rfl
  case header => simpa using hheader.outByte_left (j := j) (by simpa using hj)
  case full => rw [hout.outByte_left (by omega), runChunks_getElem?_full hj]
  case rest => rw [hout.outByte_left (by omega), runChunks_getElem?_rest hrest]
  case marker => rw [← hruns, hout.outByte_right hj]

end Sys2Proof.Machine

/-! ## The decoder's chunks, one iteration of its loop, and where the stream is cut short -/

namespace Sys2Proof.Machine

/-! ### One chunk (43_decoder.md R174 to R179) -/

/-- Settles O1: `exec` of INDEX is `resolve` of the pixel in the chunk's slot. -/
theorem indexChunkResolves : Obligations.IndexChunkResolves := by
  unfold Obligations.IndexChunkResolves
  intro slot s
  exact ⟨_, rfl, resolve_resolves 1 s.cache[slot] s⟩

/-- Settles O2: `exec` of DIFF is `resolve` of `prev` moved by the deltas, each channel modulo 256. -/
theorem diffChunkResolves : Obligations.DiffChunkResolves := by
  unfold Obligations.DiffChunkResolves
  intro dr dg db s
  exact ⟨_, movePixel s.prev dr dg db, rfl, resolve_resolves 1 _ s, addDelta_toNat _ _, addDelta_toNat _ _,
    addDelta_toNat _ _, rfl⟩

/-- Settles O3: as DIFF, with `dr_dg + dg` and `db_dg + dg` for the red and the blue delta. -/
theorem lumaChunkResolves : Obligations.LumaChunkResolves := by
  unfold Obligations.LumaChunkResolves
  intro dg drDg dbDg s
  exact ⟨_, movePixel s.prev (drDg + dg) dg (dbDg + dg), rfl, resolve_resolves 2 _ s, addDelta_toNat _ _,
    addDelta_toNat _ _, addDelta_toNat _ _, rfl⟩

/-- Settles O4: `exec` of RGB is `resolve` of the payload with the alpha of `prev`. -/
theorem rgbChunkResolves : Obligations.RgbChunkResolves := by
  unfold Obligations.RgbChunkResolves
  intro r g b s
  exact ⟨_, rfl, resolve_resolves 4 ⟨r, g, b, s.prev.a⟩ s⟩

/-- Settles O5: `exec` of RGBA is `resolve` of the payload, whatever `CHANNELS` is. -/
theorem rgbaChunkResolves : Obligations.RgbaChunkResolves := by
  unfold Obligations.RgbaChunkResolves
  intro r g b a s
  exact ⟨_, rfl, resolve_resolves 5 ⟨r, g, b, a⟩ s⟩

theorem exec_run (count : Nat) (s : State) :
    exec (.run count) s = .next (repeatedState (clippedCount count s) s) := rfl

theorem repeatedState_op (k : Nat) (s : State) : (repeatedState k s).op = s.op + k * pixelSize s.channels :=
  congrArg (s.op + ·) (repeatBytes_length s.channels s.prev k)

theorem repeatedState_stored (k : Nat) (s : State) :
    Stored s (repeatedState k s) s.op (repeatBytes s.channels s.prev k) :=
  emit_stored _ s

/-- Settles O6: `exec` of RUN is `repeatedState` of the clipped count. -/
theorem runChunkRepeatsPrev : Obligations.RunChunkRepeatsPrev := by
  unfold Obligations.RunChunkRepeatsPrev
  intro count s
  refine ⟨_, clippedCount count s, exec_run count s, rfl, rfl, rfl, rfl, rfl, rfl, repeatedState_op _ s, ?out,
    repeatedState_control _ s⟩
  case out =>
    rw [← runBytes_eq]
    exact repeatedState_stored _ s

/-- Every chunk completes and leaves the control registers alone. -/
theorem exec_chunk_control {i : Instr} (hne : i ≠ .endMarker) (s : State) :
    ∃ t, exec i s = .next t ∧ SameControl s t := by
  cases i with
  | rgb r g b => exact ⟨_, rfl, (resolve_resolves _ _ s).control⟩
  | rgba r g b a => exact ⟨_, rfl, (resolve_resolves _ _ s).control⟩
  | index slot => exact ⟨_, rfl, (resolve_resolves _ _ s).control⟩
  | diff dr dg db => exact ⟨_, rfl, (resolve_resolves _ _ s).control⟩
  | luma dg drDg dbDg => exact ⟨_, rfl, (resolve_resolves _ _ s).control⟩
  | run count => exact ⟨_, exec_run count s, repeatedState_control _ s⟩
  | endMarker => exact absurd rfl hne

/-! ### The end marker while pixels are owed (43_decoder.md R183) -/

theorem exec_endMarker_detected {s : State} (ho : s.pxPos < pixelCount s) (hd : s.config.endMarkerDetect = true) :
    exec .endMarker s = .next (raise .truncatedStream s) :=
  (if_pos ((owed_iff s).2 ho)).trans (if_pos hd)

theorem exec_endMarker_undetected {s : State} (ho : s.pxPos < pixelCount s) (hd : s.config.endMarkerDetect = false) :
    exec .endMarker s = exec (.index 0) s :=
  (if_pos ((owed_iff s).2 ho)).trans (if_neg (Bool.eq_false_iff.1 hd))

/-- Settles O7: recognised while pixels are owed, the marker raises the error. -/
theorem endWhileOwedIsTruncatedStream : Obligations.EndWhileOwedIsTruncatedStream := by
  unfold Obligations.EndWhileOwedIsTruncatedStream
  intro s ho hd
  exact ⟨_, exec_endMarker_detected ho hd, raise_errorEntered _ s⟩

/-- Settles O8: unrecognised, the row END runs as the INDEX chunk of slot 0 (`indexChunkResolves`). -/
theorem endUndetectedRunsAsIndex : Obligations.EndUndetectedRunsAsIndex := by
  unfold Obligations.EndUndetectedRunsAsIndex
  intro s ho hd
  rw [exec_endMarker_undetected ho hd]
  exact indexChunkResolves 0 s

/-! ### One iteration of the chunk loop (43_decoder.md R172, R173, R183, R186) -/

theorem fetchBytes_marker {s : State} (h : MarkerDetected s) : fetchBytes s = some Config.endMarker := by
  obtain ⟨hd, hl, hin⟩ := h
  have hahead : Config.endLen ≤ s.inLen.toNat - s.ip := Nat.le_sub_of_add_le' hl
  exact (if_pos ⟨hd, hahead⟩).trans (memReadN_of_inHolds s s.ip _ hin)

theorem decodeStep_of_marker {s : State} (h : MarkerDetected s) : decodeStep s = exec .endMarker s := by
  have hdec : decode s.config.endMarkerDetect Config.endMarker = .ok (.endMarker, []) := by
    rw [h.1]; rfl
  simp only [decodeStep, fetchBytes_marker h, hdec]

/-- A step of the engine in the chunk loop with pixels owed is an iteration. -/
theorem engineStep_decode_owed {s : State} (h : InPhase .decode .loop s) (ho : s.pxPos < pixelCount s) :
    engineStep s = decodeStep s := by
  simp only [engineStep, decodeCall, h.busy, h.mode, h.phase, (owed_iff s).2 ho, if_true]

/-- What an iteration runs does not depend on the host's coming moves, so both ways to let the engine run lead to it (log 6). -/
theorem DecodingChunk.runs {s : State} {i : Instr} (h : DecodingChunk s)
    (hi : ∀ moves, decodeStep { s with host := moves } = exec i { s with host := moves }) :
    step s = exec i s ∧ ∀ rest, step { s with host := .letRun :: rest } = exec i { s with host := rest } := by
  refine ⟨(step_decode_owed h.running h.owed).trans (hi s.host), fun rest => ?_⟩
  have hturn : step { s with host := .letRun :: rest } = engineStep { s with host := rest } :=
    step_of_move (s := { s with host := .letRun :: rest }) rfl
  have hphase : InPhase .decode .loop { s with host := rest } :=
    ⟨h.running.busy, h.running.mode, h.running.phase⟩
  rw [hturn, engineStep_decode_owed hphase h.owed, hi]

/-- Settles O10: the iteration fetches the chunk (`decodeStep_eq_exec`) or the detected marker (`decodeStep_of_marker`). -/
theorem stepRunsTheDecodedChunk : Obligations.StepRunsTheDecodedChunk := by
  unfold Obligations.StepRunsTheDecodedChunk
  intro s h
  refine ⟨fun i hw hne hin hl hmark => h.runs fun moves => ?chunk, fun hmark => h.runs fun moves => ?marker⟩
  case chunk => exact decodeStep_eq_exec (s := { s with host := moves }) hw hne hin hl hmark
  case marker => exact decodeStep_of_marker (s := { s with host := moves }) hmark

/-! ### Where the stream is cut short (43_decoder.md R185) -/

/-- The three places of R185: no tag byte is left, the payload of the tag byte reaches past `IN_LEN`, the end marker is detected. -/
def CutShort (s : State) : Prop :=
  s.ip = s.inLen.toNat ∨
    (∃ b0, inByte s s.ip = some b0 ∧ s.inLen.toNat < s.ip + 1 + payloadLen b0) ∨
    MarkerDetected s

/-- A fetch that leaves bytes below `IN_LEN` unread has read the whole look-ahead, or the whole chunk of the tag byte. -/
theorem fetchBytes_partial {s : State} {bytes : List Byte} (h : fetchBytes s = some bytes)
    (hl : bytes.length < s.inLen.toNat - s.ip) :
    bytes.length = 8 ∨ ∃ b0, inByte s s.ip = some b0 ∧ bytes.length = 1 + payloadLen b0 := by
  unfold fetchBytes at h
  simp only at h
  split at h
  · exact .inl (inHolds_of_memReadN s s.ip _ bytes h).1
  · split at h
    · omega
    · split at h
      · cases h
      · rename_i b0 hb0
        obtain ⟨hlen, -⟩ := inHolds_of_memReadN s s.ip _ bytes h
        exact .inr ⟨b0, hb0, by omega⟩

/-- The first byte fetched is the tag byte. -/
theorem fetchBytes_tag {s : State} {b0 : Byte} {tl : List Byte} (h : fetchBytes s = some (b0 :: tl)) :
    inByte s s.ip = some b0 := by
  obtain ⟨-, hin⟩ := fetchBytes_some h
  exact hin 0 (by simp)

/-- The look-ahead finds the marker only where it stands below `IN_LEN`. -/
theorem markerDetected_of_fetchBytes {s : State} {bytes : List Byte} (h : fetchBytes s = some bytes)
    (hd : s.config.endMarkerDetect = true) (hm : bytes.take Config.endLen = Config.endMarker) : MarkerDetected s := by
  obtain ⟨hlen, hin⟩ := fetchBytes_some h
  obtain ⟨rest, rfl⟩ : ∃ rest, bytes = Config.endMarker ++ rest := ⟨_, hm ▸ (List.take_append_drop _ _).symm⟩
  simp only [Config.endMarker, List.length_append, List.length_cons, List.length_nil] at hlen
  exact ⟨hd, by omega, (inHolds_append.1 hin).1⟩

/-- The tag parser fails on the fetched bytes only for want of bytes below `IN_LEN`. -/
theorem cutShort_of_decodeChunk_error {s : State} {bytes : List Byte} {e : DecodeError} (h : fetchBytes s = some bytes)
    (hip : s.ip ≤ s.inLen.toNat) (he : decodeChunk bytes = .error e) : CutShort s := by
  rcases decodeChunk_error he with rfl | ⟨b0, tl, rfl, hshort⟩
  · refine .inl ?_
    by_contra hne
    obtain h8 | ⟨b0, -, h1⟩ := fetchBytes_partial h (by rw [List.length_nil]; omega)
    · simp at h8
    · simp at h1
      omega
  · have htag := fetchBytes_tag h
    refine .inr (.inl ⟨b0, htag, ?_⟩)
    by_contra hfits
    have hle := payloadLen_le b0
    obtain h8 | ⟨b1, hb1, h1⟩ := fetchBytes_partial h (by rw [List.length_cons]; omega)
    · rw [List.length_cons] at h8
      omega
    · cases htag.symm.trans hb1
      rw [List.length_cons] at h1
      omega

/-- A chunk that was parsed lies below `IN_LEN` with its tag byte and its payload. -/
theorem not_cutShort_of_decodeChunk_ok {s : State} {bytes rest : List Byte} {i : Instr} (h : fetchBytes s = some bytes)
    (hi : decodeChunk bytes = .ok (i, rest)) (hm : ¬ MarkerDetected s) : ¬ CutShort s := by
  obtain ⟨hw, hne, rfl⟩ := decodeChunk_ok hi
  obtain ⟨b0, payload, he, hlen⟩ := encode_eq_cons hw hne
  obtain ⟨hleft, -⟩ := fetchBytes_some h
  rw [List.length_append, hlen] at hleft
  rw [he, List.cons_append] at h
  rintro (hend | ⟨b1, hb1, hpast⟩ | hmark)
  · omega
  · cases (fetchBytes_tag h).symm.trans hb1
    omega
  · exact hm hmark

/-- Everything an iteration can do: where the stream is cut short it raises, else it keeps the control registers. -/
theorem decodeStep_cutShort_or_control {s t : State} (ho : s.pxPos < pixelCount s) (hip : s.ip ≤ s.inLen.toNat)
    (ht : decodeStep s = .next t) :
    (CutShort s ∧ t = raise .truncatedStream s) ∨ (¬ CutShort s ∧ SameControl s t) := by
  by_cases hm : MarkerDetected s
  · rw [decodeStep_of_marker hm, exec_endMarker_detected ho hm.1] at ht
    cases ht
    exact .inl ⟨.inr (.inr hm), rfl⟩
  · unfold decodeStep at ht
    split at ht
    · cases ht
    · rename_i bytes hf
      have hparse : decode s.config.endMarkerDetect bytes = decodeChunk bytes :=
        if_neg fun hmark => hm (markerDetected_of_fetchBytes hf hmark.1 hmark.2)
      rw [hparse] at ht
      split at ht
      · rename_i i rest hi
        obtain ⟨-, hne, -⟩ := decodeChunk_ok hi
        obtain ⟨t', hexec, hcontrol⟩ := exec_chunk_control hne s
        cases hexec.symm.trans ht
        exact .inr ⟨not_cutShort_of_decodeChunk_ok hf hi hm, hcontrol⟩
      · rename_i e he
        cases ht
        exact .inl ⟨cutShort_of_decodeChunk_error hf hip he, rfl⟩

/-- Settles O11: an iteration raises exactly where the stream is cut short, and any other keeps ERR
(`decodeStep_cutShort_or_control`). -/
theorem truncatedStreamExactly : Obligations.TruncatedStreamExactly := by
  unfold Obligations.TruncatedStreamExactly
  intro s t h herr hip ht
  rw [step_decode_owed h.running h.owed] at ht
  show (t.err = .truncatedStream ↔ CutShort s) ∧ _
  rcases decodeStep_cutShort_or_control h.owed hip ht with ⟨hcut, rfl⟩ | ⟨hcut, hcontrol⟩
  · exact ⟨iff_of_true rfl hcut, fun _ => raise_errorEntered _ s⟩
  · have hne : t.err ≠ .truncatedStream := by simp [hcontrol.err, herr]
    exact ⟨iff_of_false hne hcut, fun he => absurd he hne⟩

end Sys2Proof.Machine

/-! ## A call ends: the engine always has a step, and each step brings the end nearer (44_control.md R203) -/

namespace Sys2Proof.Machine

/-! ### The engine never lacks its input -/

theorem decodeHeader_next {s : State} (hf : InputFilled s) : ∃ t, decodeHeader s = .next t := by
  unfold decodeHeader
  split
  · exact ⟨_, rfl⟩
  · rename_i hl
    obtain ⟨bytes, hb⟩ := memReadN_isSome s.inMem Config.hdrLen 0 fun j hj => hf _ (by omega)
    simp only [hb]
    split <;> exact ⟨_, rfl⟩

theorem exec_owed_next {s : State} (i : Instr) (ho : s.pxPos < pixelCount s) : ∃ t, exec i s = .next t := by
  by_cases hi : i = .endMarker
  · subst hi
    cases hd : s.config.endMarkerDetect with
    | true => exact ⟨_, exec_endMarker_detected ho hd⟩
    | false => exact ⟨_, exec_endMarker_undetected ho hd⟩
  · obtain ⟨t, ht, -⟩ := exec_chunk_control hi s
    exact ⟨t, ht⟩

theorem decodeStep_next {s : State} (hf : InputFilled s) (hip : s.ip ≤ s.inLen.toNat) (ho : s.pxPos < pixelCount s) :
    ∃ t, decodeStep s = .next t := by
  obtain ⟨bytes, hb⟩ := fetchBytes_isSome hf hip
  unfold decodeStep
  simp only [hb]
  split
  · exact exec_owed_next _ ho
  · exact ⟨_, rfl⟩

theorem trailerTest_isSome {s : State} (hf : InputFilled s) : ∃ ok, trailerTest s = some ok := by
  unfold trailerTest
  split
  · obtain ⟨bytes, hb⟩ := memReadN_isSome s.inMem Config.endLen s.ip fun j hj => hf _ (by omega)
    simp only [hb]
    exact ⟨_, rfl⟩
  · exact ⟨_, rfl⟩

theorem encodeCheck_next (s : State) : ∃ t, encodeCheck s = .next t := by
  unfold encodeCheck
  split
  · exact ⟨_, rfl⟩
  · split <;> exact ⟨_, rfl⟩

theorem encodePixel_next {s : State} {px : Pixel} (h : fetchPixel s = some px) : ∃ t, encodePixel s = .next t := by
  unfold encodePixel
  rw [h]
  cases hs : same px s.prev with
  | true => exact ⟨_, if_pos hs⟩
  | false => exact ⟨_, if_neg (Bool.eq_false_iff.1 hs)⟩

theorem encodeCall_next {s : State} (hi : Invariant s) (hb : s.callState = .busy) (hm : s.mode = .encode) :
    ∃ t, encodeCall s = .next t := by
  unfold encodeCall
  cases hp : s.phase with
  | check => exact encodeCheck_next s
  | header => exact ⟨_, rfl⟩
  | loop =>
    have hloop : EncodeLoopInv s := hi.callInvAt ⟨hb, hm, hp⟩
    by_cases ho : owed s = true
    · obtain ⟨px, hpx⟩ := fetchPixel_isSome (hi.input hb) hloop.inLen hloop.descriptor ((owed_iff s).1 ho)
      simpa only [if_pos ho] using encodePixel_next hpx
    · exact ⟨_, (if_neg ho).trans (encodeClose_eq s)⟩

theorem decodeCall_next {s : State} (hi : Invariant s) (hb : s.callState = .busy) (hm : s.mode = .decode) :
    ∃ t, decodeCall s = .next t := by
  have hf := hi.input hb
  unfold decodeCall
  cases hp : s.phase with
  | header => exact decodeHeader_next hf
  | check =>
    show ∃ t, decodeCheck s = .next t
    unfold decodeCheck
    split <;> exact ⟨_, rfl⟩
  | loop =>
    have hloop : DecodeLoopInv s := hi.callInvAt ⟨hb, hm, hp⟩
    by_cases ho : owed s = true
    · simpa only [if_pos ho] using decodeStep_next hf hloop.ip.2 ((owed_iff s).1 ho)
    · obtain ⟨ok, hok⟩ := trailerTest_isSome hf
      exact ⟨_, (if_neg ho).trans (decodeClose_of_trailerTest hok)⟩

/-- A BUSY engine of the invariant takes a step, without fault or refusal (44_control.md R203). -/
theorem Invariant.engineStep_next {s : State} (hi : Invariant s) (hb : s.callState = .busy) :
    ∃ t, engineStep s = .next t := by
  unfold engineStep
  rw [hb]
  cases hm : s.mode with
  | encode => exact encodeCall_next hi hb hm
  | decode => exact decodeCall_next hi hb hm

/-! ### Each step brings the end nearer -/

/-- The steps a call takes before its loop, at most (44_control.md R209). -/
def stepsToLoop (s : State) : Nat :=
  match s.mode, s.phase with
  | .encode, .check => 2
  | .encode, .header => 1
  | .decode, .header => 2
  | .decode, .check => 1
  | _, .loop => 0

/-- A running call before its loop either fails, or comes a step nearer to the loop. -/
theorem setup_progress {s t : State} (hb : s.callState = .busy) (hp : s.phase ≠ .loop) (h : EngineTo s t) :
    t.callState = .error ∨ (t.callState = .busy ∧ stepsToLoop t < stepsToLoop s) := by
  have not_loop : ∀ {m : Mode}, ¬ InPhase m .loop s := fun h => hp h.phase
  cases h with
  | halted h => exact absurd hb h
  | raised e => exact .inl rfl
  | encodeChecked h => exact .inr ⟨hb, by simp [stepsToLoop, h.mode, h.phase]⟩
  | headerEmitted h => exact .inr ⟨hb, by simp [stepsToLoop, initWorking, h.mode, h.phase]⟩
  | headerParsed _ _ _ _ h => exact .inr ⟨hb, by simp [stepsToLoop, h.mode, h.phase]⟩
  | decodeChecked h => exact .inr ⟨hb, by simp [stepsToLoop, initWorking, h.mode, h.phase]⟩
  | joined h => exact absurd h not_loop
  | broke px h => exact absurd h not_loop
  | encodeClosed h => exact absurd h not_loop
  | resolved _ _ h => exact absurd h not_loop
  | repeated _ h => exact absurd h not_loop
  | decodeClosed _ h => exact absurd h not_loop

/-! ### The whole call -/

/-- A call of the invariant runs, and the host leaves it to the engine. -/
structure RunsAlone (s : State) : Prop where
  invariant : Invariant s
  busy : s.callState = .busy
  host : s.host = []

/-- It takes a step, and runs on unless that step ended it. -/
theorem RunsAlone.step {s : State} (h : RunsAlone s) :
    ∃ t, step s = .next t ∧ EngineTo s t ∧ (t.callState = .busy → RunsAlone t) := by
  obtain ⟨t, ht⟩ := h.invariant.engineStep_next h.busy
  have hto := engineStep_to ht
  obtain ⟨-, -, -, -, hhost⟩ := engineTo_frame hto
  exact ⟨t, (step_of_no_move h.host).trans ht, hto, fun hb => ⟨h.invariant.engineTo hto, hb, hhost.trans h.host⟩⟩

/-- At most `n` steps lead to DONE or ERROR. -/
def EndsWithin (n : Nat) (s : State) : Prop :=
  ∃ k t, k ≤ n ∧ steps k s = .next t ∧ (t.callState = .done ∨ t.callState = .error)

theorem EndsWithin.of_ended {s : State} (h : s.callState = .done ∨ s.callState = .error) : EndsWithin 0 s :=
  ⟨0, s, le_rfl, rfl, h⟩

theorem EndsWithin.head {m n : Nat} {s t : State} (h : step s = .next t) (ht : EndsWithin m t) (hmn : m < n) :
    EndsWithin n s := by
  obtain ⟨k, u, hk, hu, hended⟩ := ht
  exact ⟨k + 1, u, by omega, by simp only [steps, h, hu], hended⟩

/-- Each step of the loop but the closing one takes at least one of the pixels owed (43_decoder.md R190). -/
theorem loop_endsWithin {s : State} (h : RunsAlone s) (hp : s.phase = .loop) :
    EndsWithin (pixelCount s - s.pxPos + 1) s := by
  induction howed : pixelCount s - s.pxPos using Nat.strong_induction_on generalizing s with
  | _ n ih =>
    obtain ⟨t, ht, hto, hruns⟩ := h.step
    obtain hended | ⟨hb, hpt, hlt, hadv, hcount⟩ := loop_progress h.busy hp hto
    · exact .head ht (.of_ended hended) n.succ_pos
    · have hfewer : pixelCount t - t.pxPos < n := by omega
      exact .head ht (ih _ hfewer (hruns hb) hpt rfl) (Nat.succ_lt_succ hfewer)

/-- From any phase the call fails or reaches its loop, and ends there. -/
theorem call_ends {s : State} (h : RunsAlone s) : ∃ n, EndsWithin n s := by
  induction hleft : stepsToLoop s using Nat.strong_induction_on generalizing s with
  | _ left ih =>
    by_cases hp : s.phase = .loop
    · exact ⟨_, loop_endsWithin h hp⟩
    · obtain ⟨t, ht, hto, hruns⟩ := h.step
      obtain herr | ⟨hb, hnearer⟩ := setup_progress h.busy hp hto
      · exact ⟨1, .head ht (.of_ended (.inr herr)) Nat.one_pos⟩
      · obtain ⟨n, hn⟩ := ih _ (hleft ▸ hnearer) (hruns hb) rfl
        exact ⟨n + 1, hn.head ht n.lt_succ_self⟩

/-- Settles O56: a running call always has a step (`Invariant.engineStep_next`); before the loop each step comes nearer to it
(`call_ends`), and in the loop fewer pixels are owed after each (`loop_endsWithin`). -/
theorem everyCallEnds : Obligations.EveryCallEnds := by
  unfold Obligations.EveryCallEnds
  intro s hi hb hh
  have h : RunsAlone s := ⟨hi, hb, hh⟩
  by_cases hp : s.phase = .loop
  · obtain ⟨k, t, hk, ht, hended⟩ := loop_endsWithin h hp
    exact ⟨k, t, ht, hended, fun _ => hk⟩
  · obtain ⟨n, k, t, -, ht, hended⟩ := call_ends h
    exact ⟨k, t, ht, hended, fun hloop => absurd hloop hp⟩

end Sys2Proof.Machine

/-! ## START and ABORT, the two ways out of a finished call (44_control.md R205, R206) -/

namespace Sys2Proof.Machine

/-- With no call running, STATE changes at an ABORT write of 1 and at a START alone. -/
theorem hostTo_changes_callState {m : HostMove} {s t : State} (h : HostTo m s t) (hb : s.callState ≠ .busy)
    (hne : t.callState ≠ s.callState) : m = .writeAbort 1#1 ∨ ∃ v, ctrlStart v = true ∧ m = .writeCtrl v := by
  cases h with
  | engine moves _ _ h => exact absurd (congrArg State.callState (engineTo_not_busy h hb)) hne
  | started v hm hv => exact .inr ⟨v, hv, hm⟩
  | aborted hm => exact .inl hm
  | nothing | wroteDescriptor | wroteInput | wroteControl | read => exact absurd rfl hne

/-- Settles O47: the engine leaves a finished call alone (`engineTo_not_busy`), and of the host's moves only two change its STATE
(`hostTo_changes_callState`). -/
theorem onlyStartOrAbortLeavesAFinishedCall : Obligations.OnlyStartOrAbortLeavesAFinishedCall := by
  unfold Obligations.OnlyStartOrAbortLeavesAFinishedCall
  intro s t hfinished h hne
  have hb : s.callState ≠ .busy := by rcases hfinished with hs | hs <;> simp [hs]
  cases hh : s.host with
  | nil =>
    have hsame := engineTo_not_busy (engineStep_to (step_of_no_move hh ▸ h)) hb
    exact absurd (congrArg State.callState hsame) hne
  | cons m rest =>
    have hto : HostTo m { s with host := rest } t := hostMove_to (step_of_move hh ▸ h)
    obtain rfl | ⟨v, hv, rfl⟩ := hostTo_changes_callState hto hb hne
    · exact ⟨rest, .inl rfl⟩
    · exact ⟨rest, .inr ⟨v, hv, rfl⟩⟩

theorem abortCall_of_busy {s : State} (h : s.callState = .busy) :
    abortCall s = clearStatus (freeDecodeResult (freeWorking s)) := by
  simp only [abortCall, h]

theorem abortCall_of_not_busy {s : State} (h : s.callState ≠ .busy) : abortCall s = clearStatus s := by
  cases hc : s.callState <;> simp_all [abortCall]

/-- An ENCODE keeps the descriptor, which the host wrote (log 25). -/
theorem freeDecodeResult_encode {s : State} (h : s.mode = .encode) : freeDecodeResult s = s := by
  simp only [freeDecodeResult, h]

theorem step_abort {s : State} {rest : List HostMove} (hh : s.host = .writeAbort 1#1 :: rest) :
    step s = .next (abortCall { s with host := rest }) := by
  rw [step_of_move hh]
  rfl

/-- Settles O43: an ABORT clears the status registers, after freeing what a running call leaves unspecified. -/
theorem abortClearsTheStatus : Obligations.AbortClearsTheStatus := by
  unfold Obligations.AbortClearsTheStatus
  intro s rest hh
  refine ⟨_, step_abort hh, ?_⟩
  by_cases hb : s.callState = .busy
  · rw [abortCall_of_busy (s := { s with host := rest }) hb]
    refine ⟨rfl, rfl, rfl, rfl, by simp, by simp, by simp, by simp, by simp, absurd hb, fun hkept => ?_⟩
    rw [freeDecodeResult_encode (s := freeWorking { s with host := rest }) (hkept.resolve_left (absurd hb))]
    exact ⟨rfl, rfl, rfl, rfl, rfl⟩
  · rw [abortCall_of_not_busy (s := { s with host := rest }) hb]
    exact ⟨rfl, rfl, rfl, rfl, rfl, rfl, rfl, rfl, rfl, fun _ => ⟨rfl, rfl, rfl, rfl, rfl, rfl⟩,
      fun _ => ⟨rfl, rfl, rfl, rfl, rfl⟩⟩

end Sys2Proof.Machine

/-! ## With no call running, and after a failed one (60_exceptions.md R232, R233) -/

namespace Sys2Proof.Machine

/-- Settles O36: the step is the engine's, which stays where it is (`engineStep_not_busy`). -/
theorem noCallNoStep : Obligations.NoCallNoStep := by
  unfold Obligations.NoCallNoStep
  intro s hb hh
  rw [step_of_no_move hh, engineStep_not_busy hb]

/-- A move of the host ends a running call in ERROR only where the engine steps and raises: every other move keeps BUSY, needs an
engine that is not BUSY, or goes to IDLE. -/
theorem hostTo_raised_of_error {m : HostMove} {s t : State} (h : HostTo m s t) (hb : s.callState = .busy)
    (he : t.callState = .error) : ∃ e s', t = raise e s' := by
  cases h with
  | engine moves _ _ h =>
    obtain ⟨e, _, ht⟩ := raised_of_error h hb he
    exact ⟨e, _, ht⟩
  | nothing | read => simp [hb] at he
  | aborted => simp [abortCall_of_busy hb] at he
  | wroteDescriptor _ _ _ _ _ hidle | wroteInput _ _ _ hidle | wroteControl _ _ _ _ hidle | started _ _ _ hidle =>
    exact absurd hb hidle

/-- Whoever moves, the step that ends a running call in ERROR is `raise`. -/
theorem step_raised_of_error {s t : State} (h : step s = .next t) (hb : s.callState = .busy) (he : t.callState = .error) :
    ∃ e s', t = raise e s' := by
  cases hh : s.host with
  | nil =>
    obtain ⟨e, _, ht⟩ := raised_of_error (engineStep_to (step_of_no_move hh ▸ h)) hb he
    exact ⟨e, s, ht⟩
  | cons m rest =>
    have hto : HostTo m { s with host := rest } t := hostMove_to (step_of_move hh ▸ h)
    exact hostTo_raised_of_error hto hb he

/-- Settles O38: the step raised the error (`step_raised_of_error`), and `raise` leaves `OUT` empty (`raise_outMem`). -/
theorem failedCallShowsNoOutput : Obligations.FailedCallShowsNoOutput := by
  unfold Obligations.FailedCallShowsNoOutput
  intro s t hb h he a
  obtain ⟨e, s', rfl⟩ := step_raised_of_error h hb he
  rw [outByte, raise_outMem, memRead_nil]

end Sys2Proof.Machine

/-! ## Power-on, and the START of a call (70_reset_and_hazards.md R250 to R252) -/

namespace Sys2Proof.Machine

/-- `START` reads as 0 in every state (10_state.md R31). -/
theorem ctrlWord_start (s : State) : (ctrlWord s).getLsbD 1 = false := by
  unfold ctrlWord
  cases s.mode <;> rfl

/-- Settles O49: the status registers are `State.reset`'s own, and START never reads as 1 (`ctrlWord_start`). -/
theorem resetIsIdle : Obligations.ResetIsIdle := by
  unfold Obligations.ResetIsIdle
  exact ⟨rfl, rfl, rfl, rfl, ctrlWord_start State.reset⟩

/-- Settles O50: no call runs after power-on, so the invariant speaks of the memories and the status registers alone
(`Invariant.of_not_busy`). -/
theorem resetMeetsTheInvariant : Obligations.ResetMeetsTheInvariant := by
  unfold Obligations.ResetMeetsTheInvariant
  obtain ⟨hidle, htrailer, herr, hlen, -⟩ := resetIsIdle
  obtain ⟨hin, hout⟩ := reset_wf
  exact .of_not_busy (by simp [hidle]) hin hout (by simp [herr, hidle]) (fun _ => hlen) (fun _ => htrailer)
    (fun hdone => by simp [hidle] at hdone)

theorem ctrlMode_eq_encode_iff (v : BitVec 2) : ctrlMode v = .encode ↔ v.getLsbD 0 = false := by
  unfold ctrlMode
  cases v.getLsbD 0 <;> simp

theorem startCall_phase (m : Mode) (s : State) :
    (startCall m s).phase = if m = .encode then .check else .header := by
  cases m <;> simp

/-- A START over buffers that are apart, with no call running, turns on whether the inputs were written (R252). -/
theorem step_start {s : State} {v : BitVec 2} {rest : List HostMove} (hh : s.host = .writeCtrl v :: rest)
    (hv : v.getLsbD 1 = true) (hb : s.callState ≠ .busy) (ho : s.overlap = false) :
    step s =
      if inputsWritten (ctrlMode v) s then .next (startCall (ctrlMode v) { s with host := rest })
      else .refused .inputsNeverWritten := by
  have hidle : isBusy { s with host := rest } = false := isBusy_of_not_busy hb
  rw [step_of_move hh, hostMove, hostWriteCtrl, if_pos (show ctrlStart v = true from hv), hidle,
    if_neg Bool.false_ne_true, ho, if_neg Bool.false_ne_true]
  rfl

/-- What an admitted START found in the model's record of writes (log 23), whatever the form of the memory. -/
theorem inputsWritten_flags {m : Mode} {s : State} (h : inputsWritten m s = true) :
    s.written.inLen = true ∧
      (m = .encode → s.written.width = true ∧ s.written.height = true ∧ s.written.channels = true ∧
        s.written.colorspace = true) := by
  simp only [inputsWritten, Bool.and_eq_true] at h
  obtain ⟨⟨hlen, -⟩, hmode⟩ := h
  refine ⟨hlen, ?_⟩
  rintro rfl
  simpa [and_assoc] using hmode

/-- Settles O39: the inputs were written (`inputsWritten_iff`), so the step is `startCall`, read register by register. -/
theorem startInitialisesTheCall : Obligations.StartInitialisesTheCall := by
  unfold Obligations.StartInitialisesTheCall
  intro s v rest hh hv hb ho hwf hlen hfilled hdescriptor
  have hwritten : inputsWritten (ctrlMode v) s = true :=
    (inputsWritten_iff _ hwf).2 ⟨hlen, hfilled, fun hm => hdescriptor ((ctrlMode_eq_encode_iff v).1 hm)⟩
  refine ⟨_, (step_start hh hv hb ho).trans (if_pos hwritten), startCall_callState _ _, startCall_err _ _,
    startCall_outLen _ _, startCall_trailerOk _ _, startCall_mode _ _, ?_, startCall_prev _ _, startCall_run _ _, ?_,
    startCall_pxPos _ _, startCall_ip _ _, startCall_op _ _, startCall_host _ _, startCall_config _ _,
    startCall_inMem _ _, startCall_inLen _ _, startCall_overlap _ _, startCall_hostData _ _, fun hencode => ?_⟩
  · simp only [startCall_phase, ctrlMode_eq_encode_iff]
    cases v.getLsbD 0 <;> rfl
  · intro slot
    simp [Config.slotInit]
  · rw [(ctrlMode_eq_encode_iff v).2 hencode]
    exact ⟨rfl, rfl, rfl, rfl, rfl⟩

/-- Settles O40: had the inputs been written, none of the causes could hold. -/
theorem unwrittenInputsAreRefused : Obligations.UnwrittenInputsAreRefused := by
  unfold Obligations.UnwrittenInputsAreRefused
  intro s v rest hh hv hb ho hmissing
  refine (step_start hh hv hb ho).trans (if_neg fun hwritten => ?_)
  obtain ⟨hlen, hdescriptor⟩ := inputsWritten_flags hwritten
  obtain hno | ⟨a, ha, hno⟩ | ⟨hencode, hno⟩ := hmissing
  · simp [hlen] at hno
  · have := inputsWritten_filled hwritten a ha
    simp [hno] at this
  · have := hdescriptor ((ctrlMode_eq_encode_iff v).2 hencode)
    simp [this] at hno

end Sys2Proof.Machine

/-! ## How host and engine take turns -/

namespace Sys2Proof.Machine

/-- While the call runs, polling it is one step of the engine, and the host's move stays the next one (log 6). -/
theorem step_of_await_busy {s : State} {rest : List HostMove} (hh : s.host = .await :: rest)
    (hb : s.callState = .busy) : step s = engineStep s :=
  calc step s
    _ = hostMove .await { s with host := rest } := step_of_move hh
    _ = engineStep { s with host := .await :: rest } := if_pos (isBusy_of_busy (s := { s with host := rest }) hb)
    _ = engineStep s := by rw [← hh]

/-- Once no call runs, polling is over: the host's move is dropped and the engine does nothing (log 6). -/
theorem step_of_await_not_busy {s : State} {rest : List HostMove} (hh : s.host = .await :: rest)
    (hb : s.callState ≠ .busy) : step s = .next { s with host := rest } :=
  have hidle : isBusy { s with host := rest } = false := isBusy_of_not_busy hb
  (step_of_move hh).trans (if_neg (Bool.eq_false_iff.1 hidle))

/-- Settles O35: each clause is the step on an empty or non-empty list of moves, `await` splitting on whether a call runs. -/
theorem hostAndEngineTakeTurns : Obligations.HostAndEngineTakeTurns := by
  unfold Obligations.HostAndEngineTakeTurns
  exact fun s rest => ⟨step_of_no_move, step_of_move, step_of_await_busy, step_of_await_not_busy⟩

end Sys2Proof.Machine
